-- ==== Sys2Proof/Word.lean ====
section
/-! DEFINITION. The units of the FBC: the 32-bit word of the command port, the halfword and the byte
(spec/00_scope.md R10). -/

namespace Sys2Proof

/-- A word of the command port and of the RESULT and STATUS read ports (R10: "a word is 32 bits"). -/
abbrev Word := BitVec 32

/-- A halfword: the coordinate fields of argument words, CURX and CURY, a glyph row (R10). -/
abbrev Half := BitVec 16

/-- A byte: framebuffer storage, bus payloads, characters (R10). -/
abbrev Byte := BitVec 8

end Sys2Proof
end

