-- ==== Sys2Proof/Machine/Operands.lean ====
section
/-! DEFINITION. How operand fields are read (spec/00_scope.md R11, spec/30_encoding.md R104-R113): the
signed and unsigned halfword, the 16-bit wrap, the size of a bitmap, the packing of payload bytes. -/

namespace Sys2Proof.Machine

/-- `sint16(h)` (R11): a 16-bit field as two's complement, -32768..32767. -/
def sint16 (h : Half) : Int := h.toInt

/-- `uint16(h)` (R11): a 16-bit field as an unsigned number, 0..65535. -/
def uint16 (h : Half) : Nat := h.toNat

/-- `wrap16(v)` (R11) as the 16 bits a register keeps: `v` modulo 2^16 in two's complement. -/
def wrap16 (v : Int) : Half := BitVec.ofInt 16 v

/-- `zext_32(v)` of a byte (R11, R113, R145). -/
def zext32 (b : Byte) : Word := b.setWidth 32

/-- A natural number in the 32-bit RESULT register (R41). -/
def word32 (n : Nat) : Word := BitVec.ofNat 32 n

/-- `ceil(w/8)`: the bytes of one bitmap row (R170, `bpr` of R171). -/
def bytesPerRow (w : Half) : Nat := (uint16 w + 7) / 8

/-- `ceil(w/8) * h`: the payload bytes of a BITMAP (R111, R170). -/
def bitmapBytes (w h : Half) : Nat := bytesPerRow w * uint16 h

/-- `ceil(N/4)`: the payload words of `N` payload bytes (R110). -/
def payloadWords (n : Nat) : Nat := (n + 3) / 4

/-- The low halfword of an argument word: `x`, `w`, `r` or `n` (R104-R108). -/
def loHalf (a : Word) : Half := a.extractLsb' 0 16

/-- The high halfword of an argument word: `y`, `h`, or the reserved bits of an R or LEN word (R104-R108). -/
def hiHalf (a : Word) : Half := a.extractLsb' 16 16

/-- The four bytes of a payload word: byte `k` is bits `8k+7 : 8k` (R110, R73.4). -/
def wordBytes (a : Word) : List Byte :=
  [a.extractLsb' 0 8, a.extractLsb' 8 8, a.extractLsb' 16 8, a.extractLsb' 24 8]

/-- The `n` payload bytes that start the word list `ws`; the padding of the last word is dropped (R110). -/
def payloadBytes (n : Nat) (ws : List Word) : List Byte :=
  ((ws.take (payloadWords n)).flatMap wordBytes).take n

/-- An argument word from its two halfwords, `{hi, lo}` (R104-R108). -/
def argWord (lo hi : Half) : Word := hi ++ lo

/-- A payload word from its four bytes, byte 0 in the low bits (R110). -/
def packWord (b0 b1 b2 b3 : Byte) : Word := b3 ++ (b2 ++ (b1 ++ b0))

/-- The payload words of a byte list, padded with zero bytes (R110: "any value is accepted" as padding; an
encoder must write one, log entry 14). -/
def packBytes : List Byte → List Word
  | [] => []
  | [a] => [packWord a 0 0 0]
  | [a, b] => [packWord a b 0 0]
  | [a, b, c] => [packWord a b c 0]
  | a :: b :: c :: d :: rest => packWord a b c d :: packBytes rest

end Sys2Proof.Machine
end

