-- ==== Sys2Proof/Syntax.lean ====
section
/-! DEFINITION. The commands of FBC-CS version 1, one constructor per row of the opcode map
(spec/30_encoding.md R111). -/

namespace Sys2Proof

/-- A command with its operands as the words carry them (R102-R110): `c` is the colour bit, coordinates and
the radius are the 16 bits of their field (read as signed where a rule says `sint16`), `d` and `str` are the
payload bytes; a string's LEN field is the length of `str`. -/
inductive Instr where
  /-- 0x01 INIT, format F0 (R220). -/
  | init
  /-- 0x02 FILL, format FC (R143). -/
  | fill (c : Bool)
  /-- 0x03 CLEAR, format F0 (R144). -/
  | clear
  /-- 0x04 UPDATE, format F0 (R249). -/
  | update
  /-- 0x05 UPDCHUNK, format F0, IDX word (R256). -/
  | updchunk (k : Word)
  /-- 0x06 TICK, format F0 (R252). -/
  | tick
  /-- 0x07 GETCHUNKS, format F0 (R258). -/
  | getchunks
  /-- 0x08 GETUCUR, format F0 (R259). -/
  | getucur
  /-- 0x0A DISPON, format F0 (R222). -/
  | dispon
  /-- 0x0B DISPOFF, format F0 (R223). -/
  | dispoff
  /-- 0x0C TOGINV, format F0 (R224). -/
  | toginv
  /-- 0x0D SETBRIGHT, format FI (R225). -/
  | setbright (v : Byte)
  /-- 0x10 PIXEL, format FC, XY word (R141). -/
  | pixel (c : Bool) (x y : Half)
  /-- 0x11 LINE, format FC, two XY words (R150). -/
  | line (c : Bool) (x0 y0 x1 y1 : Half)
  /-- 0x12 RECT, format FC, two XY words (R155). -/
  | rect (c : Bool) (x1 y1 x2 y2 : Half)
  /-- 0x13 FILLRECT, format FC, two XY words (R156). -/
  | fillrect (c : Bool) (x1 y1 x2 y2 : Half)
  /-- 0x14 CIRCLE, format FC, XY and R words (R161). -/
  | circle (c : Bool) (cx cy r : Half)
  /-- 0x15 FILLCIRCLE, format FC, XY and R words (R162). -/
  | fillcircle (c : Bool) (cx cy r : Half)
  /-- 0x16 BITMAP, format FC, XY and WH words, payload (R171). -/
  | bitmap (c : Bool) (x y w h : Half) (d : List Byte)
  /-- 0x18 SETCURSOR, format F0, XYU word (R190). -/
  | setcursor (x y : Half)
  /-- 0x19 GETCURSOR, format F0 (R191). -/
  | getcursor
  /-- 0x1A WRCHAR, format FIC (R192). -/
  | wrchar (c : Bool) (ch : Byte)
  /-- 0x1B WRSTR, format FC, LEN word, payload (R193). -/
  | wrstr (c : Bool) (str : List Byte)
  /-- 0x1C WRSTRAT, format FC, XYU and LEN words, payload (R194). -/
  | wrstrat (c : Bool) (x y : Half) (str : List Byte)
  /-- 0x1D STRWIDTH, format F0, LEN word, payload (R196). -/
  | strwidth (str : List Byte)
  /-- 0x1E RDFB, format F0, OFS word (R145). -/
  | rdfb (ofs : Word)
  /-- 0x1F WRFB, format FI, OFS word (R146). -/
  | wrfb (v : Byte) (ofs : Word)
deriving DecidableEq, Repr

end Sys2Proof
end

