-- ==== Sys2Proof/WellFormed.lean ====
section
/-! DEFINITION. Which `Instr` terms are commands of the encoding: the payload has the length its length-bearing
argument word says (spec/30_encoding.md R106, R108, R111). Every other operand fits its field by its type. -/

namespace Sys2Proof

/-- A string's length fits the 16-bit LEN field (R108). -/
def stringFits (str : List Byte) : Bool := decide (str.length ≤ 65535)

/-- The check for each command: a BITMAP carries exactly `ceil(w/8)*h` bytes (R111, R115), a string at most
65535 bytes (R108); a command with no payload is always well formed. -/
def Instr.wf : Instr → Bool
  | .bitmap _ _ _ w h d => decide (d.length = Machine.bitmapBytes w h)
  | .wrstr _ str => stringFits str
  | .wrstrat _ _ _ str => stringFits str
  | .strwidth str => stringFits str
  | .init => true
  | .fill _ => true
  | .clear => true
  | .update => true
  | .updchunk _ => true
  | .tick => true
  | .getchunks => true
  | .getucur => true
  | .dispon => true
  | .dispoff => true
  | .toginv => true
  | .setbright _ => true
  | .pixel _ _ _ => true
  | .line _ _ _ _ _ => true
  | .rect _ _ _ _ _ => true
  | .fillrect _ _ _ _ _ => true
  | .circle _ _ _ _ => true
  | .fillcircle _ _ _ _ => true
  | .setcursor _ _ => true
  | .getcursor => true
  | .wrchar _ _ => true
  | .rdfb _ => true
  | .wrfb _ _ => true

end Sys2Proof
end

