-- ==== Sys2Proof/Decode.lean ====
section
/-! DEFINITION. The command encoding (spec/30_encoding.md): `decodeWords` reads the next command from a word
stream, checking each word as it arrives (R101, R120); `encode` writes a command's words; `commandLength` is the
length decoding of R112. -/

namespace Sys2Proof
open Machine

/-- The three causes of `Illegal` (spec/60_exceptions.md R280). -/
inductive IllCause where
  /-- Cause 1: the header's OP is unassigned. -/
  | unassignedOp
  /-- Cause 2: a reserved bit of the header word is 1. -/
  | headerReserved
  /-- Cause 3: a reserved bit of an R or LEN argument word is 1. -/
  | argReserved
deriving DecidableEq, Repr

/-- What the words taken from the port so far amount to. -/
inductive DecodeResult where
  /-- All words of the command `i` have arrived; `rest` follows them. -/
  | complete (i : Instr) (rest : List Word)
  /-- `word` failed a check of R120; `rest` are the words after it, not yet taken. -/
  | illegal (cause : IllCause) (word : Word) (rest : List Word)
  /-- Every word so far is legal and the command needs more. -/
  | incomplete
deriving DecidableEq, Repr

/-- OP, bits 31:24 of the header (R102). -/
def opField (h : Word) : Byte := h.extractLsb' 24 8

/-- RSV_A, bits 23:16 of the header (R102). -/
def rsvAField (h : Word) : Byte := h.extractLsb' 16 8

/-- IMM8, bits 15:8 of the header (R102, R113). -/
def immField (h : Word) : Byte := h.extractLsb' 8 8

/-- RSV_B, bits 7:1 of the header (R102). -/
def rsvBField (h : Word) : BitVec 7 := h.extractLsb' 1 7

/-- C, bit 0 of the header (R102, R113). -/
def colourField (h : Word) : Bool := h.getLsbD 0

/-- The reserved bits every format has (R103). -/
def rsvClear (h : Word) : Bool := decide (rsvAField h = 0) && decide (rsvBField h = 0)

/-- Format F0: neither IMM8 nor C (R103, R120.2). -/
def withF0 (h : Word) (ws : List Word) (k : DecodeResult) : DecodeResult :=
  if rsvClear h && decide (immField h = 0) && !colourField h then k else .illegal .headerReserved h ws

/-- Format FC: the colour bit (R103, R120.2). -/
def withFC (h : Word) (ws : List Word) (k : Bool → DecodeResult) : DecodeResult :=
  if rsvClear h && decide (immField h = 0) then k (colourField h) else .illegal .headerReserved h ws

/-- Format FI: the immediate (R103, R120.2). -/
def withFI (h : Word) (ws : List Word) (k : Byte → DecodeResult) : DecodeResult :=
  if rsvClear h && !colourField h then k (immField h) else .illegal .headerReserved h ws

/-- Format FIC: the immediate and the colour bit (R103, R120.2). -/
def withFIC (h : Word) (ws : List Word) (k : Byte → Bool → DecodeResult) : DecodeResult :=
  if rsvClear h then k (immField h) (colourField h) else .illegal .headerReserved h ws

/-- An argument word with no reserved bits: XY, XYU, WH, IDX or OFS (R104-R106, R109). -/
def withArg (ws : List Word) (k : Word → List Word → DecodeResult) : DecodeResult :=
  match ws with
  | [] => .incomplete
  | a :: rest => k a rest

/-- An R or LEN argument word: bits 31:16 are reserved (R107, R108, R120.3); `k` gets its low halfword. -/
def withLowArg (ws : List Word) (k : Half → List Word → DecodeResult) : DecodeResult :=
  match ws with
  | [] => .incomplete
  | a :: rest => if hiHalf a = 0 then k (loHalf a) rest else .illegal .argReserved a rest

/-- A payload of `n` bytes (R110); the command waits until all its words have arrived (R101). -/
def withPayload (n : Nat) (ws : List Word) (k : List Byte → List Word → DecodeResult) : DecodeResult :=
  if payloadWords n ≤ ws.length then k (payloadBytes n ws) (ws.drop (payloadWords n)) else .incomplete

/-- The decoder: R111 read row by row, checks in the order of R120 (opcode, header bits, each argument word). -/
def decodeWords : List Word → DecodeResult
  | [] => .incomplete
  | h :: ws =>
    match (opField h).toNat with
    | 0x01 => withF0 h ws (.complete .init ws)
    | 0x02 => withFC h ws fun c => .complete (.fill c) ws
    | 0x03 => withF0 h ws (.complete .clear ws)
    | 0x04 => withF0 h ws (.complete .update ws)
    | 0x05 => withF0 h ws (withArg ws fun k ws => .complete (.updchunk k) ws)
    | 0x06 => withF0 h ws (.complete .tick ws)
    | 0x07 => withF0 h ws (.complete .getchunks ws)
    | 0x08 => withF0 h ws (.complete .getucur ws)
    | 0x0A => withF0 h ws (.complete .dispon ws)
    | 0x0B => withF0 h ws (.complete .dispoff ws)
    | 0x0C => withF0 h ws (.complete .toginv ws)
    | 0x0D => withFI h ws fun v => .complete (.setbright v) ws
    | 0x10 => withFC h ws fun c => withArg ws fun p ws => .complete (.pixel c (loHalf p) (hiHalf p)) ws
    | 0x11 => withFC h ws fun c => withArg ws fun p ws => withArg ws fun q ws =>
        .complete (.line c (loHalf p) (hiHalf p) (loHalf q) (hiHalf q)) ws
    | 0x12 => withFC h ws fun c => withArg ws fun p ws => withArg ws fun q ws =>
        .complete (.rect c (loHalf p) (hiHalf p) (loHalf q) (hiHalf q)) ws
    | 0x13 => withFC h ws fun c => withArg ws fun p ws => withArg ws fun q ws =>
        .complete (.fillrect c (loHalf p) (hiHalf p) (loHalf q) (hiHalf q)) ws
    | 0x14 => withFC h ws fun c => withArg ws fun p ws => withLowArg ws fun r ws =>
        .complete (.circle c (loHalf p) (hiHalf p) r) ws
    | 0x15 => withFC h ws fun c => withArg ws fun p ws => withLowArg ws fun r ws =>
        .complete (.fillcircle c (loHalf p) (hiHalf p) r) ws
    | 0x16 => withFC h ws fun c => withArg ws fun p ws => withArg ws fun z ws =>
        withPayload (bitmapBytes (loHalf z) (hiHalf z)) ws fun d ws =>
          .complete (.bitmap c (loHalf p) (hiHalf p) (loHalf z) (hiHalf z) d) ws
    | 0x18 => withF0 h ws (withArg ws fun p ws => .complete (.setcursor (loHalf p) (hiHalf p)) ws)
    | 0x19 => withF0 h ws (.complete .getcursor ws)
    | 0x1A => withFIC h ws fun ch c => .complete (.wrchar c ch) ws
    | 0x1B => withFC h ws fun c => withLowArg ws fun n ws =>
        withPayload (uint16 n) ws fun str ws => .complete (.wrstr c str) ws
    | 0x1C => withFC h ws fun c => withArg ws fun p ws => withLowArg ws fun n ws =>
        withPayload (uint16 n) ws fun str ws => .complete (.wrstrat c (loHalf p) (hiHalf p) str) ws
    | 0x1D => withF0 h ws (withLowArg ws fun n ws =>
        withPayload (uint16 n) ws fun str ws => .complete (.strwidth str) ws)
    | 0x1E => withF0 h ws (withArg ws fun o ws => .complete (.rdfb o) ws)
    | 0x1F => withFI h ws fun v => withArg ws fun o ws => .complete (.wrfb v o) ws
    | _ => .illegal .unassignedOp h ws

/-! The encoder. -/

/-- A header word from its fields, the reserved ones zero (R102). -/
def headerWord (op imm : Byte) (c : Bool) : Word := op ++ (0#8 ++ (imm ++ (0#7 ++ BitVec.ofBool c)))

/-- A LEN argument word (R108). -/
def lenWord (str : List Byte) : Word := argWord (BitVec.ofNat 16 str.length) 0

/-- The words of a command (R102-R111). -/
def encode : Instr → List Word
  | .init => [headerWord 0x01 0 false]
  | .fill c => [headerWord 0x02 0 c]
  | .clear => [headerWord 0x03 0 false]
  | .update => [headerWord 0x04 0 false]
  | .updchunk k => [headerWord 0x05 0 false, k]
  | .tick => [headerWord 0x06 0 false]
  | .getchunks => [headerWord 0x07 0 false]
  | .getucur => [headerWord 0x08 0 false]
  | .dispon => [headerWord 0x0A 0 false]
  | .dispoff => [headerWord 0x0B 0 false]
  | .toginv => [headerWord 0x0C 0 false]
  | .setbright v => [headerWord 0x0D v false]
  | .pixel c x y => [headerWord 0x10 0 c, argWord x y]
  | .line c x0 y0 x1 y1 => [headerWord 0x11 0 c, argWord x0 y0, argWord x1 y1]
  | .rect c x1 y1 x2 y2 => [headerWord 0x12 0 c, argWord x1 y1, argWord x2 y2]
  | .fillrect c x1 y1 x2 y2 => [headerWord 0x13 0 c, argWord x1 y1, argWord x2 y2]
  | .circle c cx cy r => [headerWord 0x14 0 c, argWord cx cy, argWord r 0]
  | .fillcircle c cx cy r => [headerWord 0x15 0 c, argWord cx cy, argWord r 0]
  | .bitmap c x y w h d => headerWord 0x16 0 c :: argWord x y :: argWord w h :: packBytes d
  | .setcursor x y => [headerWord 0x18 0 false, argWord x y]
  | .getcursor => [headerWord 0x19 0 false]
  | .wrchar c ch => [headerWord 0x1A ch c]
  | .wrstr c str => headerWord 0x1B 0 c :: lenWord str :: packBytes str
  | .wrstrat c x y str => headerWord 0x1C 0 c :: argWord x y :: lenWord str :: packBytes str
  | .strwidth str => headerWord 0x1D 0 false :: lenWord str :: packBytes str
  | .rdfb ofs => [headerWord 0x1E 0 false, ofs]
  | .wrfb v ofs => [headerWord 0x1F v false, ofs]

/-! Length decoding (R112), from the header and at most one argument word. -/

/-- `ArgCount(OP)` (R111); none for an unassigned OP. -/
def argCount (op : Byte) : Option Nat :=
  match op.toNat with
  | 0x01 | 0x02 | 0x03 | 0x04 | 0x06 | 0x07 | 0x08 | 0x0A | 0x0B | 0x0C | 0x0D | 0x19 | 0x1A => some 0
  | 0x05 | 0x10 | 0x18 | 0x1B | 0x1D | 0x1E | 0x1F => some 1
  | 0x11 | 0x12 | 0x13 | 0x14 | 0x15 | 0x16 | 0x1C => some 2
  | _ => none

/-- `PayloadWords` (R112) from the length-bearing argument word, the last argument of BITMAP and of the string
commands; 0 for every other command. DESIGN CHOICE (log entry 23): R112's formula holds for BITMAP with
`w = h = 65535` too, where the rule writes another number. -/
def payloadWordsOf (op : Byte) (a : Word) : Nat :=
  match op.toNat with
  | 0x16 => payloadWords (bitmapBytes (loHalf a) (hiHalf a))
  | 0x1B | 0x1C | 0x1D => payloadWords (uint16 (loHalf a))
  | _ => 0

/-- The number of words of the command that starts `ws` (R112); none while the words that settle it are not all
there, or for an unassigned OP. DESIGN CHOICE (log entry 23): the longest command, BITMAP with `w = h = 65535`, has
134,215,683 words, the value of R112's formula `3 + ceil(8192 * 65535 / 4)`, and not the 134,217,731 the rule writes. -/
def commandLength : List Word → Option Nat
  | [] => none
  | h :: ws =>
    match argCount (opField h) with
    | none => none
    | some 0 => some 1
    | some (n + 1) => (ws[n]?).map fun a => n + 2 + payloadWordsOf (opField h) a

/-! One row of the opcode table as a number, for the host. -/

/-- `n` words of the number `v`, the least significant first. -/
def splitWords : Nat → Nat → List Word
  | 0, _ => []
  | n + 1, v => BitVec.ofNat 32 v :: splitWords n (v / 2 ^ 32)

/-- The words of the command whose `nbits` bits are `w`, every bit above them 0: the words of `w`, then as many zero
words as R112 gives the command. The port's unit is the whole 32-bit word (spec/20_memory.md R74), so no byte order
arises. -/
def tableWords (nbits w : Nat) : List Word :=
  let given := splitWords ((nbits + 31) / 32) (w % 2 ^ nbits)
  match commandLength (given ++ [0, 0]) with
  | some n => (given ++ List.replicate n 0).take n
  | none => given

/-- The instruction the decoder reads from a table row's bits; none where it refuses. -/
def decodeTableWord (nbits w : Nat) : Option Instr :=
  match decodeWords (tableWords nbits w) with
  | .complete i _ => some i
  | .illegal _ _ _ => none
  | .incomplete => none

end Sys2Proof
end

