-- ==== Sys2Proof/Config.lean ====
section
/-! DEFINITION. The configuration record of the FBC (spec/00_scope.md R7, spec/41_text.md R180), and the two free
values of the model: the framebuffer's reset bytes and the adapter's answers. What is computed from the record is in
Machine/Params.lean. -/

namespace Sys2Proof

/-- `BUSKIND` (R7); read only by the adapter. -/
inductive BusKind where
  /-- I²C. -/
  | i2c
  /-- SPI. -/
  | spi
deriving DecidableEq, Repr

/-- One glyph of the font ROM (R180). -/
structure Glyph where
  /-- `GW[g]`: width in pixels, 0..16. -/
  GW : Nat
  /-- `YOFF[g]`: vertical offset, the 8 bits of a signed number. -/
  YOFF : Byte
  /-- `ROW[g][r]`: bit `15 - i` of row `r` is column `i`. -/
  ROW : List Half
deriving DecidableEq, Repr

/-- The font ROM (R180): glyph `g` is the glyph of character code `g + 32`. -/
structure Font where
  /-- Glyph height in rows, 1..255. -/
  FH : Nat
  /-- Inter-glyph spacing in pixels, 0..255. -/
  SP : Nat
  /-- The 95 glyphs, in order. -/
  glyphs : List Glyph
deriving DecidableEq, Repr

/-- `ADDRSEQ` (R7, spec/43_stream.md R241) as plain data: either the default page-addressing sequence or a table of
the function's values. Any function on the pages and columns of a panel is a table. -/
inductive AddrSeq where
  /-- `ADDRSEQ_default` of R241. -/
  | pageMode
  /-- Rows `(page, controller column, command bytes)`; a pair with no row is undefined. -/
  | table (rows : List (Nat × Nat × List Byte))
deriving DecidableEq, Repr

/-- The configuration (R7), fixed at reset and constant afterwards. -/
structure Config where
  /-- Panel width in pixels. -/
  W : Nat
  /-- Panel height in pixels. -/
  H : Nat
  /-- Horizontal column offset added to every column address sent. -/
  XOFF : Nat
  /-- Orientation flag; selects a byte of the default `INITSEQ` only. -/
  MIRROR_H : Bool
  /-- Orientation flag; selects a byte of the default `INITSEQ` only. -/
  MIRROR_V : Bool
  /-- Invert flag programmed by INIT. -/
  INVERT_INIT : Bool
  /-- Contrast value programmed by INIT. -/
  CONTRAST_INIT : Byte
  /-- Transport kind; read only by the adapter. -/
  BUSKIND : BusKind
  /-- I²C address; read only by the adapter. -/
  BUSADDR : BitVec 7
  /-- Configured transfer-granularity exponent. -/
  POW : Nat
  /-- Least exponent. -/
  MINPOW : Nat
  /-- Greatest exponent. -/
  MAXPOW : Nat
  /-- The font ROM. -/
  FONT : Font
  /-- The page/column-set commands. -/
  ADDRSEQ : AddrSeq
  /-- The init programming sequence. -/
  INITSEQ : List Byte
  /-- The display-on command byte. -/
  CMD_ON : Byte
  /-- The display-off command byte. -/
  CMD_OFF : Byte
  /-- The normal-mode command byte. -/
  CMD_NORMAL : Byte
  /-- The inverse-mode command byte. -/
  CMD_INVERSE : Byte
  /-- The contrast command byte. -/
  CMD_CONTRAST : Byte
deriving DecidableEq, Repr

/-- FREE VALUE (log entry 2): the byte the framebuffer holds at an offset after a reset and before anything is
written there, "UNSPECIFIED: each byte any value (a draw)" (spec/10_state.md R46). Applied to the number of the
reset and the offset. -/
opaque Config.resetByte : Nat → Nat → Byte

/-- FREE VALUE (log entry 3): the adapter's answer to a transaction, `true` for success, "a draw ... independent of
everything else in the state" (spec/00_scope.md R14). Applied to a counter. -/
opaque Config.adapterAnswer : Nat → Bool

end Sys2Proof
end

