-- ==== Sys2Proof/Machine/Params.lean ====
section
/-! DEFINITION. What is computed from the configuration: the derived constants (spec/00_scope.md R8), its
well-formedness (R9), the address sequence (spec/43_stream.md R241), glyph lookup (spec/41_text.md R180, R181), the
default byte sequences (spec/42_control.md R218, R219) and the example panel. -/

namespace Sys2Proof.Machine

/-- `PAGES = H / 8` (R8). -/
def PAGES (c : Config) : Nat := c.H / 8

/-- `BUFSZ = W * PAGES` (R8). -/
def BUFSZ (c : Config) : Nat := c.W * PAGES c

/-- `EPOW = min(max(POW, MINPOW), MAXPOW)` (R8, R240). -/
def EPOW (c : Config) : Nat := min (max c.POW c.MINPOW) c.MAXPOW

/-- `BPO = 2^EPOW` (R8, R240). -/
def BPO (c : Config) : Nat := 2 ^ EPOW c

/-- `TOTAL = ceil(BUFSZ / BPO)` (R8). -/
def TOTAL (c : Config) : Nat := (BUFSZ c + BPO c - 1) / BPO c

/-- `ADDRSEQ_default(p, ca)` (R241), defined for `p <= 15` and `ca <= 255`. -/
def addrSeqDefault (p ca : Nat) : Option (List Byte) :=
  if p ≤ 15 ∧ ca ≤ 255 then
    some [0xB0#8 ||| BitVec.ofNat 8 p, 0x00#8 ||| BitVec.ofNat 8 (ca % 16), 0x10#8 ||| BitVec.ofNat 8 (ca / 16)]
  else none

/-- The value a table of `ADDRSEQ` gives a page and column: that of its first row for the pair. -/
def tableAddrSeq (p ca : Nat) : List (Nat × Nat × List Byte) → Option (List Byte)
  | [] => none
  | (p', ca', bs) :: rows => if p' = p ∧ ca' = ca then some bs else tableAddrSeq p ca rows

/-- `ADDRSEQ(p, ca)` (R7, R241); none where it is undefined. -/
def addrSeq? (c : Config) (p ca : Nat) : Option (List Byte) :=
  match c.ADDRSEQ with
  | .pageMode => addrSeqDefault p ca
  | .table rows => tableAddrSeq p ca rows

/-- `ADDRSEQ(p, ca)` as the byte list `SendRange` sends; empty where it is undefined, which no well-formed
configuration meets (R9.4). -/
def addrSeq (c : Config) (p ca : Nat) : List Byte := (addrSeq? c p ca).getD []

/-- A value of `ADDRSEQ` is defined and non-empty (R9.4). -/
def addrSeqUsable : Option (List Byte) → Bool
  | some (_ :: _) => true
  | some [] => false
  | none => false

/-- R9.4: `ADDRSEQ(p, c)` is defined and non-empty for `p < PAGES` and `XOFF <= c < XOFF + W`; for the default
this is `PAGES <= 16` and `W + XOFF <= 256`. -/
def addrSeqWf (c : Config) : Bool :=
  match c.ADDRSEQ with
  | .pageMode => decide (PAGES c ≤ 16) && decide (c.W + c.XOFF ≤ 256)
  | .table rows =>
    (List.range (PAGES c)).all fun p => (List.range c.W).all fun x => addrSeqUsable (tableAddrSeq p (c.XOFF + x) rows)

/-- The field ranges of a glyph in a font of height `fh` (R180). -/
def glyphWf (fh : Nat) (g : Glyph) : Bool := decide (g.GW ≤ 16) && decide (g.ROW.length = fh)

/-- R180: the font record's shape and ranges. -/
def fontWf (f : Font) : Bool :=
  decide (1 ≤ f.FH) && decide (f.FH ≤ 255) && decide (f.SP ≤ 255) && decide (f.glyphs.length = 95) &&
    f.glyphs.all (glyphWf f.FH)

/-- R9: a configuration is well formed; for any other there is no machine. -/
def configWf (c : Config) : Bool :=
  decide (1 ≤ c.W) && decide (c.W ≤ 32767) && decide (8 ≤ c.H) && decide (c.H ≤ 32760) && decide (c.H % 8 = 0) &&
    decide (c.XOFF ≤ 255) && decide (c.MINPOW ≤ c.MAXPOW) && decide (c.MAXPOW ≤ 31) && addrSeqWf c && fontWf c.FONT

/-- A glyph with no pixels, for an index outside the font record (no well-formed font is read there). -/
def blankGlyph : Glyph := { GW := 0, YOFF := 0, ROW := [] }

/-- Glyph `g` of the font (R180). -/
def fontGlyph (f : Font) (g : Nat) : Glyph := f.glyphs.getD g blankGlyph

/-- R181: a character code is valid if `32 <= ch <= 126`. -/
def validChar (ch : Byte) : Bool := decide (32 ≤ ch.toNat) && decide (ch.toNat ≤ 126)

/-- The glyph of a character code, `G(ch) = ch - 32` (R181). -/
def charGlyph (f : Font) (ch : Byte) : Glyph := fontGlyph f (ch.toNat - 32)

/-- `ADV(ch) = GW[G(ch)] + SP` (R181). -/
def charAdvance (f : Font) (ch : Byte) : Nat := (charGlyph f ch).GW + f.SP

/-- `ceil(log2 n)`, at most `n`: the default of `MAXPOW` for `n = BUFSZ` (R7, spec/92_eei_decisions.md D23). -/
def ceilLog2 (n : Nat) : Nat := ((List.range (n + 1)).find? fun k => decide (n ≤ 2 ^ k)).getD n

/-- `INITSEQ_default` (R218): the SSD1306-family bytes the spec supplies from general knowledge (log entry 12). -/
def initSeqDefault (h : Nat) (mirrorH mirrorV invertInit : Bool) (contrastInit : Byte) : List Byte :=
  [0xAE, 0xD5, 0x80, 0xA8, BitVec.ofNat 8 (h - 1), 0xD3, 0x00, 0x40, 0x20, 0x02,
   if mirrorH then 0xA0 else 0xA1, if mirrorV then 0xC0 else 0xC8,
   0xDA, if h = 32 then 0x02 else 0x12, 0x81, contrastInit, 0xD9, 0x22, 0xDB, 0x20, 0xA4,
   if invertInit then 0xA7 else 0xA6, 0x8D, 0x14, 0xAF]

/-- The font MONO5 of spec/95_test_vectors.md section 0.2: every glyph 5 wide, one empty row. -/
def fontMono5 : Font := { FH := 1, SP := 1, glyphs := List.replicate 95 { GW := 5, YOFF := 0, ROW := [0] } }

/-- A configuration with every default the spec gives (R7, R218, R219, R241) for the chosen panel, offset, exponent
and font; contrast, bus kind and bus address, which the spec leaves open, as in spec/95_test_vectors.md section 0.1
or zero (log entry 1). -/
def configOf (w h xoff pow maxpow : Nat) (font : Font) : Config :=
  { W := w, H := h, XOFF := xoff, MIRROR_H := false, MIRROR_V := false, INVERT_INIT := false,
    CONTRAST_INIT := 0x7F, BUSKIND := .i2c, BUSADDR := 0, POW := pow, MINPOW := 0, MAXPOW := maxpow,
    FONT := font, ADDRSEQ := .pageMode, INITSEQ := initSeqDefault h false false false 0x7F,
    CMD_ON := 0xAF, CMD_OFF := 0xAE, CMD_NORMAL := 0xA6, CMD_INVERSE := 0xA7, CMD_CONTRAST := 0x81 }

/-- CFG-A of spec/95_test_vectors.md: the source's 128x64 example panel (R7, §8 property 10). -/
def examplePanel : Config := configOf 128 64 0 6 10 fontMono5

end Sys2Proof.Machine
end

