-- ==== Sys2Proof/Machine/State.lean ====
section
/-! DEFINITION. The state of the FBC (spec/10_state.md), its reset value, and the reasons a step can stop. -/

namespace Sys2Proof.Machine

/-- `DSTATE` (R36); the encoding of the 2-bit field is `dstateCode` (Flags.lean). -/
inductive DState where
  /-- UNINIT = 0. -/
  | uninit
  /-- ACTIVE = 1. -/
  | active
  /-- OFF = 2. -/
  | off
deriving DecidableEq, Repr

/-- A bus transaction (spec/42_control.md R210). -/
inductive BusTx where
  /-- `Cmd(b)`: tag command, one byte. -/
  | cmd (b : Byte)
  /-- `Data(bs)`: tag data, a byte list in transmission order. -/
  | data (bs : List Byte)
deriving DecidableEq, Repr

/-- One entry of the bus trace: a transaction with the adapter's answer (spec/00_scope.md R14). -/
structure BusRecord where
  /-- The transaction issued. -/
  tx : BusTx
  /-- The adapter's answer, `true` for success. -/
  ok : Bool
deriving DecidableEq, Repr

/-- Framebuffer storage: cells at strictly rising offsets; an offset with no cell has not been written since reset. -/
abbrev Memory := List Host.Cell

/-- Everything the spec gives the machine, with the constants and inputs its step reads. -/
structure State where
  /-- The configuration and font ROM: constants, written by no command (R42, R43; log entry 1). -/
  config : Config
  /-- `FB` (R32). -/
  fb : Memory
  /-- `CURX` (R33), two's complement. -/
  curx : Half
  /-- `CURY` (R33), unsigned. -/
  cury : Half
  /-- `UCUR` (R34). -/
  ucur : Word
  /-- `DSTATE` (R36). -/
  dstate : DState
  /-- `INV` (R37). -/
  inv : Bool
  /-- `CONTRAST` (R38). -/
  contrast : Byte
  /-- `LASTFAIL` (R39). -/
  lastfail : Bool
  /-- `ILL` (R40), equal to the halted condition (R45.2). -/
  ill : Bool
  /-- `ILLCAUSE` (R40). -/
  illcause : BitVec 2
  /-- `RESULT` (R41). -/
  result : Word
  /-- The command-port assembly buffer, oldest word first (R45.1). -/
  asm : List Word
  /-- The words the host has written and the port has not yet taken, oldest first (spec/30_encoding.md R101). -/
  port : List Word
  /-- The bus trace, oldest transaction first (spec/00_scope.md R14, R17). -/
  busTrace : List BusRecord
  /-- The model's own field: adapter answers fixed from outside, the next one first (R14; log entry 3). -/
  answers : List Bool
  /-- The model's own field: how many answers were drawn from `Config.adapterAnswer` (log entry 3). -/
  draws : Nat
  /-- The model's own field: how many resets there have been; selects the draw of the reset bytes (log entry 2). -/
  resets : Nat
deriving DecidableEq, Repr

/-- The reasons a step stops with a fault. -/
inductive Fault where
  /-- Raised by `step` when `ILL = 1`: the FBC is halted and executes nothing (spec/60_exceptions.md R281,
  spec/00_scope.md R17 "a model must treat any run with STATUS.ILL = 1 as faulted"). Safe. -/
  | halted
deriving DecidableEq, Repr

/-- The reasons a step gives no next state without being a fault. -/
inductive Refusal where
  /-- Raised by an arm of `exec` for an instruction with no meaning yet; no arm does. Safe. -/
  | notModelled (mnemonic : String)
  /-- Raised by `step` for a configuration outside R9: "a model refuses (has no machine for)" it. Safe. -/
  | configNotWellFormed
  /-- Raised by `step` when the host's words are consumed with no partial command left: the normal end of a run
  (spec/00_scope.md R17). Safe: more words may be written. -/
  | streamConsumed
  /-- Raised by `step` when a command is incomplete and the host has written no more words: the port holds
  (spec/30_encoding.md R101, spec/93_implementation_defined.md I22 "stuck"). Safe: more words may be written. -/
  | partialCommand
deriving DecidableEq, Repr

/-- The state after power-on reset with configuration `c` (spec/10_state.md R46, spec/70_reset_and_hazards.md
R310): every register at the value of R46, the framebuffer unspecified (nothing listed), the port and the trace
empty. -/
def State.resetWith (c : Config) : State :=
  { config := c, fb := [], curx := 0, cury := 0, ucur := 0, dstate := .uninit, inv := false, contrast := 0,
    lastfail := false, ill := false, illcause := 0, result := 0, asm := [], port := [], busTrace := [],
    answers := [], draws := 0, resets := 0 }

/-- The machine right after reset, on the spec's example panel (R7; DESIGN CHOICE, log entry 1). -/
def State.reset : State := State.resetWith examplePanel

end Sys2Proof.Machine
end

