-- ==== Sys2Proof/Machine/Flags.lean ====
section
/-! DEFINITION. The status fields: the STATUS read port (spec/10_state.md R35), the encodings of DSTATE and
ILLCAUSE, the results of bus-class commands and the epilogue that sets LASTFAIL (spec/42_control.md R213). -/

namespace Sys2Proof.Machine

/-- The DSTATE field (R36): UNINIT = 0, ACTIVE = 1, OFF = 2. -/
def dstateCode : DState → BitVec 2
  | .uninit => 0
  | .active => 1
  | .off => 2

/-- The ILLCAUSE field (R40, spec/60_exceptions.md R280). -/
def illCauseCode : IllCause → BitVec 2
  | .unassignedOp => 1
  | .headerReserved => 2
  | .argReserved => 3

/-- The STATUS read port (R35): CONTRAST [15:8], ILLCAUSE [6:5], ILL [4], LASTFAIL [3], INV [2], DSTATE [1:0], the
rest hardwired 0. -/
def status (s : State) : Word :=
  0#16 ++ (s.contrast ++ (0#1 ++ (s.illcause ++ (BitVec.ofBool s.ill ++ (BitVec.ofBool s.lastfail ++
    (BitVec.ofBool s.inv ++ dstateCode s.dstate))))))

/-- `RESULT <- (if ok then 1 else 0)` of the display-control commands and UPDATE (R220-R225, R249). -/
def okResult (ok : Bool) : Word := if ok then 1 else 0

/-- `RESULT <- {30 zero bits, b1, b0}` of TICK and UPDCHUNK (spec/43_stream.md R252, R256). -/
def pairResult (b1 b0 : Bool) : Word := 0#30 ++ (BitVec.ofBool b1 ++ BitVec.ofBool b0)

/-- What a successful DISPON or DISPOFF makes of DSTATE: `d`, but never out of UNINIT (R222, R223). -/
def displayState (old d : DState) : DState :=
  match old with
  | .uninit => .uninit
  | .active => d
  | .off => d

/-- The common epilogue of every bus-class command: RESULT as the rule says, then `LASTFAIL <- not ok` (R213). -/
def endBusCommand (ok : Bool) (res : Word) (s : State) : State := { s with result := res, lastfail := !ok }

end Sys2Proof.Machine
end

