-- ==== Sys2Proof/Machine/Ops.lean ====
section
/-! DEFINITION. The named operations on the state that every meaning is written over: framebuffer bytes and pixels,
register writes, bus transactions, the command port, the Illegal exception and reset. -/

namespace Sys2Proof.Machine

/-! Framebuffer storage. -/

/-- The byte stored for offset `a`; none where nothing has been written since reset. -/
def memGet? (a : Nat) : Memory → Option Byte
  | [] => none
  | (k, v) :: m => if k = a then some v else memGet? a m

/-- Store `v` at offset `a`, keeping the offsets strictly rising. -/
def memSet (a : Nat) (v : Byte) : Memory → Memory
  | [] => [(a, v)]
  | (k, w) :: m =>
    if a < k then (a, v) :: (k, w) :: m
    else if a = k then (a, v) :: m
    else (k, w) :: memSet a v m

/-- Store `v` at every offset below `n` (the loop of R143, R144 and R220 in one pass). -/
def memFill (n : Nat) (v : Byte) (m : Memory) : Memory :=
  (List.range n).map (fun a => (a, v)) ++ m.filter fun cell => decide (n ≤ cell.1)

/-- The offsets strictly rise, all of them above `a`. -/
def memRisesFrom (a : Nat) : Memory → Bool
  | [] => true
  | (k, _) :: m => decide (a < k) && memRisesFrom k m

/-- The canonical form: offsets strictly rising. An unlisted offset has no stored byte (log entry 2), so no entry
can equal what an unlisted offset holds. -/
def Memory.wf : Memory → Bool
  | [] => true
  | (k, _) :: m => memRisesFrom k m

/-- `MemRead(o, 1)` (spec/00_scope.md R12). A byte nothing has written since reset is the free reset byte (R46). -/
def memRead (s : State) (o : Nat) : Byte := (memGet? o s.fb).getD (Config.resetByte s.resets o)

/-- `FB[a], ..., FB[e-1]` (spec/43_stream.md R242). -/
def readRange (s : State) (a e : Nat) : List Byte := (List.range' a (e - a)).map (memRead s)

/-! Register and framebuffer writes, one state field each. -/

/-- Replace the framebuffer storage. -/
def setFb (m : Memory) (s : State) : State := { s with fb := m }

/-- `CURX <- x` (R33). -/
def setCurx (x : Half) (s : State) : State := { s with curx := x }

/-- `CURX <- x; CURY <- y` (R190). -/
def setCursor (x y : Half) (s : State) : State := { s with curx := x, cury := y }

/-- `UCUR <- n` (R34). -/
def setUcur (n : Nat) (s : State) : State := { s with ucur := word32 n }

/-- `DSTATE <- d` (R36). -/
def setDstate (d : DState) (s : State) : State := { s with dstate := d }

/-- `INV <- b` (R37). -/
def setInv (b : Bool) (s : State) : State := { s with inv := b }

/-- `CONTRAST <- v` (R38). -/
def setContrast (v : Byte) (s : State) : State := { s with contrast := v }

/-- `RESULT <- w` (R41). -/
def setResult (w : Word) (s : State) : State := { s with result := w }

/-- `MemWrite(o, 1, v)` (R12). -/
def memWrite (o : Nat) (v : Byte) (s : State) : State := setFb (memSet o v s.fb) s

/-- `for o in 0..BUFSZ-1: MemWrite(o, 1, v)` (R143, R144, R220). -/
def fillAll (v : Byte) (s : State) : State := setFb (memFill (BUFSZ s.config) v s.fb) s

/-! Pixels. -/

/-- The point lies on the panel: `0 <= x < W` and `0 <= y < H` (spec/20_memory.md R71). -/
def onPanel (c : Config) (x y : Int) : Bool :=
  decide (0 ≤ x) && decide (x < c.W) && decide (0 ≤ y) && decide (y < c.H)

/-- `PixOfs(x, y) = (y / 8) * W + x` (R71). -/
def pixOfs (c : Config) (x y : Nat) : Nat := (y / 8) * c.W + x

/-- `1 << PixBit(y)`, `PixBit(y) = y mod 8` (R71). -/
def pixMask (y : Nat) : Byte := 1#8 <<< (y % 8)

/-- `Pixel(x, y)` (R71). -/
def pixel (s : State) (x y : Nat) : Bool := (memRead s (pixOfs s.config x y)).getLsbD (y % 8)

/-- A byte with the mask's bit set (`c = 1`) or cleared (`c = 0`) (spec/40_framebuffer.md R140). -/
def paint (c : Bool) (mask b : Byte) : Byte := if c then b ||| mask else b &&& ~~~mask

/-- `SetPixel(x, y, c)` (R140): a point off the panel is a silent no-op. -/
def setPixel (c : Bool) (s : State) (p : Int × Int) : State :=
  if onPanel s.config p.1 p.2 then
    memWrite (pixOfs s.config p.1.toNat p.2.toNat)
      (paint c (pixMask p.2.toNat) (memRead s (pixOfs s.config p.1.toNat p.2.toNat))) s
  else s

/-- `SetPixel` at every point of a list, in order: every drawing rule plots only so (R140). -/
def plot (c : Bool) (pts : List (Int × Int)) (s : State) : State := pts.foldl (setPixel c) s

/-! The bus port. -/

/-- The adapter's answer to the next transaction (R14): the next answer given from outside, or a free draw. -/
def nextAnswer (s : State) : Bool :=
  match s.answers with
  | a :: _ => a
  | [] => Config.adapterAnswer s.draws

/-- The answer to the next transaction has been taken. -/
def takeAnswer (s : State) : State :=
  match s.answers with
  | _ :: rest => { s with answers := rest }
  | [] => { s with draws := s.draws + 1 }

/-- The trace grows by one record (R14). -/
def logTx (r : BusRecord) (s : State) : State := { s with busTrace := s.busTrace ++ [r] }

/-- One bus transaction, `BusCmd` or `BusData` (R13): issued, answered, recorded. -/
def busTx (t : BusTx) (s : State) : Bool × State :=
  (nextAnswer s, logTx { tx := t, ok := nextAnswer s } (takeAnswer s))

/-- `BusSeq(ts)` (R13): the transactions in order, none after a failure. -/
def busSeq : List BusTx → State → Bool × State
  | [], s => (true, s)
  | t :: ts, s => if (busTx t s).1 then busSeq ts (busTx t s).2 else (false, (busTx t s).2)

/-! The command port (spec/30_encoding.md R101). -/

/-- The words the decoder sees: those in the assembly buffer, then those arriving. -/
def portWords (s : State) : List Word := s.asm ++ s.port

/-- Fetching: what the words taken and arriving amount to. -/
def fetch (s : State) : DecodeResult := decodeWords (portWords s)

/-- The command's words have been taken and the buffer emptied; `rest` are still to come (R101). -/
def takeCommand (rest : List Word) (s : State) : State := { s with asm := [], port := rest }

/-- An incomplete command: the arriving words go to the assembly buffer and the port holds (R101). -/
def holdWords (s : State) : State := { s with asm := portWords s, port := [] }

/-- `raise Illegal(cause, word)` (spec/00_scope.md R15, spec/60_exceptions.md R281): ILL, ILLCAUSE and RESULT are
written, nothing else changes, and the FBC is halted. -/
def raiseIllegal (cause : IllCause) (word : Word) (s : State) : State :=
  { s with ill := true, illcause := illCauseCode cause, result := word }

/-! What the host can do besides reading RESULT and STATUS. -/

/-- The host writes words to the command port; a halted FBC accepts none (R101, R281). -/
def hostWrite (ws : List Word) (s : State) : State := if s.ill then s else { s with port := s.port ++ ws }

/-- Reset asserted by the platform (spec/70_reset_and_hazards.md R310): every piece of state to its reset value, the
framebuffer a fresh draw, a partial command discarded, the halt left; no transaction is issued and the configuration
is unchanged. Words the port has not taken are the host's and stay (log entry 8). There is no return-from-exception
command: this is the only way out of the halt (R281, R287). -/
def platformReset (s : State) : State :=
  { State.resetWith s.config with
    port := s.port, busTrace := s.busTrace, answers := s.answers, draws := s.draws, resets := s.resets + 1 }

end Sys2Proof.Machine
end

