-- ==== Sys2Proof/Machine/Stream.lean ====
section
/-! DEFINITION. The streaming engine: the page/column address sequencer and the update commands
(spec/43_stream.md). -/

namespace Sys2Proof.Machine

/-- `t = min(e, (p + 1) * W)`: the end of the segment that starts at offset `a` (R242). -/
def segmentEnd (c : Config) (a e : Nat) : Nat := min e ((a / c.W + 1) * c.W)

/-- One segment's transactions: the address bytes `ADDRSEQ(p, col + XOFF)`, then one `Data` (R242). -/
def segmentTxs (s : State) (a e : Nat) : List BusTx :=
  (addrSeq s.config (a / s.config.W) (a % s.config.W + s.config.XOFF)).map BusTx.cmd ++
    [.data (readRange s a (segmentEnd s.config a e))]

/-- The transactions of `SendRange(a, e)` with every answer success, in at most `n` segments (R242). -/
def rangeTxs (s : State) : Nat → Nat → Nat → List BusTx
  | 0, _, _ => []
  | n + 1, a, e => if a < e then segmentTxs s a e ++ rangeTxs s n (segmentEnd s.config a e) e else []

/-- `SendRange(a, e)` (R242): the transactions in order, none after the first failure. The framebuffer does not
change while they are issued (spec/20_memory.md R81), so reading it first is the same (log entry 10). -/
def sendRange (a e : Nat) (s : State) : Bool × State := busSeq (rangeTxs s (e - a) a e) s

/-- UPDATE (R249). -/
def execUpdate (s : State) : Host.Outcome State Fault Refusal :=
  let r := sendRange 0 (BUFSZ s.config) s
  .next (endBusCommand r.1 (okResult r.1) (if r.1 then setUcur 0 r.2 else r.2))

/-- `e = a + min(BPO, BUFSZ - a)`: the end of TICK's chunk (R252). -/
def tickEnd (s : State) : Nat := s.ucur.toNat + min (BPO s.config) (BUFSZ s.config - s.ucur.toNat)

/-- TICK (R252). -/
def execTick (s : State) : Host.Outcome State Fault Refusal :=
  let e := tickEnd s
  let r := sendRange s.ucur.toNat e s
  let last := decide (e = BUFSZ s.config)
  .next (endBusCommand r.1 (pairResult (r.1 && last) r.1)
    (if r.1 then setUcur (if last then 0 else e) r.2 else r.2))

/-- The range of chunk `k`, `[k*BPO, min((k+1)*BPO, BUFSZ))`, sent; an index past the end sends nothing (R256). -/
def sendChunk (k : Nat) (s : State) : Bool × State :=
  if k * BPO s.config ≥ BUFSZ s.config then (true, s)
  else sendRange (k * BPO s.config) (min (k * BPO s.config + BPO s.config) (BUFSZ s.config)) s

/-- UPDCHUNK (R256). -/
def execUpdchunk (k : Word) (s : State) : Host.Outcome State Fault Refusal :=
  let r := sendChunk k.toNat s
  .next (endBusCommand r.1 (pairResult (decide (k.toNat + 1 < TOTAL s.config)) r.1) r.2)

/-- GETCHUNKS (R258). -/
def execGetchunks (s : State) : Host.Outcome State Fault Refusal := .next (setResult (word32 (TOTAL s.config)) s)

/-- GETUCUR (R259). -/
def execGetucur (s : State) : Host.Outcome State Fault Refusal := .next (setResult s.ucur s)

end Sys2Proof.Machine
end

