-- ==== Sys2Proof/Machine/Control.lean ====
section
/-! DEFINITION. Meanings of the display-control commands (spec/42_control.md). A transport failure is a status: every
command completes its failure branch (R212). -/

namespace Sys2Proof.Machine

/-- INIT after `INITSEQ` was sent without failure: the full clear, then the full update (R220). -/
def clearAndSend (s : State) : Bool × State := sendRange 0 (BUFSZ s.config) (fillAll 0x00 s)

/-- The transport part of INIT (R220). -/
def initTransfer (s : State) : Bool × State :=
  let r := busSeq (s.config.INITSEQ.map BusTx.cmd) s
  if r.1 then clearAndSend r.2 else r

/-- The registers a successful INIT writes (R220). -/
def initDone (s : State) : State :=
  setContrast s.config.CONTRAST_INIT (setInv s.config.INVERT_INIT (setDstate .active (setUcur 0 s)))

/-- INIT (R220). -/
def execInit (s : State) : Host.Outcome State Fault Refusal :=
  let r := initTransfer s
  .next (endBusCommand r.1 (okResult r.1) (if r.1 then initDone r.2 else setDstate .uninit r.2))

/-- DISPON (R222). -/
def execDispon (s : State) : Host.Outcome State Fault Refusal :=
  let r := busTx (.cmd s.config.CMD_ON) s
  .next (endBusCommand r.1 (okResult r.1) (if r.1 then setDstate (displayState s.dstate .active) r.2 else r.2))

/-- DISPOFF (R223). -/
def execDispoff (s : State) : Host.Outcome State Fault Refusal :=
  let r := busTx (.cmd s.config.CMD_OFF) s
  .next (endBusCommand r.1 (okResult r.1) (if r.1 then setDstate (displayState s.dstate .off) r.2 else r.2))

/-- TOGINV (R224). -/
def execToginv (s : State) : Host.Outcome State Fault Refusal :=
  let r := busTx (.cmd (if !s.inv then s.config.CMD_INVERSE else s.config.CMD_NORMAL)) s
  .next (endBusCommand r.1 (okResult r.1) (if r.1 then setInv (!s.inv) r.2 else r.2))

/-- SETBRIGHT (R225): paired command writes. -/
def execSetbright (v : Byte) (s : State) : Host.Outcome State Fault Refusal :=
  let r := busSeq [.cmd s.config.CMD_CONTRAST, .cmd v] s
  .next (endBusCommand r.1 (okResult r.1) (if r.1 then setContrast v r.2 else r.2))

end Sys2Proof.Machine
end

