-- ==== Sys2Proof/Machine/Raster.lean ====
section
/-! DEFINITION. The rasterizer's walks as lists of points in plotting order, all in ℤ (spec/40_framebuffer.md
R150-R171, spec/41_text.md R187). A walk's bound on its steps is a structural counter; that it suffices is log
entry 11. -/

namespace Sys2Proof.Machine

/-- The integers `a, a+1, ..., b`; none if `b < a`. -/
def intRange (a b : Int) : List Int := (List.range (b + 1 - a).toNat).map fun (k : Nat) => a + (k : Int)

/-- The loop of `PlotLine` (R150), at most `n` points. -/
def lineWalk (x1 y1 dx dy sx sy : Int) : Nat → Int → Int → Int → List (Int × Int)
  | 0, _, _, _ => []
  | n + 1, x0, y0, err =>
    (x0, y0) ::
      if x0 = x1 ∧ y0 = y1 then []
      else
        lineWalk x1 y1 dx dy sx sy n
          (if 2 * err ≥ dy then x0 + sx else x0)
          (if 2 * err ≤ dx then y0 + sy else y0)
          (err + (if 2 * err ≥ dy then dy else 0) + (if 2 * err ≤ dx then dx else 0))

/-- The points `PlotLine(x0, y0, x1, y1)` plots, in order (R150). -/
def linePoints (x0 y0 x1 y1 : Int) : List (Int × Int) :=
  let dx := |x1 - x0|
  let dy := -|y1 - y0|
  lineWalk x1 y1 dx dy (if x0 < x1 then 1 else -1) (if y0 < y1 then 1 else -1)
    ((max dx (-dy)).toNat + 1) x0 y0 (dx + dy)

/-- The outline of RECT as four lines, in order (R155). -/
def rectPoints (x1 y1 x2 y2 : Int) : List (Int × Int) :=
  linePoints x1 y1 x2 y1 ++ linePoints x2 y1 x2 y2 ++ linePoints x2 y2 x1 y2 ++ linePoints x1 y2 x1 y1

/-- FILLRECT's rows, top to bottom (R156). -/
def fillRectPoints (x1 y1 x2 y2 : Int) : List (Int × Int) :=
  (intRange (min y1 y2) (max y1 y2)).flatMap fun y => linePoints (min x1 x2) y (max x1 x2) y

/-- The loop of `CircleSteps` (R160), at most `n` steps. -/
def circleWalk : Nat → Int → Int → Int → List (Int × Int)
  | 0, _, _, _ => []
  | n + 1, x, y, d =>
    if x ≥ y then
      (x, y) ::
        if d < 0 then circleWalk n x (y + 1) (d + 2 * (y + 1) + 1)
        else circleWalk n (x - 1) (y + 1) (d + 2 * ((y + 1) - (x - 1)) + 1)
    else []

/-- `CircleSteps(r)` (R160); nothing for a negative radius. -/
def circleSteps (r : Int) : List (Int × Int) := if r < 0 then [] else circleWalk (r.toNat + 1) r 0 (1 - r)

/-- CIRCLE's eight symmetric points of one step, in order (R161). -/
def circleOctants (cx cy : Int) (p : Int × Int) : List (Int × Int) :=
  [(cx + p.1, cy + p.2), (cx - p.1, cy + p.2), (cx + p.1, cy - p.2), (cx - p.1, cy - p.2),
   (cx + p.2, cy + p.1), (cx - p.2, cy + p.1), (cx + p.2, cy - p.1), (cx - p.2, cy - p.1)]

/-- The points CIRCLE plots, in order (R161). -/
def circlePoints (cx cy r : Int) : List (Int × Int) := (circleSteps r).flatMap (circleOctants cx cy)

/-- `VSpan(x, ya, yb)` (R162). -/
def vspan (x ya yb : Int) : List (Int × Int) := (intRange ya yb).map fun y => (x, y)

/-- FILLCIRCLE's four spans of one step, in order (R162). -/
def circleSpans (cx cy : Int) (p : Int × Int) : List (Int × Int) :=
  vspan (cx + p.1) (cy - p.2) (cy + p.2) ++ vspan (cx - p.1) (cy - p.2) (cy + p.2) ++
    vspan (cx + p.2) (cy - p.1) (cy + p.1) ++ vspan (cx - p.2) (cy - p.1) (cy + p.1)

/-- The points FILLCIRCLE plots, in order (R162). -/
def fillCirclePoints (cx cy r : Int) : List (Int × Int) := (circleSteps r).flatMap (circleSpans cx cy)

/-- Bit `7 - (i mod 8)` of byte `D[j * bpr + i / 8]`: pixel `(i, j)` of a bitmap (R170). -/
def bitmapBit (bpr : Nat) (d : List Byte) (i j : Nat) : Bool := (d.getD (j * bpr + i / 8) 0).getLsbD (7 - i % 8)

/-- The points BITMAP plots, row by row (R171): the set source bits only. -/
def bitmapPoints (x y : Int) (w h : Half) (d : List Byte) : List (Int × Int) :=
  (List.range (uint16 h)).flatMap fun j =>
    ((List.range (uint16 w)).filter fun i => bitmapBit (bytesPerRow w) d i j).map fun (i : Nat) => (x + (i : Int), y + (j : Int))

/-- Column `i` of row `r` of a glyph is foreground: bit `15 - i` of `ROW[g][r]` (R180). -/
def glyphBit (g : Glyph) (i r : Nat) : Bool := (g.ROW.getD r 0).getLsbD (15 - i)

/-- The points `DrawGlyph` plots for glyph `g` of a font of height `fh` with the cursor at `(x, y)` (R187). -/
def glyphPoints (fh : Nat) (g : Glyph) (x y : Int) : List (Int × Int) :=
  (List.range fh).flatMap fun r =>
    ((List.range g.GW).filter fun i => glyphBit g i r).map fun (i : Nat) =>
      (x + (i : Int), y + g.YOFF.toInt + (r : Int))

end Sys2Proof.Machine
end

