-- ==== Sys2Proof/Machine/Framebuffer.lean ====
section
/-! DEFINITION. Meanings of the framebuffer and drawing commands (spec/40_framebuffer.md). None issues a transaction,
writes a STATUS field or raises anything while it executes. -/

namespace Sys2Proof.Machine

/-- FILL (R143). -/
def execFill (c : Bool) (s : State) : Host.Outcome State Fault Refusal := .next (fillAll (if c then 0xFF else 0x00) s)

/-- CLEAR (R144). -/
def execClear (s : State) : Host.Outcome State Fault Refusal := .next (fillAll 0x00 s)

/-- RDFB (R145): an offset past the framebuffer reads 0. -/
def execRdfb (ofs : Word) (s : State) : Host.Outcome State Fault Refusal :=
  .next (setResult (if ofs.toNat < BUFSZ s.config then zext32 (memRead s ofs.toNat) else 0) s)

/-- WRFB (R146): an offset past the framebuffer writes nothing. -/
def execWrfb (v : Byte) (ofs : Word) (s : State) : Host.Outcome State Fault Refusal :=
  .next (if ofs.toNat < BUFSZ s.config then memWrite ofs.toNat v s else s)

/-- PIXEL (R141). -/
def execPixel (c : Bool) (x y : Half) (s : State) : Host.Outcome State Fault Refusal :=
  .next (plot c [(sint16 x, sint16 y)] s)

/-- LINE (R150). -/
def execLine (c : Bool) (x0 y0 x1 y1 : Half) (s : State) : Host.Outcome State Fault Refusal :=
  .next (plot c (linePoints (sint16 x0) (sint16 y0) (sint16 x1) (sint16 y1)) s)

/-- RECT (R155). -/
def execRect (c : Bool) (x1 y1 x2 y2 : Half) (s : State) : Host.Outcome State Fault Refusal :=
  .next (plot c (rectPoints (sint16 x1) (sint16 y1) (sint16 x2) (sint16 y2)) s)

/-- FILLRECT (R156). -/
def execFillrect (c : Bool) (x1 y1 x2 y2 : Half) (s : State) : Host.Outcome State Fault Refusal :=
  .next (plot c (fillRectPoints (sint16 x1) (sint16 y1) (sint16 x2) (sint16 y2)) s)

/-- CIRCLE (R161). -/
def execCircle (c : Bool) (cx cy r : Half) (s : State) : Host.Outcome State Fault Refusal :=
  .next (plot c (circlePoints (sint16 cx) (sint16 cy) (sint16 r)) s)

/-- FILLCIRCLE (R162). -/
def execFillcircle (c : Bool) (cx cy r : Half) (s : State) : Host.Outcome State Fault Refusal :=
  .next (plot c (fillCirclePoints (sint16 cx) (sint16 cy) (sint16 r)) s)

/-- BITMAP (R171). -/
def execBitmap (c : Bool) (x y w h : Half) (d : List Byte) (s : State) : Host.Outcome State Fault Refusal :=
  .next (plot c (bitmapPoints (sint16 x) (sint16 y) w h d) s)

end Sys2Proof.Machine
end

