-- ==== Sys2Proof/Machine/Text.lean ====
section
/-! DEFINITION. Meanings of the text commands (spec/41_text.md). -/

namespace Sys2Proof.Machine

/-- `DrawGlyph(ch, c)` (R187): foreground only, at the cursor, clipped per pixel (R186). -/
def drawGlyph (c : Bool) (ch : Byte) (s : State) : State :=
  plot c (glyphPoints s.config.FONT.FH (charGlyph s.config.FONT ch) (sint16 s.curx) (uint16 s.cury)) s

/-- `CURX <- wrap16(CURX + GW[G(ch)] + SP)` (R188). -/
def advanceCursor (ch : Byte) (s : State) : State :=
  setCurx (wrap16 (sint16 s.curx + charAdvance s.config.FONT ch)) s

/-- One valid character drawn and the cursor advanced (R192, R193). -/
def putChar (c : Bool) (ch : Byte) (s : State) : State := advanceCursor ch (drawGlyph c ch s)

/-- The loop of WRSTR (R193): the characters before the first invalid code, each drawn and advanced over. -/
def putString (c : Bool) : List Byte → State → State
  | [], s => s
  | ch :: rest, s => if validChar ch then putString c rest (putChar c ch s) else s

/-- The loop's `k` (R193, R196): how many characters stand before the first invalid code. -/
def validCount : List Byte → Nat
  | [] => 0
  | ch :: rest => if validChar ch then validCount rest + 1 else 0

/-- The loop's `w` of STRWIDTH (R196): the advances of the characters before the first invalid code. -/
def widthSum (f : Font) : List Byte → Nat
  | [] => 0
  | ch :: rest => if validChar ch then charAdvance f ch + widthSum f rest else 0

/-- The width STRWIDTH returns (R196): one trailing spacing less, 0 for no character. -/
def stringWidth (f : Font) (str : List Byte) : Nat := if validCount str = 0 then 0 else widthSum f str - f.SP

/-- SETCURSOR (R190). -/
def execSetcursor (x y : Half) (s : State) : Host.Outcome State Fault Refusal := .next (setCursor x y s)

/-- GETCURSOR (R191). -/
def execGetcursor (s : State) : Host.Outcome State Fault Refusal := .next (setResult (s.cury ++ s.curx) s)

/-- WRCHAR (R192): an invalid code is rejected with RESULT 0. -/
def execWrchar (c : Bool) (ch : Byte) (s : State) : Host.Outcome State Fault Refusal :=
  .next (if validChar ch then setResult 1 (putChar c ch s) else setResult 0 s)

/-- WRSTR (R193). -/
def execWrstr (c : Bool) (str : List Byte) (s : State) : Host.Outcome State Fault Refusal :=
  .next (setResult (word32 (validCount str)) (putString c str s))

/-- WRSTRAT (R194): the cursor is positioned first, then as WRSTR. -/
def execWrstrat (c : Bool) (x y : Half) (str : List Byte) (s : State) : Host.Outcome State Fault Refusal :=
  .next (setResult (word32 (validCount str)) (putString c str (setCursor x y s)))

/-- STRWIDTH (R196). -/
def execStrwidth (str : List Byte) (s : State) : Host.Outcome State Fault Refusal :=
  .next (setResult (word32 (stringWidth s.config.FONT str)) s)

end Sys2Proof.Machine
end

