-- ==== Sys2Proof/Machine/Dispatch.lean ====
section
/-! DEFINITION. The meaning of each command, one arm per constructor. -/

namespace Sys2Proof.Machine

def exec (i : Instr) (s : State) : Host.Outcome State Fault Refusal :=
  match i with
  | .init => Sys2Proof.Machine.execInit s
  | .fill c => Sys2Proof.Machine.execFill c s
  | .clear => Sys2Proof.Machine.execClear s
  | .update => Sys2Proof.Machine.execUpdate s
  | .updchunk k => Sys2Proof.Machine.execUpdchunk k s
  | .tick => Sys2Proof.Machine.execTick s
  | .getchunks => Sys2Proof.Machine.execGetchunks s
  | .getucur => Sys2Proof.Machine.execGetucur s
  | .dispon => Sys2Proof.Machine.execDispon s
  | .dispoff => Sys2Proof.Machine.execDispoff s
  | .toginv => Sys2Proof.Machine.execToginv s
  | .setbright v => Sys2Proof.Machine.execSetbright v s
  | .pixel c x y => Sys2Proof.Machine.execPixel c x y s
  | .line c x0 y0 x1 y1 => Sys2Proof.Machine.execLine c x0 y0 x1 y1 s
  | .rect c x1 y1 x2 y2 => Sys2Proof.Machine.execRect c x1 y1 x2 y2 s
  | .fillrect c x1 y1 x2 y2 => Sys2Proof.Machine.execFillrect c x1 y1 x2 y2 s
  | .circle c cx cy r => Sys2Proof.Machine.execCircle c cx cy r s
  | .fillcircle c cx cy r => Sys2Proof.Machine.execFillcircle c cx cy r s
  | .bitmap c x y w h d => Sys2Proof.Machine.execBitmap c x y w h d s
  | .setcursor x y => Sys2Proof.Machine.execSetcursor x y s
  | .getcursor => Sys2Proof.Machine.execGetcursor s
  | .wrchar c ch => Sys2Proof.Machine.execWrchar c ch s
  | .wrstr c str => Sys2Proof.Machine.execWrstr c str s
  | .wrstrat c x y str => Sys2Proof.Machine.execWrstrat c x y str s
  | .strwidth str => Sys2Proof.Machine.execStrwidth str s
  | .rdfb ofs => Sys2Proof.Machine.execRdfb ofs s
  | .wrfb v ofs => Sys2Proof.Machine.execWrfb v ofs s

end Sys2Proof.Machine
end

