-- ==== Sys2Proof/Machine/Step.lean ====
section
/-! DEFINITION. One step of the FBC: the next complete command from the command port, executed to its end
(spec/00_scope.md R16, spec/30_encoding.md R101). -/

namespace Sys2Proof.Machine

/-- No command is complete: the words that have arrived are held, or, with none left to take, the run ends (R17: the
stream is consumed, or it stopped inside a command). -/
def waitForWords (s : State) : Host.Outcome State Fault Refusal :=
  match s.port with
  | _ :: _ => .next (holdWords s)
  | [] => .refused (if s.asm.isEmpty then .streamConsumed else .partialCommand)

/-- One step. A configuration outside R9 has no machine; a halted FBC executes nothing (R281); an illegal word
raises Illegal (R120); a complete command runs (R16); an incomplete one holds the port (R101). -/
def step (s : State) : Host.Outcome State Fault Refusal :=
  if configWf s.config then
    if s.ill then .fault .halted
    else
      match fetch s with
      | .complete i rest => exec i (takeCommand rest s)
      | .illegal cause word rest => .next (raiseIllegal cause word (takeCommand rest s))
      | .incomplete => waitForWords s
  else .refused .configNotWellFormed

/-- `s` with the words of one opcode-table row's instruction as the host's word stream, the assembly buffer empty and
the halt, if any, lifted, so that the next step takes exactly that instruction (log entry 9). -/
def State.withFetchWord (s : State) (nbits w : Nat) : State :=
  { s with asm := [], port := tableWords nbits w, ill := false, illcause := 0 }

end Sys2Proof.Machine
end

