-- ==== Sys2Proof/Safety.lean ====
section
/-! DEFINITION. The terms claims are stated in: the invariant of a state, runs of several commands, what a run shows on
the bus, and the classes of commands the spec's whole-machine rules name. Nothing here is used by `step`. -/

namespace Sys2Proof.Machine

/-! The invariant and runs. -/

/-- What holds of every state a run reaches (the rules each part rests on are named). -/
structure State.Invariant (s : State) : Prop where
  /-- The configuration is well formed (spec/00_scope.md R9). -/
  config : configWf s.config = true
  /-- The framebuffer store is in canonical form. -/
  canonical : Memory.wf s.fb = true
  /-- Every stored byte lies in the framebuffer (spec/20_memory.md R76, R78). -/
  bounded : ∀ cell ∈ s.fb, cell.1 < BUFSZ s.config
  /-- `0 <= UCUR < BUFSZ` (spec/10_state.md R34). -/
  ucurInRange : s.ucur.toNat < BUFSZ s.config
  /-- "UCUR is always a multiple of BPO" (spec/43_stream.md R252). -/
  ucurAligned : s.ucur.toNat % BPO s.config = 0
  /-- ILLCAUSE is 0 exactly while no exception has occurred (spec/60_exceptions.md R280). -/
  causeIffIll : s.illcause ≠ 0 ↔ s.ill = true
  /-- The assembly buffer holds the beginning of a command, or nothing (spec/10_state.md R45.1). -/
  asmPartial : decodeWords s.asm = .incomplete
  /-- A halted FBC holds no partial command. -/
  asmHalted : s.ill = true → s.asm = []

/-- A run that meets no fault, however long: the FBC is never found halted (spec/00_scope.md R17). -/
def State.NeverFaults (s : State) : Prop := ∀ (n : Nat) (f : Fault), Sys2Proof.core.run n s ≠ .fault f

/-- Commands executed one after another (spec/20_memory.md R80). -/
def execAll : List Instr → State → Host.Outcome State Fault Refusal
  | [], s => .next s
  | i :: is, s =>
    match exec i s with
    | .next t => execAll is t
    | .fault f => .fault f
    | .refused r => .refused r

/-! The bus trace. -/

/-- The adapter's answer to the `k`-th transaction from now: given from outside, or drawn (R14). -/
def answerAt (s : State) (k : Nat) : Bool :=
  (s.answers[k]?).getD (Config.adapterAnswer (s.draws + (k - s.answers.length)))

/-- What `BusSeq(ts)` puts in the trace when the answers are `ans k, ans (k+1), ...`: nothing after the first
failure (R13). -/
def issue (ans : Nat → Bool) : Nat → List BusTx → List BusRecord
  | _, [] => []
  | k, t :: ts => if ans k then { tx := t, ok := true } :: issue ans (k + 1) ts else [{ tx := t, ok := false }]

/-- The state after the transactions `recs`: the trace has grown by them and one answer was taken for each; nothing
else changes. -/
def afterBus (recs : List BusRecord) (s : State) : State :=
  { s with
    busTrace := s.busTrace ++ recs
    answers := s.answers.drop recs.length
    draws := s.draws + (recs.length - s.answers.length) }

/-- Every transaction of a list was answered with success. -/
def allOk (recs : List BusRecord) : Bool := recs.all fun r => r.ok

/-- The concatenation of all `Data` payloads, in order (spec/43_stream.md R243). -/
def dataBytes : List BusTx → List Byte
  | [] => []
  | .cmd _ :: ts => dataBytes ts
  | .data bs :: ts => bs ++ dataBytes ts

/-- The transactions of one page segment: the bytes `ADDRSEQ(p, col + XOFF)`, each a `Cmd`, then one `Data` with
framebuffer bytes `a .. t-1`, where `a = p*W + col` (spec/43_stream.md R242). -/
def pageSegment (s : State) (p col t : Nat) : List BusTx :=
  (addrSeq s.config p (col + s.config.XOFF)).map BusTx.cmd ++ [.data (readRange s (p * s.config.W + col) t)]

/-- The pages `0 .. PAGES-1` in order, each whole: the transactions of a full flush (spec/43_stream.md R249). -/
def allPages (s : State) : List BusTx :=
  (List.range (PAGES s.config)).flatMap fun p => pageSegment s p 0 ((p + 1) * s.config.W)

/-! Classes of commands. -/

/-- The bus-class commands (spec/10_state.md R39). -/
def busClass : Instr → Bool
  | .init | .update | .updchunk _ | .tick | .dispon | .dispoff | .toginv | .setbright _ => true
  | .fill _ | .clear | .getchunks | .getucur | .pixel _ _ _ | .line _ _ _ _ _ | .rect _ _ _ _ _
  | .fillrect _ _ _ _ _ | .circle _ _ _ _ | .fillcircle _ _ _ _ | .bitmap _ _ _ _ _ _ | .setcursor _ _
  | .getcursor | .wrchar _ _ | .wrstr _ _ | .wrstrat _ _ _ _ | .strwidth _ | .rdfb _ | .wrfb _ _ => false

/-- The commands R47 marks as writing FB. -/
def writesFb : Instr → Bool
  | .init | .fill _ | .clear | .pixel _ _ _ | .line _ _ _ _ _ | .rect _ _ _ _ _ | .fillrect _ _ _ _ _
  | .circle _ _ _ _ | .fillcircle _ _ _ _ | .bitmap _ _ _ _ _ _ | .wrchar _ _ | .wrstr _ _ | .wrstrat _ _ _ _
  | .wrfb _ _ => true
  | .update | .updchunk _ | .tick | .getchunks | .getucur | .dispon | .dispoff | .toginv | .setbright _
  | .setcursor _ _ | .getcursor | .strwidth _ | .rdfb _ => false

/-- The commands R41 and R47 mark as writing no RESULT. -/
def keepsResult : Instr → Bool
  | .fill _ | .clear | .pixel _ _ _ | .line _ _ _ _ _ | .rect _ _ _ _ _ | .fillrect _ _ _ _ _ | .circle _ _ _ _
  | .fillcircle _ _ _ _ | .bitmap _ _ _ _ _ _ | .setcursor _ _ | .wrfb _ _ => true
  | .init | .update | .updchunk _ | .tick | .getchunks | .getucur | .dispon | .dispoff | .toginv | .setbright _
  | .getcursor | .wrchar _ _ | .wrstr _ _ | .wrstrat _ _ _ _ | .strwidth _ | .rdfb _ => false

/-! What the words of a command are made of. -/

/-- The payload bytes of a command (spec/30_encoding.md R110). -/
def instrPayload : Instr → List Byte
  | .bitmap _ _ _ _ _ d => d
  | .wrstr _ str | .wrstrat _ _ _ str | .strwidth str => str
  | .init | .fill _ | .clear | .update | .updchunk _ | .tick | .getchunks | .getucur | .dispon | .dispoff | .toginv
  | .setbright _ | .pixel _ _ _ | .line _ _ _ _ _ | .rect _ _ _ _ _ | .fillrect _ _ _ _ _ | .circle _ _ _ _
  | .fillcircle _ _ _ _ | .setcursor _ _ | .getcursor | .wrchar _ _ | .rdfb _ | .wrfb _ _ => []

/-- The header and argument words of a command, without its payload (spec/30_encoding.md R100). -/
def instrHead (i : Instr) : List Word := (encode i).take ((encode i).length - payloadWords (instrPayload i).length)

/-- The words `ws` are the command `i`, whatever words follow them at the port. -/
def DecodesTo (ws : List Word) (i : Instr) : Prop := ∀ rest : List Word, decodeWords (ws ++ rest) = .complete i rest

/-- A header word's OP is one R120 lists as unassigned: `0x00`, `0x09`, `0x0E`, `0x0F`, `0x17`, `0x20`..`0xFF`. -/
def unassignedOp (h : Word) : Bool :=
  let op := (opField h).toNat
  op == 0x00 || op == 0x09 || op == 0x0E || op == 0x0F || op == 0x17 || decide (0x20 ≤ op)

/-- The match and mask of the header of each row of spec/opcode_table.json, in its order. -/
def headerRows : List (Word × Word) :=
  [(0x01000000, 0xFFFFFFFF), (0x02000000, 0xFFFFFFFE), (0x03000000, 0xFFFFFFFF), (0x04000000, 0xFFFFFFFF),
   (0x05000000, 0xFFFFFFFF), (0x06000000, 0xFFFFFFFF), (0x07000000, 0xFFFFFFFF), (0x08000000, 0xFFFFFFFF),
   (0x0A000000, 0xFFFFFFFF), (0x0B000000, 0xFFFFFFFF), (0x0C000000, 0xFFFFFFFF), (0x0D000000, 0xFFFF00FF),
   (0x10000000, 0xFFFFFFFE), (0x11000000, 0xFFFFFFFE), (0x12000000, 0xFFFFFFFE), (0x13000000, 0xFFFFFFFE)] ++
  [(0x14000000, 0xFFFFFFFE), (0x15000000, 0xFFFFFFFE), (0x16000000, 0xFFFFFFFE), (0x18000000, 0xFFFFFFFF),
   (0x19000000, 0xFFFFFFFF), (0x1A000000, 0xFFFF00FE), (0x1B000000, 0xFFFFFFFE), (0x1C000000, 0xFFFFFFFE),
   (0x1D000000, 0xFFFFFFFF), (0x1E000000, 0xFFFFFFFF), (0x1F000000, 0xFFFF00FF)]

/-- A header word matches a row of the table. -/
def matchesRow (h : Word) (row : Word × Word) : Bool := decide (h &&& row.2 = row.1)

end Sys2Proof.Machine
end

