-- ==== Sys2Proof/Certificates/Slice0/Obligations.lean ====
section
/-! DEFINITION. The statements about the model, one definition each. `s`, `t` are states, `c` a colour bit; a state
carries its configuration, so a statement about every state is about every configuration. -/

open Sys2Proof Sys2Proof.Machine

/-! ## Reset and the host's interface -/

/-- R46, R310: after reset every register has its value, STATUS reads 0, the port's buffer is empty, no transaction
has been issued, and every framebuffer byte is the unconstrained reset byte (a free value, log entry 2); for every
configuration. -/
def Obligations.ResetGivesEveryRegisterItsValue : Prop :=
  ∀ c : Config,
    let s := State.resetWith c
    s.curx = 0 ∧ s.cury = 0 ∧ s.ucur = 0 ∧ s.dstate = .uninit ∧ s.inv = false ∧ s.contrast = 0x00 ∧
      s.lastfail = false ∧ s.ill = false ∧ s.illcause = 0 ∧ s.result = 0x00000000 ∧ s.asm = [] ∧
      status s = 0x00000000 ∧ (∀ o, memRead s o = Config.resetByte s.resets o) ∧ s.config = c

/-- R310: a reset asserted in any state gives every register its reset value, discards a partial command, leaves the
halt, makes the framebuffer unspecified again, issues no transaction and leaves the configuration. The counter that
gives the framebuffer its new free value (log entry 2) and the trace, kept over a reset (log entry 4), are the model's
choices. -/
def Obligations.PlatformResetRestoresResetState : Prop :=
  ∀ s : State,
    let t := platformReset s
    t.curx = 0 ∧ t.cury = 0 ∧ t.ucur = 0 ∧ t.dstate = .uninit ∧ t.inv = false ∧ t.contrast = 0x00 ∧
      t.lastfail = false ∧ t.ill = false ∧ t.illcause = 0 ∧ t.result = 0 ∧ t.asm = [] ∧ status t = 0 ∧
      (∀ o, memRead t o = Config.resetByte (s.resets + 1) o) ∧ t.busTrace = s.busTrace ∧ t.config = s.config

/-- R35, R36: each field of STATUS stands at its bits, the reserved bits read 0, and DSTATE reads 0 for UNINIT, 1 for
ACTIVE, 2 for OFF and never 3. -/
def Obligations.StatusPortShowsEachField : Prop :=
  (dstateCode .uninit = 0 ∧ dstateCode .active = 1 ∧ dstateCode .off = 2) ∧
  ∀ s : State,
    (status s).extractLsb' 0 2 = dstateCode s.dstate ∧ dstateCode s.dstate ≠ 3 ∧
      (status s).getLsbD 2 = s.inv ∧ (status s).getLsbD 3 = s.lastfail ∧ (status s).getLsbD 4 = s.ill ∧
      (status s).extractLsb' 5 2 = s.illcause ∧ (status s).getLsbD 7 = false ∧
      (status s).extractLsb' 8 8 = s.contrast ∧ (status s).extractLsb' 16 16 = 0

/-- R9, R180: what a well-formed configuration is, condition by condition, and that there is no machine for any other:
`step` refuses it in every state. -/
def Obligations.WellFormedConfigurationConditions : Prop :=
  (∀ c : Config,
    configWf c = true ↔
      (1 ≤ c.W ∧ c.W ≤ 32767 ∧ 8 ≤ c.H ∧ c.H ≤ 32760 ∧ c.H % 8 = 0) ∧ c.XOFF ≤ 255 ∧
        (c.MINPOW ≤ c.MAXPOW ∧ c.MAXPOW ≤ 31) ∧
        (∀ p ca, p < c.H / 8 → c.XOFF ≤ ca → ca < c.XOFF + c.W → ∃ b bs, addrSeq? c p ca = some (b :: bs)) ∧
        (1 ≤ c.FONT.FH ∧ c.FONT.FH ≤ 255 ∧ c.FONT.SP ≤ 255 ∧ c.FONT.glyphs.length = 95 ∧
          ∀ g ∈ c.FONT.glyphs, g.GW ≤ 16 ∧ g.ROW.length = c.FONT.FH)) ∧
  ∀ s : State, configWf s.config = false → step s = .refused .configNotWellFormed

/-- R8, R240: the exponent is POW inside its range and the nearer end outside it, and TOTAL chunks of BPO bytes are
just enough for BUFSZ. -/
def Obligations.ChunksCoverTheFramebuffer : Prop :=
  ∀ c : Config, configWf c = true →
    c.MINPOW ≤ EPOW c ∧ EPOW c ≤ c.MAXPOW ∧ (c.MINPOW ≤ c.POW → c.POW ≤ c.MAXPOW → EPOW c = c.POW) ∧
      (c.POW < c.MINPOW → EPOW c = c.MINPOW) ∧ (c.MAXPOW < c.POW → EPOW c = c.MAXPOW) ∧
      BPO c = 2 ^ EPOW c ∧ BUFSZ c * 8 = c.W * c.H ∧ 1 ≤ TOTAL c ∧
      BUFSZ c ≤ TOTAL c * BPO c ∧ (TOTAL c - 1) * BPO c < BUFSZ c

/-! ## Encoding -/

/-- R100-R111: the words of every well-formed command decode to it, whatever follows them, and whatever the padding of
the last payload word is. The encoder's zero padding is the model's choice (log entry 14). -/
def Obligations.DecodeOfEncodeIsTheCommand : Prop :=
  ∀ (i : Instr) (rest : List Word), i.wf = true →
    decodeWords (encode i ++ rest) = .complete i rest ∧
      ∀ pay : List Word, pay.length = payloadWords (instrPayload i).length →
        payloadBytes (instrPayload i).length pay = instrPayload i →
        decodeWords (instrHead i ++ pay ++ rest) = .complete i rest

/-- R110, R112: what decodes to a command are exactly its header and argument words and as many payload words as its
bytes need, holding those bytes; only padding is free, and the length is the one R112's formula gives. That the
formula holds for BITMAP with `w = h = 65535` too, where the rule writes another number, is the model's choice (log
entry 23). -/
def Obligations.DecodedWordsAreTheCommandsWords : Prop :=
  ∀ (ws : List Word) (i : Instr) (rest : List Word), decodeWords ws = .complete i rest →
    i.wf = true ∧
      ∃ pay : List Word, ws = instrHead i ++ pay ++ rest ∧
        pay.length = ((instrPayload i).length + 3) / 4 ∧
        payloadBytes (instrPayload i).length pay = instrPayload i ∧
        commandLength ws = some (instrHead i ++ pay).length

/-- R101, R120: a command and an illegal word are recognised from the words up to them; later words change nothing. -/
def Obligations.LaterWordsDoNotChangeTheDecoding : Prop :=
  ∀ (ws more : List Word),
    (∀ i rest, decodeWords ws = .complete i rest → decodeWords (ws ++ more) = .complete i (rest ++ more)) ∧
      (∀ cause w rest, decodeWords ws = .illegal cause w rest →
        decodeWords (ws ++ more) = .illegal cause w (rest ++ more))

/-- R114: a header word matches exactly one row of the opcode table, or it is illegal, and never both. -/
def Obligations.HeaderMatchesOneRowOrIsIllegal : Prop :=
  ∀ (h : Word) (ws : List Word),
    ((headerRows.filter (matchesRow h)).length = 1 ∧ ∀ cause, cause ≠ .argReserved →
        ∀ w rest, decodeWords (h :: ws) ≠ .illegal cause w rest) ∨
      (headerRows.filter (matchesRow h) = [] ∧ ∃ cause, cause ≠ .argReserved ∧
        decodeWords (h :: ws) = .illegal cause h ws)

/-- R120: the checks in order (opcode, reserved header bits, R and LEN words), what each raises, with which code of R280
and which word, that nothing else is illegal, and that a running FBC is then halted with nothing changed but STATUS and
RESULT. -/
def Obligations.IllegalEncodingsAndTheirCauses : Prop :=
  (illCauseCode .unassignedOp = 1 ∧ illCauseCode .headerReserved = 2 ∧ illCauseCode .argReserved = 3) ∧
    (∀ (h : Word) (ws : List Word), unassignedOp h = true → decodeWords (h :: ws) = .illegal .unassignedOp h ws) ∧
    (∀ (h : Word) (ws : List Word), unassignedOp h = false → headerRows.filter (matchesRow h) = [] →
      decodeWords (h :: ws) = .illegal .headerReserved h ws) ∧
    (∀ (h a : Word) (ws : List Word), headerRows.filter (matchesRow h) ≠ [] → hiHalf a ≠ 0 →
      ((opField h = 0x1B ∨ opField h = 0x1D) → decodeWords (h :: a :: ws) = .illegal .argReserved a ws) ∧
        ∀ p : Word, (opField h = 0x14 ∨ opField h = 0x15 ∨ opField h = 0x1C) →
          decodeWords (h :: p :: a :: ws) = .illegal .argReserved a ws) ∧
    (∀ (ws : List Word) cause w rest, decodeWords ws = .illegal cause w rest →
      (∃ h, ws = h :: rest ∧ w = h ∧ headerRows.filter (matchesRow h) = [] ∧
          (cause = .unassignedOp ↔ unassignedOp h = true) ∧ (cause = .headerReserved ↔ unassignedOp h = false)) ∨
        (cause = .argReserved ∧ hiHalf w ≠ 0 ∧ ∃ h, headerRows.filter (matchesRow h) ≠ [] ∧
          ((ws = h :: w :: rest ∧ (opField h = 0x1B ∨ opField h = 0x1D)) ∨
            ∃ p, ws = h :: p :: w :: rest ∧ (opField h = 0x14 ∨ opField h = 0x15 ∨ opField h = 0x1C)))) ∧
    (∀ (s : State) cause w rest, configWf s.config = true → s.ill = false → fetch s = .illegal cause w rest →
      ∃ t, step s = .next t ∧
        t = { s with ill := true, illcause := illCauseCode cause, result := w, asm := t.asm, port := t.port })

/-- R117: the words of every one of the spec's examples decode to the command they stand for. -/
def Obligations.SpecExampleWordsDecode : Prop :=
  decodeWords [0x10000001, 0x00050005] = .complete (.pixel true 5 5) [] ∧
    decodeWords [0x11000001, 0x00000000, 0x0000000A] = .complete (.line true 0 0 10 0) [] ∧
    decodeWords [0x12000001, 0x00000000, 0x003F007F] = .complete (.rect true 0 0 127 63) [] ∧
    decodeWords [0x14000001, 0x000A000A, 0x0000FFFF] = .complete (.circle true 10 10 (-1)) [] ∧
    decodeWords [0x18000000, 0x0000FFFF] = .complete (.setcursor (-1) 0) [] ∧
    decodeWords [0x1A004101] = .complete (.wrchar true 0x41) [] ∧
    decodeWords [0x1B000001, 0x00000002, 0x00004241] = .complete (.wrstr true [0x41, 0x42]) [] ∧
    decodeWords [0x16000001, 0x00000000, 0x00020009, 0x00018080] =
      .complete (.bitmap true 0 0 9 2 [0x80, 0x80, 0x01, 0x00]) [] ∧
    decodeWords [0x0D00CF00] = .complete (.setbright 0xCF) [] ∧
    decodeWords [0x1F00A500, 0x00000003] = .complete (.wrfb 0xA5 3) [] ∧
    decodeWords [0x05000000, 0x00000002] = .complete (.updchunk 2) [] ∧
    decodeWords [0x02000000] = .complete (.fill false) []

/-- R11, R102-R109, R110: the bits at which the fields of a header and an argument word and the bytes of a payload
stand, the two readings of a 16-bit field, and the wrap to 16 bits. -/
def Obligations.FieldsStandAtTheirBits : Prop :=
  (∀ (op imm : Byte) (c : Bool),
    (headerWord op imm c).toNat = op.toNat * 2 ^ 24 + imm.toNat * 2 ^ 8 + (if c then 1 else 0)) ∧
  (∀ lo hi : Half, (argWord lo hi).toNat = hi.toNat * 2 ^ 16 + lo.toNat) ∧
  (∀ (n k : Nat) (ws : List Word), (n + 3) / 4 ≤ ws.length → k < n →
    ∃ a, ws[k / 4]? = some a ∧ (payloadBytes n ws)[k]? = some (a.extractLsb' (8 * (k % 4)) 8)) ∧
  (∀ h : Half, uint16 h = h.toNat ∧
    sint16 h = if h.toNat < 32768 then (h.toNat : Int) else (h.toNat : Int) - 65536) ∧
  (∀ v : Int, sint16 (wrap16 v) = (v + 32768) % 65536 - 32768)

/-! ## The step -/

/-- R16, R101: when the words at the port are a complete command, a step of a running FBC is that command's meaning,
the assembly buffer emptied and the words after the command still to come. -/
def Obligations.StepRunsTheDecodedCommand : Prop :=
  ∀ (s : State) (i : Instr) (rest : List Word), configWf s.config = true → s.ill = false →
    decodeWords (s.asm ++ s.port) = .complete i rest → step s = exec i { s with asm := [], port := rest }

/-- R281, R287, R101: a halted FBC executes nothing and accepts no words, whatever they are, and reset leaves the halt.
That words written while it is halted are dropped, and not kept for after a reset, is the model's reading of R281 and
R101 (log entry 20). -/
def Obligations.HaltedExecutesNothing : Prop :=
  ∀ s : State, configWf s.config = true → s.ill = true →
    step s = .fault .halted ∧ (∀ ws, hostWrite ws s = s) ∧ (platformReset s).ill = false ∧
      (platformReset s).illcause = 0

/-- R101, R326: a command whose words have not all arrived changes nothing but the buffer that holds them, and the
port holds; when more words come, the step is the one it would have been had they come at once. That taking the words
is a step of its own, and the refusals, are the model's choices (log entries 5 and 6). -/
def Obligations.PartialCommandHoldsThePort : Prop :=
  ∀ s : State, configWf s.config = true → s.ill = false → decodeWords (s.asm ++ s.port) = .incomplete →
    (s.port ≠ [] → step s = .next { s with asm := s.asm ++ s.port, port := [] } ∧
      ∀ more, more ≠ [] → step (hostWrite more { s with asm := s.asm ++ s.port, port := [] }) = step (hostWrite more s)) ∧
    (s.port = [] → s.asm ≠ [] → step s = .refused .partialCommand) ∧
    (s.port = [] → s.asm = [] → step s = .refused .streamConsumed)

/-- R280, R283: every command of the set completes in every state, whatever its operands, and raises no exception. -/
def Obligations.EveryCommandCompletes : Prop :=
  ∀ (i : Instr) (s : State), ∃ t, exec i s = .next t ∧ t.ill = s.ill ∧ t.illcause = s.illcause

/-- R80, R101: a stream of well-formed commands runs one command a step, in order, each once, to the end of the
stream, and meets no fault. The refusal that ends the run is the model's choice (log entry 6). -/
def Obligations.LegalStreamRunsInOrderToItsEnd : Prop :=
  ∀ (is : List Instr) (s : State), (∀ i ∈ is, i.wf = true) → configWf s.config = true → s.ill = false → s.asm = [] →
    s.port = is.flatMap encode →
    (∃ t, Sys2Proof.core.run is.length s = .next t ∧ execAll is { s with port := [] } = .next t ∧
      step t = .refused .streamConsumed) ∧ s.NeverFaults

/-! ## Whole-machine rules -/

/-- R9, R34, R252, R280, R45: every step from a state that meets the invariant gives one that meets it. The form of
the store and the empty buffer of a halted FBC are the model's (log entries 2 and 7). -/
def Obligations.EveryStepKeepsTheInvariant : Prop :=
  ∀ s t : State, s.Invariant → step s = .next t → t.Invariant

/-- The invariant holds after reset, for every well-formed configuration, and a reset or a write of the host keeps
it. -/
def Obligations.ResetMeetsTheInvariant : Prop :=
  (∀ c, configWf c = true → (State.resetWith c).Invariant) ∧ State.reset.Invariant ∧
    ∀ s : State, s.Invariant → (platformReset s).Invariant ∧ ∀ ws, (hostWrite ws s).Invariant

/-- R42, R43: no step writes the configuration or the font ROM. -/
def Obligations.ConfigurationIsConstant : Prop :=
  ∀ s t : State, step s = .next t → t.config = s.config ∧ t.config.FONT = s.config.FONT

/-- R210, R14, R39: only bus-class commands issue transactions, and only they write LASTFAIL; each transaction takes one
answer, in order, and is recorded with it; nothing recorded is lost; a `Data` transaction is never empty. A step that
runs no command, and a reset, issue none. The fields the answers come from, and that a reset keeps the trace, are the
model's choices (log entries 3 and 4). -/
def Obligations.OnlyBusCommandsIssueTransactions : Prop :=
  (∀ (i : Instr) (s t : State), exec i s = .next t →
    ∃ recs : List BusRecord, t.busTrace = s.busTrace ++ recs ∧
      recs.map (fun r => r.ok) = (List.range recs.length).map (answerAt s) ∧
      t.answers = s.answers.drop recs.length ∧ t.draws = s.draws + (recs.length - s.answers.length) ∧
      (busClass i = false → recs = [] ∧ t.lastfail = s.lastfail) ∧
      (configWf s.config = true → ∀ r ∈ recs, r.tx ≠ .data [])) ∧
  (∀ s t : State, step s = .next t → (∀ i rest, fetch s ≠ .complete i rest) → t.busTrace = s.busTrace) ∧
  (∀ s : State, (platformReset s).busTrace = s.busTrace)

/-- R212, R213, R284: a bus-class command issues nothing after the first failure, LASTFAIL and RESULT[0] say whether
one failed, and the FBC keeps running. -/
def Obligations.FailureStopsAndIsReported : Prop :=
  ∀ (i : Instr) (s : State), busClass i = true →
    ∃ t recs, exec i s = .next t ∧ t.busTrace = s.busTrace ++ recs ∧ (∀ r ∈ recs.dropLast, r.ok = true) ∧
      t.lastfail = !(allOk recs) ∧ t.result.getLsbD 0 = allOk recs ∧ t.ill = s.ill

/-- R36, R226: the only moves of the display state. -/
def Obligations.DisplayStateMoves : Prop :=
  ∀ (i : Instr) (s t : State), exec i s = .next t →
    (s.dstate = .uninit → t.dstate ≠ .off) ∧
      (s.dstate = .uninit → t.dstate = .active → i = .init ∧ t.lastfail = false) ∧
      (s.dstate ≠ .uninit → t.dstate = .uninit → i = .init ∧ t.lastfail = true) ∧
      (s.dstate = .active → t.dstate = .off → i = .dispoff ∧ t.lastfail = false) ∧
      (s.dstate = .off → t.dstate = .active → (i = .dispon ∨ i = .init) ∧ t.lastfail = false) ∧
      (i = .init → t.dstate = if t.lastfail then .uninit else .active)

/-- R36, R288: DSTATE gates no command: what a command does besides DSTATE is the same in every display state. -/
def Obligations.DisplayStateGatesNoCommand : Prop :=
  ∀ (i : Instr) (s t : State) (d : DState), exec i s = .next t →
    ∃ t', exec i (setDstate d s) = .next t' ∧ setDstate .uninit t' = setDstate .uninit t

/-- R47, R33, R34, R36-R38, R41: which registers each command leaves. -/
def Obligations.CommandsLeaveTheRegistersR47LeavesBlank : Prop :=
  ∀ (i : Instr) (s t : State), exec i s = .next t →
    (writesFb i = false → t.fb = s.fb) ∧
      (keepsResult i = true → t.result = s.result) ∧
      ((∀ x y, i ≠ .setcursor x y) → (∀ c x y str, i ≠ .wrstrat c x y str) → t.cury = s.cury) ∧
      ((∀ x y, i ≠ .setcursor x y) → (∀ c x y str, i ≠ .wrstrat c x y str) → (∀ c ch, i ≠ .wrchar c ch) →
        (∀ c str, i ≠ .wrstr c str) → t.curx = s.curx) ∧
      (i ≠ .init → i ≠ .update → i ≠ .tick → t.ucur = s.ucur) ∧
      (i ≠ .init → i ≠ .dispon → i ≠ .dispoff → t.dstate = s.dstate) ∧
      (i ≠ .init → i ≠ .toginv → t.inv = s.inv) ∧
      (i ≠ .init → (∀ v, i ≠ .setbright v) → t.contrast = s.contrast) ∧
      (busClass i = false → t.lastfail = s.lastfail) ∧
      t.ill = s.ill ∧ t.illcause = s.illcause ∧ t.config = s.config ∧ t.asm = s.asm ∧ t.port = s.port ∧
      t.resets = s.resets

/-! ## Framebuffer and drawing -/

/-- R71: bit `b` of the byte at offset `o` is pixel `(o mod W, 8*(o / W) + b)`, and every pixel of the panel is such a
bit. -/
def Obligations.FramebufferIsPageMajor : Prop :=
  ∀ s : State, configWf s.config = true →
    (∀ o b, o < BUFSZ s.config → b < 8 →
      (memRead s o).getLsbD b = pixel s (o % s.config.W) (8 * (o / s.config.W) + b) ∧ o % s.config.W < s.config.W ∧
        8 * (o / s.config.W) + b < s.config.H) ∧
    (∀ x y, x < s.config.W → y < s.config.H →
      pixOfs s.config x y < BUFSZ s.config ∧
        pixel s x y = (memRead s (y / 8 * s.config.W + x)).getLsbD (y % 8))

/-- R140, R141: PIXEL sets exactly the named pixel to the colour, changes no other byte, and nothing but the
framebuffer; off the panel it changes nothing at all. -/
def Obligations.PixelSetsOnePixel : Prop :=
  ∀ (c : Bool) (x y : Half) (s : State),
    DecodesTo [headerWord 0x10 0 c, argWord x y] (.pixel c x y) ∧
    ∃ t, exec (.pixel c x y) s = .next t ∧ t = { s with fb := t.fb } ∧
      (∀ px py, px < s.config.W → py < s.config.H →
        pixel t px py = if (px : Int) = sint16 x ∧ (py : Int) = sint16 y then c else pixel s px py) ∧
      (∀ o, ¬(onPanel s.config (sint16 x) (sint16 y) = true ∧
          o = pixOfs s.config (sint16 x).toNat (sint16 y).toNat) → memRead t o = memRead s o) ∧
      (onPanel s.config (sint16 x) (sint16 y) = false → t = s)

/-- R143, R144: FILL sets every framebuffer byte to 0xFF or 0x00 and nothing else; CLEAR is FILL 0. -/
def Obligations.FillSetsEveryByte : Prop :=
  ∀ (c : Bool) (s : State),
    DecodesTo [headerWord 0x02 0 c] (.fill c) ∧ DecodesTo [headerWord 0x03 0 false] .clear ∧
    ∃ t, exec (.fill c) s = .next t ∧ t = { s with fb := t.fb } ∧
      (∀ o, o < BUFSZ s.config → memRead t o = if c then 0xFF else 0x00) ∧
      (∀ o, BUFSZ s.config ≤ o → memRead t o = memRead s o) ∧
      exec .clear s = exec (.fill false) s

/-- R145: RDFB gives the byte at the offset, zero-extended, or 0 past the framebuffer; nothing but RESULT changes. -/
def Obligations.RdfbReadsOneByte : Prop :=
  ∀ (ofs : Word) (s : State),
    DecodesTo [headerWord 0x1E 0 false, ofs] (.rdfb ofs) ∧
    (ofs.toNat < BUFSZ s.config →
        exec (.rdfb ofs) s = .next { s with result := (memRead s ofs.toNat).setWidth 32 }) ∧
      (BUFSZ s.config ≤ ofs.toNat → exec (.rdfb ofs) s = .next { s with result := 0 })

/-- R146: WRFB sets the byte at the offset, and nothing past the framebuffer; RESULT is unchanged. -/
def Obligations.WrfbWritesOneByte : Prop :=
  ∀ (v : Byte) (ofs : Word) (s : State),
    DecodesTo [headerWord 0x1F v false, ofs] (.wrfb v ofs) ∧
    ∃ t, exec (.wrfb v ofs) s = .next t ∧ t = { s with fb := t.fb } ∧
      (∀ o, memRead t o = if o = ofs.toNat ∧ ofs.toNat < BUFSZ s.config then v else memRead s o) ∧
      (BUFSZ s.config ≤ ofs.toNat → t = s)

/-- R150, R151: the walk starts and ends at the endpoints, moves by at most 1 in each coordinate, plots
`max(|dx|, |dy|) + 1` points, each once, and a horizontal or vertical line is every point between its ends. -/
def Obligations.LineWalkLaws : Prop :=
  ∀ x0 y0 x1 y1 : Int,
    (linePoints x0 y0 x1 y1).head? = some (x0, y0) ∧ (linePoints x0 y0 x1 y1).getLast? = some (x1, y1) ∧
      (linePoints x0 y0 x1 y1).IsChain (fun p q => |q.1 - p.1| ≤ 1 ∧ |q.2 - p.2| ≤ 1) ∧
      (linePoints x0 y0 x1 y1).length = (max |x1 - x0| |y1 - y0|).toNat + 1 ∧ (linePoints x0 y0 x1 y1).Nodup ∧
      (y0 = y1 → ∀ x y, (x, y) ∈ linePoints x0 y0 x1 y1 ↔ y = y0 ∧ min x0 x1 ≤ x ∧ x ≤ max x0 x1) ∧
      (x0 = x1 → ∀ x y, (x, y) ∈ linePoints x0 y0 x1 y1 ↔ x = x0 ∧ min y0 y1 ≤ y ∧ y ≤ max y0 y1)

/-- The bounds the model puts on its walks never cut one short (log entry 11): with any larger bound the line and
circle walks give the same points. -/
def Obligations.WalkBoundsNeverCutShort : Prop :=
  (∀ (x0 y0 x1 y1 : Int) (n : Nat), (max |x1 - x0| |y1 - y0|).toNat + 1 ≤ n →
    lineWalk x1 y1 |x1 - x0| (-|y1 - y0|) (if x0 < x1 then 1 else -1) (if y0 < y1 then 1 else -1) n x0 y0
      (|x1 - x0| + -|y1 - y0|) = linePoints x0 y0 x1 y1) ∧
  (∀ (r : Int) (n : Nat), 0 ≤ r → r.toNat + 1 ≤ n → circleWalk n r 0 (1 - r) = circleSteps r)

/-- R150, R160: each walk takes exactly the steps of its rule's loop: where it starts, which of the coordinates move
after each point, and where it ends. The loop's running `err` and `d` are written as what they equal at each point, an
inference from the loops. -/
def Obligations.WalksTakeTheLoopsSteps : Prop :=
  (∀ x0 y0 x1 y1 : Int,
    (linePoints x0 y0 x1 y1).head? = some (x0, y0) ∧
      (linePoints x0 y0 x1 y1).IsChain (fun p q =>
        let err := |x1 - x0| * (1 + |p.2 - y0|) - |y1 - y0| * (1 + |p.1 - x0|)
        p ≠ (x1, y1) ∧
          q.1 = (if 2 * err ≥ -|y1 - y0| then p.1 + (if x0 < x1 then 1 else -1) else p.1) ∧
          q.2 = (if 2 * err ≤ |x1 - x0| then p.2 + (if y0 < y1 then 1 else -1) else p.2)) ∧
      (linePoints x0 y0 x1 y1).getLast? = some (x1, y1)) ∧
  (∀ r : Int, r < 0 → circleSteps r = []) ∧
  (∀ r : Int, 0 ≤ r →
    let next := fun p : Int × Int =>
      (if p.1 ^ 2 - p.1 + (p.2 + 1) ^ 2 - r ^ 2 < 0 then p.1 else p.1 - 1, p.2 + 1)
    (circleSteps r).head? = some (r, 0) ∧ (circleSteps r).IsChain (fun p q => q = next p) ∧
      (∀ p ∈ circleSteps r, p.2 ≤ p.1) ∧ ∀ p, (circleSteps r).getLast? = some p → (next p).1 < (next p).2)

/-- R150: LINE sets exactly the on-panel points of its walk to the colour, and changes nothing but the framebuffer; a
tie is broken as in the rule's example. -/
def Obligations.LinePlotsItsWalk : Prop :=
  ∀ (c : Bool) (x0 y0 x1 y1 : Half) (s : State),
    DecodesTo [headerWord 0x11 0 c, argWord x0 y0, argWord x1 y1] (.line c x0 y0 x1 y1) ∧
    linePoints 0 0 2 1 = [(0, 0), (1, 1), (2, 1)] ∧ linePoints 2 1 0 0 = [(2, 1), (1, 0), (0, 0)] ∧
    ∃ t, exec (.line c x0 y0 x1 y1) s = .next t ∧ t = { s with fb := t.fb } ∧
      (∀ px py, px < s.config.W → py < s.config.H →
        pixel t px py = if ((px : Int), (py : Int)) ∈ linePoints (sint16 x0) (sint16 y0) (sint16 x1) (sint16 y1)
          then c else pixel s px py) ∧
      (∀ o, (∀ p ∈ linePoints (sint16 x0) (sint16 y0) (sint16 x1) (sint16 y1), onPanel s.config p.1 p.2 = true →
          o ≠ pixOfs s.config p.1.toNat p.2.toNat) → memRead t o = memRead s o)

/-- R155: RECT sets exactly the outline of the inclusive box of its two corners, whichever corner comes first. -/
def Obligations.RectPlotsTheBoxOutline : Prop :=
  ∀ (c : Bool) (x1 y1 x2 y2 : Half) (s : State),
    DecodesTo [headerWord 0x12 0 c, argWord x1 y1, argWord x2 y2] (.rect c x1 y1 x2 y2) ∧
    ∃ t, exec (.rect c x1 y1 x2 y2) s = .next t ∧ t = { s with fb := t.fb } ∧
      (∀ px py, px < s.config.W → py < s.config.H →
        pixel t px py =
          if (min (sint16 x1) (sint16 x2) ≤ px ∧ (px : Int) ≤ max (sint16 x1) (sint16 x2)) ∧
              (min (sint16 y1) (sint16 y2) ≤ py ∧ (py : Int) ≤ max (sint16 y1) (sint16 y2)) ∧
              ((px : Int) = sint16 x1 ∨ (px : Int) = sint16 x2 ∨ (py : Int) = sint16 y1 ∨ (py : Int) = sint16 y2)
          then c else pixel s px py) ∧
      (∀ o, (∀ p ∈ rectPoints (sint16 x1) (sint16 y1) (sint16 x2) (sint16 y2), onPanel s.config p.1 p.2 = true →
          o ≠ pixOfs s.config p.1.toNat p.2.toNat) → memRead t o = memRead s o)

/-- R156: FILLRECT sets exactly the inclusive box of its two corners, whichever corner comes first. -/
def Obligations.FillrectFillsTheBox : Prop :=
  ∀ (c : Bool) (x1 y1 x2 y2 : Half) (s : State),
    DecodesTo [headerWord 0x13 0 c, argWord x1 y1, argWord x2 y2] (.fillrect c x1 y1 x2 y2) ∧
    ∃ t, exec (.fillrect c x1 y1 x2 y2) s = .next t ∧ t = { s with fb := t.fb } ∧
      (∀ px py, px < s.config.W → py < s.config.H →
        pixel t px py =
          if (min (sint16 x1) (sint16 x2) ≤ px ∧ (px : Int) ≤ max (sint16 x1) (sint16 x2)) ∧
              (min (sint16 y1) (sint16 y2) ≤ py ∧ (py : Int) ≤ max (sint16 y1) (sint16 y2))
          then c else pixel s px py) ∧
      (∀ o, (∀ p ∈ fillRectPoints (sint16 x1) (sint16 y1) (sint16 x2) (sint16 y2), onPanel s.config p.1 p.2 = true →
          o ≠ pixOfs s.config p.1.toNat p.2.toNat) → memRead t o = memRead s o)

/-- R157: FILLRECT's set contains RECT's; they are equal when the box is at most two wide or two high. -/
def Obligations.RectangleEquivalence : Prop :=
  ∀ x1 y1 x2 y2 : Int,
    (∀ p, p ∈ rectPoints x1 y1 x2 y2 → p ∈ fillRectPoints x1 y1 x2 y2) ∧
      ((|x2 - x1| ≤ 1 ∨ |y2 - y1| ≤ 1) → ∀ p, p ∈ fillRectPoints x1 y1 x2 y2 → p ∈ rectPoints x1 y1 x2 y2)

/-- R160, R161: CIRCLE sets exactly the on-panel symmetric images of the walk's points, for `r = 0` the centre alone,
and for a negative radius changes nothing. -/
def Obligations.CirclePlotsSymmetricImages : Prop :=
  ∀ (c : Bool) (cx cy r : Half) (s : State),
    DecodesTo [headerWord 0x14 0 c, argWord cx cy, argWord r 0] (.circle c cx cy r) ∧
    ∃ t, exec (.circle c cx cy r) s = .next t ∧ t = { s with fb := t.fb } ∧
      (∀ px py, px < s.config.W → py < s.config.H →
        let drawn := ∃ q ∈ circleSteps (sint16 r),
          (|(px : Int) - sint16 cx| = q.1 ∧ |(py : Int) - sint16 cy| = q.2) ∨
          (|(px : Int) - sint16 cx| = q.2 ∧ |(py : Int) - sint16 cy| = q.1)
        (drawn → pixel t px py = c) ∧ (¬drawn → pixel t px py = pixel s px py)) ∧
      (∀ o, (∀ p ∈ circlePoints (sint16 cx) (sint16 cy) (sint16 r), onPanel s.config p.1 p.2 = true →
          o ≠ pixOfs s.config p.1.toNat p.2.toNat) → memRead t o = memRead s o) ∧
      (sint16 r < 0 → t = s) ∧
      (sint16 r = 0 → exec (.circle c cx cy r) s = exec (.pixel c cx cy) s)

/-- R162: FILLCIRCLE sets exactly the on-panel points of the walk's vertical spans, changes nothing for a negative
radius, and its set contains CIRCLE's. -/
def Obligations.FillcircleFillsTheSpans : Prop :=
  ∀ (c : Bool) (cx cy r : Half) (s : State),
    DecodesTo [headerWord 0x15 0 c, argWord cx cy, argWord r 0] (.fillcircle c cx cy r) ∧
    ∃ t, exec (.fillcircle c cx cy r) s = .next t ∧ t = { s with fb := t.fb } ∧
      (∀ px py, px < s.config.W → py < s.config.H →
        let drawn := ∃ q ∈ circleSteps (sint16 r),
          (|(px : Int) - sint16 cx| = q.1 ∧ |(py : Int) - sint16 cy| ≤ q.2) ∨
          (|(px : Int) - sint16 cx| = q.2 ∧ |(py : Int) - sint16 cy| ≤ q.1)
        (drawn → pixel t px py = c) ∧ (¬drawn → pixel t px py = pixel s px py)) ∧
      (∀ o, (∀ p ∈ fillCirclePoints (sint16 cx) (sint16 cy) (sint16 r), onPanel s.config p.1 p.2 = true →
          o ≠ pixOfs s.config p.1.toNat p.2.toNat) → memRead t o = memRead s o) ∧
      (sint16 r < 0 → t = s) ∧
      (∀ p, p ∈ circlePoints (sint16 cx) (sint16 cy) (sint16 r) →
        p ∈ fillCirclePoints (sint16 cx) (sint16 cy) (sint16 r))

/-- R160, R163: the walks the spec writes out; the outline's symmetries about the centre, its extreme points, and the
numbers of distinct outline and filled points for `r = 0..5`. -/
def Obligations.CircleLaws : Prop :=
  (circleSteps 0 = [(0, 0)] ∧ circleSteps 1 = [(1, 0)] ∧ circleSteps 2 = [(2, 0), (2, 1)] ∧
    circleSteps 3 = [(3, 0), (3, 1), (2, 2)] ∧ circleSteps 5 = [(5, 0), (5, 1), (5, 2), (4, 3)]) ∧
  (∀ cx cy r x y : Int, (x, y) ∈ circlePoints cx cy r →
    (2 * cx - x, y) ∈ circlePoints cx cy r ∧ (x, 2 * cy - y) ∈ circlePoints cx cy r ∧
      (cx + (y - cy), cy + (x - cx)) ∈ circlePoints cx cy r ∧ |x - cx| ≤ r ∧ |y - cy| ≤ r) ∧
  (∀ cx cy r : Int, 0 ≤ r →
    (cx + r, cy) ∈ circlePoints cx cy r ∧ (cx - r, cy) ∈ circlePoints cx cy r ∧
      (cx, cy + r) ∈ circlePoints cx cy r ∧ (cx, cy - r) ∈ circlePoints cx cy r) ∧
  (∀ cx cy : Int,
    [0, 1, 2, 3, 4, 5].map (fun r => (circlePoints cx cy r).dedup.length) = [1, 4, 12, 16, 24, 28] ∧
      [0, 1, 2, 3, 4, 5].map (fun r => (fillCirclePoints cx cy r).dedup.length) = [1, 5, 21, 37, 61, 97])

/-- R170, R171: BITMAP sets to the colour exactly the on-panel pixels of its set source bits, bit `7 - (i mod 8)` of
byte `D[j*ceil(w/8) + i/8]`; unset bits and everything else stay as they were. -/
def Obligations.BitmapDrawsSetBitsOnly : Prop :=
  ∀ (c : Bool) (x y w h : Half) (d : List Byte) (s : State),
    (d.length = (w.toNat + 7) / 8 * h.toNat →
      DecodesTo (headerWord 0x16 0 c :: argWord x y :: argWord w h :: packBytes d) (.bitmap c x y w h d)) ∧
    ∃ t, exec (.bitmap c x y w h d) s = .next t ∧ t = { s with fb := t.fb } ∧
      (∀ px py, px < s.config.W → py < s.config.H →
        let drawn := ∃ i j : Nat, i < w.toNat ∧ j < h.toNat ∧ (px : Int) = sint16 x + i ∧ (py : Int) = sint16 y + j ∧
          (d.getD (j * ((w.toNat + 7) / 8) + i / 8) 0).getLsbD (7 - i % 8) = true
        (drawn → pixel t px py = c) ∧ (¬drawn → pixel t px py = pixel s px py)) ∧
      (∀ o, (∀ p ∈ bitmapPoints (sint16 x) (sint16 y) w h d, onPanel s.config p.1 p.2 = true →
          o ≠ pixOfs s.config p.1.toNat p.2.toNat) → memRead t o = memRead s o) ∧
      ((w = 0 ∨ h = 0) → t = s)

/-! ## Text -/

/-- R190, R191: SETCURSOR moves the cursor anywhere and changes nothing else; GETCURSOR gives `{CURY, CURX}` and
changes only RESULT. -/
def Obligations.CursorCommands : Prop :=
  ∀ (x y : Half) (s : State),
    DecodesTo [headerWord 0x18 0 false, argWord x y] (.setcursor x y) ∧
    DecodesTo [headerWord 0x19 0 false] .getcursor ∧
    exec (.setcursor x y) s = .next { s with curx := x, cury := y } ∧
      ∃ t, exec .getcursor s = .next t ∧ t = { s with result := t.result } ∧
        t.result.extractLsb' 0 16 = s.curx ∧ t.result.extractLsb' 16 16 = s.cury

/-- R187, R188, R192: WRCHAR rejects an invalid code with RESULT 0 and no other effect; a valid code's foreground
pixels get the colour, the cursor column advances with a 16-bit wrap, RESULT is 1. -/
def Obligations.WrcharDrawsAndAdvances : Prop :=
  ∀ (c : Bool) (ch : Byte) (s : State),
    DecodesTo [headerWord 0x1A ch c] (.wrchar c ch) ∧
    ((ch.toNat < 32 ∨ 126 < ch.toNat) → exec (.wrchar c ch) s = .next { s with result := 0 }) ∧
      (32 ≤ ch.toNat → ch.toNat ≤ 126 →
        let g := fontGlyph s.config.FONT (ch.toNat - 32)
        ∃ t, exec (.wrchar c ch) s = .next t ∧
          t = { s with fb := t.fb, result := 1, curx := BitVec.ofInt 16 (s.curx.toInt + g.GW + s.config.FONT.SP) } ∧
          (∀ px py, px < s.config.W → py < s.config.H →
            let drawn := ∃ i r : Nat, i < g.GW ∧ r < s.config.FONT.FH ∧ (g.ROW.getD r 0).getLsbD (15 - i) = true ∧
              (px : Int) = s.curx.toInt + i ∧ (py : Int) = s.cury.toNat + g.YOFF.toInt + r
            (drawn → pixel t px py = c) ∧ (¬drawn → pixel t px py = pixel s px py)) ∧
          (∀ g', s.config.FONT.glyphs[ch.toNat - 32]? = some g' → g = g') ∧
          (∀ o, (∀ p ∈ glyphPoints s.config.FONT.FH g s.curx.toInt s.cury.toNat,
              onPanel s.config p.1 p.2 = true → o ≠ pixOfs s.config p.1.toNat p.2.toNat) →
            memRead t o = memRead s o))

/-- R193: WRSTR is the WRCHARs of the characters before the first invalid code, with their number in RESULT. -/
def Obligations.WrstrIsWrcharsUpToTheFirstInvalid : Prop :=
  ∀ (c : Bool) (pre post : List Byte) (s : State), (∀ ch ∈ pre, 32 ≤ ch.toNat ∧ ch.toNat ≤ 126) →
    (∀ ch, post.head? = some ch → ch.toNat < 32 ∨ 126 < ch.toNat) →
    ((pre ++ post).length ≤ 65535 →
      DecodesTo (headerWord 0x1B 0 c :: argWord (BitVec.ofNat 16 (pre ++ post).length) 0 :: packBytes (pre ++ post))
        (.wrstr c (pre ++ post))) ∧
    ∃ t, execAll (pre.map (Instr.wrchar c)) s = .next t ∧
      exec (.wrstr c (pre ++ post)) s = .next { t with result := BitVec.ofNat 32 pre.length }

/-- R194: WRSTRAT is SETCURSOR and then WRSTR. -/
def Obligations.WrstratIsSetcursorThenWrstr : Prop :=
  ∀ (c : Bool) (x y : Half) (str : List Byte) (s : State),
    (str.length ≤ 65535 →
      DecodesTo (headerWord 0x1C 0 c :: argWord x y :: argWord (BitVec.ofNat 16 str.length) 0 :: packBytes str)
        (.wrstrat c x y str)) ∧
    execAll [.setcursor x y, .wrstr c str] s = exec (.wrstrat c x y str) s ∧
      ∃ t, exec (.wrstrat c x y str) s = .next t ∧ t.cury = y ∧ t = { s with
        fb := t.fb, curx := t.curx, cury := t.cury, result := t.result }

/-- R196: STRWIDTH gives the sum of widths and spacings of the characters before the first invalid code, less one
trailing spacing, and 0 when there is none; nothing but RESULT changes. -/
def Obligations.StrwidthMeasuresThePrefix : Prop :=
  ∀ (pre post : List Byte) (s : State), (∀ ch ∈ pre, 32 ≤ ch.toNat ∧ ch.toNat ≤ 126) →
    (∀ ch, post.head? = some ch → ch.toNat < 32 ∨ 126 < ch.toNat) →
    ((pre ++ post).length ≤ 65535 →
      DecodesTo (headerWord 0x1D 0 false :: argWord (BitVec.ofNat 16 (pre ++ post).length) 0 :: packBytes (pre ++ post))
        (.strwidth (pre ++ post))) ∧
    ∃ t, exec (.strwidth (pre ++ post)) s = .next t ∧ t = { s with result := t.result } ∧
      (pre = [] → t.result = 0) ∧
      (pre ≠ [] → configWf s.config = true → pre.length ≤ 65535 →
        t.result.toNat + s.config.FONT.SP =
          (pre.map fun ch => (fontGlyph s.config.FONT (ch.toNat - 32)).GW + s.config.FONT.SP).sum) ∧
      (∀ w, (∀ g ∈ s.config.FONT.glyphs, g.GW = w) → s.config.FONT.SP = 1 → configWf s.config = true →
        pre ≠ [] → pre.length ≤ 65535 → t.result.toNat = pre.length * (w + 1) - 1)

/-- R197: after WRSTR the cursor column has moved by STRWIDTH plus one spacing, or not at all when nothing was drawn,
and WRSTR changes only pixels that a glyph of the drawn prefix has as foreground. -/
def Obligations.TextAdvanceMatchesWidth : Prop :=
  ∀ (c : Bool) (str : List Byte) (s : State), configWf s.config = true → str.length ≤ 65535 →
    ∃ t u, exec (.wrstr c str) s = .next t ∧ exec (.strwidth str) s = .next u ∧
      (0 < t.result.toNat →
        t.curx = BitVec.ofInt 16 (s.curx.toInt + u.result.toNat + s.config.FONT.SP)) ∧
      (t.result.toNat = 0 → t.curx = s.curx) ∧
      (∀ px py, px < s.config.W → py < s.config.H → pixel t px py ≠ pixel s px py →
        ∃ k, k < t.result.toNat ∧ ∃ ch, str[k]? = some ch ∧
          ((px : Int), (py : Int)) ∈ glyphPoints s.config.FONT.FH (fontGlyph s.config.FONT (ch.toNat - 32))
            (BitVec.ofInt 16 (s.curx.toInt + ((str.take k).map fun a =>
              ((fontGlyph s.config.FONT (a.toNat - 32)).GW + s.config.FONT.SP : Int)).sum)).toInt s.cury.toNat)

/-! ## Display control -/

/-- R218, R219, R241: the default address and command bytes, which the spec marks as general knowledge (log entry 12):
the page, the low and the high half of the column each in its byte; INITSEQ with every setting R218 names, and CMD_
values that are the bytes INITSEQ uses. A table of ADDRSEQ gives the value of its row (log entry 15). -/
def Obligations.DefaultSequencesAreTheSpecsBytes : Prop :=
  (∀ (c : Config) (p ca : Nat), c.ADDRSEQ = .pageMode →
    (p ≤ 15 → ca ≤ 255 → ∃ page low high : Byte, addrSeq? c p ca = some [page, low, high] ∧
      page.toNat = 0xB0 + p ∧ low.toNat = ca % 16 ∧ high.toNat = 0x10 + ca / 16) ∧
    (15 < p ∨ 255 < ca → addrSeq? c p ca = none)) ∧
  (∀ (c : Config) (rows : List (Nat × Nat × List Byte)) (p ca : Nat), c.ADDRSEQ = .table rows →
    (∀ bs, (p, ca, bs) ∈ rows → (∀ bs', (p, ca, bs') ∈ rows → bs' = bs) → addrSeq? c p ca = some bs) ∧
      ((∀ bs, (p, ca, bs) ∉ rows) → addrSeq? c p ca = none)) ∧
  (∀ (w xoff pow maxpow : Nat) (font : Font),
    let c := configOf w 64 xoff pow maxpow font
    c.ADDRSEQ = .pageMode ∧ c.INITSEQ = [0xAE, 0xD5, 0x80, 0xA8, 0x3F, 0xD3, 0x00, 0x40, 0x20, 0x02, 0xA1, 0xC8, 0xDA,
      0x12, 0x81, 0x7F, 0xD9, 0x22, 0xDB, 0x20, 0xA4, 0xA6, 0x8D, 0x14, 0xAF] ∧
      c.INITSEQ.head? = some c.CMD_OFF ∧ c.INITSEQ.getLast? = some c.CMD_ON ∧
      c.INITSEQ[14]? = some c.CMD_CONTRAST ∧ c.INITSEQ[21]? = some c.CMD_NORMAL ∧ c.CMD_INVERSE = 0xA7) ∧
  (∀ (h : Nat) (mirrorH mirrorV invert : Bool) (contrast : Byte), 1 ≤ h → h ≤ 64 →
    let seq := initSeqDefault h mirrorH mirrorV invert contrast
    seq.length = 25 ∧ (∃ b : Byte, seq[4]? = some b ∧ b.toNat = h - 1) ∧
      seq[10]? = some (if mirrorH then 0xA0 else 0xA1) ∧ seq[11]? = some (if mirrorV then 0xC0 else 0xC8) ∧
      seq[13]? = some (if h = 32 then 0x02 else 0x12) ∧ seq[15]? = some contrast ∧
      seq[21]? = some (if invert then 0xA7 else 0xA6))

/-- R220: INIT sends `INITSEQ`, and only if all of it was answered with success clears the framebuffer and sends
every page; success sets the registers from the configuration, any failure leaves UNINIT and the shadows and UCUR as
they were; the text cursor is not touched. -/
def Obligations.InitProgramsClearsAndFlushes : Prop :=
  ∀ s : State, configWf s.config = true →
    DecodesTo [headerWord 0x01 0 false] .init ∧
    let cleared := { s with fb := memFill (BUFSZ s.config) 0x00 s.fb }
    let recs := issue (answerAt s) 0 (s.config.INITSEQ.map BusTx.cmd ++ allPages cleared)
    let after := afterBus recs s
    (allOk recs = true → exec .init s = .next { after with
      fb := cleared.fb, ucur := 0, dstate := .active, inv := s.config.INVERT_INIT,
      contrast := s.config.CONTRAST_INIT, result := 1, lastfail := false }) ∧
    (allOk recs = false → exec .init s = .next { after with
      fb := if recs.length ≤ s.config.INITSEQ.length then s.fb else cleared.fb,
      dstate := .uninit, result := 0, lastfail := true }) ∧
    (∀ o, o < BUFSZ s.config → memRead cleared o = 0x00)

/-- R222, R223: DISPON and DISPOFF send their one byte in every state; only success moves DSTATE, and never out of
UNINIT. -/
def Obligations.DisplayOnAndOff : Prop :=
  ∀ s : State,
    DecodesTo [headerWord 0x0A 0 false] .dispon ∧ DecodesTo [headerWord 0x0B 0 false] .dispoff ∧
    let ok := answerAt s 0
    exec .dispon s = .next { afterBus [{ tx := .cmd s.config.CMD_ON, ok := ok }] s with
      dstate := if ok = true ∧ s.dstate ≠ .uninit then .active else s.dstate,
      result := if ok then 1 else 0, lastfail := !ok } ∧
    exec .dispoff s = .next { afterBus [{ tx := .cmd s.config.CMD_OFF, ok := ok }] s with
      dstate := if ok = true ∧ s.dstate ≠ .uninit then .off else s.dstate,
      result := if ok then 1 else 0, lastfail := !ok }

/-- R224: TOGINV sends the byte of the mode it toggles to; only success toggles INV, and the framebuffer stays. -/
def Obligations.ToginvTogglesOnSuccess : Prop :=
  ∀ s : State,
    DecodesTo [headerWord 0x0C 0 false] .toginv ∧
    let ok := answerAt s 0
    exec .toginv s = .next { afterBus
        [{ tx := .cmd (if s.inv then s.config.CMD_NORMAL else s.config.CMD_INVERSE), ok := ok }] s with
      inv := xor s.inv ok, result := if ok then 1 else 0, lastfail := !ok }

/-- R225: SETBRIGHT sends the contrast command and then the value, the second only if the first succeeds; the shadow
is written only if both do. -/
def Obligations.SetbrightSendsAPair : Prop :=
  ∀ (v : Byte) (s : State),
    DecodesTo [headerWord 0x0D v false] (.setbright v) ∧
    (answerAt s 0 = false → exec (.setbright v) s = .next { afterBus
        [{ tx := .cmd s.config.CMD_CONTRAST, ok := false }] s with result := 0, lastfail := true }) ∧
    (answerAt s 0 = true → answerAt s 1 = false → exec (.setbright v) s = .next { afterBus
        [{ tx := .cmd s.config.CMD_CONTRAST, ok := true }, { tx := .cmd v, ok := false }] s with
        result := 0, lastfail := true }) ∧
    (answerAt s 0 = true → answerAt s 1 = true → exec (.setbright v) s = .next { afterBus
        [{ tx := .cmd s.config.CMD_CONTRAST, ok := true }, { tx := .cmd v, ok := true }] s with
        contrast := v, result := 1, lastfail := false })

/-! ## Streaming -/

/-- R242, R243: with every answer success, `SendRange(a, e)` issues one segment for each page it touches, each its
address bytes and one `Data` of 1 to W bytes that ends at the range's or the page's end, and the `Data` payloads
concatenate to `FB[a..e-1]`. -/
def Obligations.SendRangeSegments : Prop :=
  ∀ (s : State) (a e : Nat), 1 ≤ s.config.W → a < e → e ≤ BUFSZ s.config →
    let W := s.config.W
    let start := fun j => if j = 0 then a else (a / W + j) * W
    let stop := fun j => min e ((a / W + j + 1) * W)
    let segs := (List.range ((e - 1) / W - a / W + 1)).map fun j =>
      pageSegment s (a / W + j) (if j = 0 then a % W else 0) (stop j)
    sendRange a e s = (allOk (issue (answerAt s) 0 segs.flatten), afterBus (issue (answerAt s) 0 segs.flatten) s) ∧
      dataBytes segs.flatten = readRange s a e ∧
      ((readRange s a e).length = e - a ∧ ∀ k, k < e - a → (readRange s a e)[k]? = some (memRead s (a + k))) ∧
      (∀ j, j < (e - 1) / W - a / W + 1 →
        (a / W + j) * W + (if j = 0 then a % W else 0) = start j ∧ 1 ≤ stop j - start j ∧ stop j - start j ≤ W)

/-- R249: UPDATE sends every page in order; RESULT and LASTFAIL say whether all of it succeeded, and only then is UCUR
reset. -/
def Obligations.UpdateFlushesEveryPage : Prop :=
  ∀ s : State, configWf s.config = true →
    DecodesTo [headerWord 0x04 0 false] .update ∧
    let recs := issue (answerAt s) 0 (allPages s)
    exec .update s = .next { afterBus recs s with
      ucur := if allOk recs then 0 else s.ucur
      result := if allOk recs then 1 else 0
      lastfail := !(allOk recs) } ∧
    dataBytes (allPages s) = readRange s 0 (BUFSZ s.config)

/-- R252: TICK sends the next `min(BPO, BUFSZ - UCUR)` bytes; only success moves UCUR, to the chunk's end or, at the
buffer's end, to 0; RESULT is `{wrap, ok}`. -/
def Obligations.TickSendsTheNextChunk : Prop :=
  ∀ s : State, s.Invariant →
    DecodesTo [headerWord 0x06 0 false] .tick ∧
    let a := s.ucur.toNat
    let e := a + min (BPO s.config) (BUFSZ s.config - a)
    let r := sendRange a e s
    exec .tick s = .next { r.2 with
      ucur := if r.1 then (if e = BUFSZ s.config then 0 else BitVec.ofNat 32 e) else s.ucur
      result := BitVec.ofNat 32 ((if r.1 = true ∧ e = BUFSZ s.config then 2 else 0) + (if r.1 then 1 else 0))
      lastfail := !r.1 } ∧
    a < e ∧ e ≤ BUFSZ s.config ∧ (r.1 = false → ∃ t, exec .tick s = .next t ∧ t.ucur = s.ucur)

/-- R253: from UCUR = 0, TOTAL ticks all answered with success send the whole framebuffer once, the same bytes a
successful UPDATE sends, and only the last of them wraps; a failing tick leaves UCUR. -/
def Obligations.TickCycleSendsTheWholeBuffer : Prop :=
  ∀ s : State, s.Invariant → s.ucur = 0 →
    (∃ t recs, execAll (List.replicate (TOTAL s.config) .tick) s = .next t ∧ t.busTrace = s.busTrace ++ recs ∧
      (allOk recs = true →
        dataBytes (recs.map fun r => r.tx) = readRange s 0 (BUFSZ s.config) ∧ t.ucur = 0 ∧ t.result = 3 ∧
          dataBytes (allPages s) = dataBytes (recs.map fun r => r.tx))) ∧
    (∀ n, n < TOTAL s.config → ∃ t recs, execAll (List.replicate n .tick) s = .next t ∧
      t.busTrace = s.busTrace ++ recs ∧
      (allOk recs = true → t.ucur.toNat = n * BPO s.config ∧ (0 < n → t.result = 1)))

/-- R256: UPDCHUNK sends chunk `k`, nothing for an index past the end; RESULT is `{more, ok}` with `more` whether
chunks remain after `k`, failed or not; UCUR is not written. -/
def Obligations.UpdchunkSendsTheNamedChunk : Prop :=
  ∀ (k : Word) (s : State),
    DecodesTo [headerWord 0x05 0 false, k] (.updchunk k) ∧
    let a := k.toNat * BPO s.config
    let more : Nat := if k.toNat + 1 < TOTAL s.config then 2 else 0
    (BUFSZ s.config ≤ a → exec (.updchunk k) s = .next { s with
      result := BitVec.ofNat 32 (more + 1), lastfail := false }) ∧
    (a < BUFSZ s.config →
      let r := sendRange a (min (a + BPO s.config) (BUFSZ s.config)) s
      exec (.updchunk k) s = .next { r.2 with
        result := BitVec.ofNat 32 (more + (if r.1 then 1 else 0)), lastfail := !r.1 }) ∧
    (configWf s.config = true → (BUFSZ s.config ≤ a ↔ TOTAL s.config ≤ k.toNat))

/-- R34, R256, R323: what UPDCHUNK does does not depend on UCUR. -/
def Obligations.UpdchunkIgnoresTheUpdateCursor : Prop :=
  ∀ (k u : Word) (s t : State), exec (.updchunk k) s = .next t →
    exec (.updchunk k) { s with ucur := u } = .next { t with ucur := u }

/-- R258, R259: GETCHUNKS gives TOTAL and GETUCUR the update cursor; nothing but RESULT changes. -/
def Obligations.ChunkCountAndCursorQueries : Prop :=
  ∀ s : State,
    DecodesTo [headerWord 0x07 0 false] .getchunks ∧ DecodesTo [headerWord 0x08 0 false] .getucur ∧
    exec .getucur s = .next { s with result := s.ucur } ∧
      ∃ t, exec .getchunks s = .next t ∧ t = { s with result := t.result } ∧
        (configWf s.config = true →
          t.result.toNat = (BUFSZ s.config + BPO s.config - 1) / BPO s.config)

/-- R322: a successful UPDATE or INIT makes the next TICK start again at byte 0. -/
def Obligations.FlushRestartsTheTickCycle : Prop :=
  ∀ s : State, s.Invariant →
    ∃ t u, exec .update s = .next t ∧ exec .init s = .next u ∧
      (t.lastfail = false → t.ucur = 0 ∧ tickEnd t = min (BPO s.config) (BUFSZ s.config)) ∧
      (u.lastfail = false → u.ucur = 0 ∧ tickEnd u = min (BPO s.config) (BUFSZ s.config)) ∧
      (t.lastfail = true → t.ucur = s.ucur) ∧ (u.lastfail = true → u.ucur = s.ucur)
end

