-- ==== Sys2Proof/Laws/State.lean ====
section
/-! SUPPORT. One lemma per field per update of State: what each named update leaves in each field. -/

namespace Sys2Proof.Machine

variable (s : State)

@[simp] theorem setFb_config (m : Memory) : (setFb m s).config = s.config := rfl
@[simp] theorem setFb_fb (m : Memory) : (setFb m s).fb = m := rfl
@[simp] theorem setFb_curx (m : Memory) : (setFb m s).curx = s.curx := rfl
@[simp] theorem setFb_cury (m : Memory) : (setFb m s).cury = s.cury := rfl
@[simp] theorem setFb_ucur (m : Memory) : (setFb m s).ucur = s.ucur := rfl
@[simp] theorem setFb_dstate (m : Memory) : (setFb m s).dstate = s.dstate := rfl
@[simp] theorem setFb_inv (m : Memory) : (setFb m s).inv = s.inv := rfl
@[simp] theorem setFb_contrast (m : Memory) : (setFb m s).contrast = s.contrast := rfl
@[simp] theorem setFb_lastfail (m : Memory) : (setFb m s).lastfail = s.lastfail := rfl
@[simp] theorem setFb_ill (m : Memory) : (setFb m s).ill = s.ill := rfl
@[simp] theorem setFb_illcause (m : Memory) : (setFb m s).illcause = s.illcause := rfl
@[simp] theorem setFb_result (m : Memory) : (setFb m s).result = s.result := rfl
@[simp] theorem setFb_asm (m : Memory) : (setFb m s).asm = s.asm := rfl
@[simp] theorem setFb_port (m : Memory) : (setFb m s).port = s.port := rfl
@[simp] theorem setFb_busTrace (m : Memory) : (setFb m s).busTrace = s.busTrace := rfl
@[simp] theorem setFb_answers (m : Memory) : (setFb m s).answers = s.answers := rfl
@[simp] theorem setFb_draws (m : Memory) : (setFb m s).draws = s.draws := rfl
@[simp] theorem setFb_resets (m : Memory) : (setFb m s).resets = s.resets := rfl

@[simp] theorem setCurx_config (x : Half) : (setCurx x s).config = s.config := rfl
@[simp] theorem setCurx_fb (x : Half) : (setCurx x s).fb = s.fb := rfl
@[simp] theorem setCurx_curx (x : Half) : (setCurx x s).curx = x := rfl
@[simp] theorem setCurx_cury (x : Half) : (setCurx x s).cury = s.cury := rfl
@[simp] theorem setCurx_ucur (x : Half) : (setCurx x s).ucur = s.ucur := rfl
@[simp] theorem setCurx_dstate (x : Half) : (setCurx x s).dstate = s.dstate := rfl
@[simp] theorem setCurx_inv (x : Half) : (setCurx x s).inv = s.inv := rfl
@[simp] theorem setCurx_contrast (x : Half) : (setCurx x s).contrast = s.contrast := rfl
@[simp] theorem setCurx_lastfail (x : Half) : (setCurx x s).lastfail = s.lastfail := rfl
@[simp] theorem setCurx_ill (x : Half) : (setCurx x s).ill = s.ill := rfl
@[simp] theorem setCurx_illcause (x : Half) : (setCurx x s).illcause = s.illcause := rfl
@[simp] theorem setCurx_result (x : Half) : (setCurx x s).result = s.result := rfl
@[simp] theorem setCurx_asm (x : Half) : (setCurx x s).asm = s.asm := rfl
@[simp] theorem setCurx_port (x : Half) : (setCurx x s).port = s.port := rfl
@[simp] theorem setCurx_busTrace (x : Half) : (setCurx x s).busTrace = s.busTrace := rfl
@[simp] theorem setCurx_answers (x : Half) : (setCurx x s).answers = s.answers := rfl
@[simp] theorem setCurx_draws (x : Half) : (setCurx x s).draws = s.draws := rfl
@[simp] theorem setCurx_resets (x : Half) : (setCurx x s).resets = s.resets := rfl

@[simp] theorem setCursor_config (x y : Half) : (setCursor x y s).config = s.config := rfl
@[simp] theorem setCursor_fb (x y : Half) : (setCursor x y s).fb = s.fb := rfl
@[simp] theorem setCursor_curx (x y : Half) : (setCursor x y s).curx = x := rfl
@[simp] theorem setCursor_cury (x y : Half) : (setCursor x y s).cury = y := rfl
@[simp] theorem setCursor_ucur (x y : Half) : (setCursor x y s).ucur = s.ucur := rfl
@[simp] theorem setCursor_dstate (x y : Half) : (setCursor x y s).dstate = s.dstate := rfl
@[simp] theorem setCursor_inv (x y : Half) : (setCursor x y s).inv = s.inv := rfl
@[simp] theorem setCursor_contrast (x y : Half) : (setCursor x y s).contrast = s.contrast := rfl
@[simp] theorem setCursor_lastfail (x y : Half) : (setCursor x y s).lastfail = s.lastfail := rfl
@[simp] theorem setCursor_ill (x y : Half) : (setCursor x y s).ill = s.ill := rfl
@[simp] theorem setCursor_illcause (x y : Half) : (setCursor x y s).illcause = s.illcause := rfl
@[simp] theorem setCursor_result (x y : Half) : (setCursor x y s).result = s.result := rfl
@[simp] theorem setCursor_asm (x y : Half) : (setCursor x y s).asm = s.asm := rfl
@[simp] theorem setCursor_port (x y : Half) : (setCursor x y s).port = s.port := rfl
@[simp] theorem setCursor_busTrace (x y : Half) : (setCursor x y s).busTrace = s.busTrace := rfl
@[simp] theorem setCursor_answers (x y : Half) : (setCursor x y s).answers = s.answers := rfl
@[simp] theorem setCursor_draws (x y : Half) : (setCursor x y s).draws = s.draws := rfl
@[simp] theorem setCursor_resets (x y : Half) : (setCursor x y s).resets = s.resets := rfl

@[simp] theorem setUcur_config (n : Nat) : (setUcur n s).config = s.config := rfl
@[simp] theorem setUcur_fb (n : Nat) : (setUcur n s).fb = s.fb := rfl
@[simp] theorem setUcur_curx (n : Nat) : (setUcur n s).curx = s.curx := rfl
@[simp] theorem setUcur_cury (n : Nat) : (setUcur n s).cury = s.cury := rfl
@[simp] theorem setUcur_ucur (n : Nat) : (setUcur n s).ucur = word32 n := rfl
@[simp] theorem setUcur_dstate (n : Nat) : (setUcur n s).dstate = s.dstate := rfl
@[simp] theorem setUcur_inv (n : Nat) : (setUcur n s).inv = s.inv := rfl
@[simp] theorem setUcur_contrast (n : Nat) : (setUcur n s).contrast = s.contrast := rfl
@[simp] theorem setUcur_lastfail (n : Nat) : (setUcur n s).lastfail = s.lastfail := rfl
@[simp] theorem setUcur_ill (n : Nat) : (setUcur n s).ill = s.ill := rfl
@[simp] theorem setUcur_illcause (n : Nat) : (setUcur n s).illcause = s.illcause := rfl
@[simp] theorem setUcur_result (n : Nat) : (setUcur n s).result = s.result := rfl
@[simp] theorem setUcur_asm (n : Nat) : (setUcur n s).asm = s.asm := rfl
@[simp] theorem setUcur_port (n : Nat) : (setUcur n s).port = s.port := rfl
@[simp] theorem setUcur_busTrace (n : Nat) : (setUcur n s).busTrace = s.busTrace := rfl
@[simp] theorem setUcur_answers (n : Nat) : (setUcur n s).answers = s.answers := rfl
@[simp] theorem setUcur_draws (n : Nat) : (setUcur n s).draws = s.draws := rfl
@[simp] theorem setUcur_resets (n : Nat) : (setUcur n s).resets = s.resets := rfl

@[simp] theorem setDstate_config (d : DState) : (setDstate d s).config = s.config := rfl
@[simp] theorem setDstate_fb (d : DState) : (setDstate d s).fb = s.fb := rfl
@[simp] theorem setDstate_curx (d : DState) : (setDstate d s).curx = s.curx := rfl
@[simp] theorem setDstate_cury (d : DState) : (setDstate d s).cury = s.cury := rfl
@[simp] theorem setDstate_ucur (d : DState) : (setDstate d s).ucur = s.ucur := rfl
@[simp] theorem setDstate_dstate (d : DState) : (setDstate d s).dstate = d := rfl
@[simp] theorem setDstate_inv (d : DState) : (setDstate d s).inv = s.inv := rfl
@[simp] theorem setDstate_contrast (d : DState) : (setDstate d s).contrast = s.contrast := rfl
@[simp] theorem setDstate_lastfail (d : DState) : (setDstate d s).lastfail = s.lastfail := rfl
@[simp] theorem setDstate_ill (d : DState) : (setDstate d s).ill = s.ill := rfl
@[simp] theorem setDstate_illcause (d : DState) : (setDstate d s).illcause = s.illcause := rfl
@[simp] theorem setDstate_result (d : DState) : (setDstate d s).result = s.result := rfl
@[simp] theorem setDstate_asm (d : DState) : (setDstate d s).asm = s.asm := rfl
@[simp] theorem setDstate_port (d : DState) : (setDstate d s).port = s.port := rfl
@[simp] theorem setDstate_busTrace (d : DState) : (setDstate d s).busTrace = s.busTrace := rfl
@[simp] theorem setDstate_answers (d : DState) : (setDstate d s).answers = s.answers := rfl
@[simp] theorem setDstate_draws (d : DState) : (setDstate d s).draws = s.draws := rfl
@[simp] theorem setDstate_resets (d : DState) : (setDstate d s).resets = s.resets := rfl

@[simp] theorem setInv_config (b : Bool) : (setInv b s).config = s.config := rfl
@[simp] theorem setInv_fb (b : Bool) : (setInv b s).fb = s.fb := rfl
@[simp] theorem setInv_curx (b : Bool) : (setInv b s).curx = s.curx := rfl
@[simp] theorem setInv_cury (b : Bool) : (setInv b s).cury = s.cury := rfl
@[simp] theorem setInv_ucur (b : Bool) : (setInv b s).ucur = s.ucur := rfl
@[simp] theorem setInv_dstate (b : Bool) : (setInv b s).dstate = s.dstate := rfl
@[simp] theorem setInv_inv (b : Bool) : (setInv b s).inv = b := rfl
@[simp] theorem setInv_contrast (b : Bool) : (setInv b s).contrast = s.contrast := rfl
@[simp] theorem setInv_lastfail (b : Bool) : (setInv b s).lastfail = s.lastfail := rfl
@[simp] theorem setInv_ill (b : Bool) : (setInv b s).ill = s.ill := rfl
@[simp] theorem setInv_illcause (b : Bool) : (setInv b s).illcause = s.illcause := rfl
@[simp] theorem setInv_result (b : Bool) : (setInv b s).result = s.result := rfl
@[simp] theorem setInv_asm (b : Bool) : (setInv b s).asm = s.asm := rfl
@[simp] theorem setInv_port (b : Bool) : (setInv b s).port = s.port := rfl
@[simp] theorem setInv_busTrace (b : Bool) : (setInv b s).busTrace = s.busTrace := rfl
@[simp] theorem setInv_answers (b : Bool) : (setInv b s).answers = s.answers := rfl
@[simp] theorem setInv_draws (b : Bool) : (setInv b s).draws = s.draws := rfl
@[simp] theorem setInv_resets (b : Bool) : (setInv b s).resets = s.resets := rfl

@[simp] theorem setContrast_config (v : Byte) : (setContrast v s).config = s.config := rfl
@[simp] theorem setContrast_fb (v : Byte) : (setContrast v s).fb = s.fb := rfl
@[simp] theorem setContrast_curx (v : Byte) : (setContrast v s).curx = s.curx := rfl
@[simp] theorem setContrast_cury (v : Byte) : (setContrast v s).cury = s.cury := rfl
@[simp] theorem setContrast_ucur (v : Byte) : (setContrast v s).ucur = s.ucur := rfl
@[simp] theorem setContrast_dstate (v : Byte) : (setContrast v s).dstate = s.dstate := rfl
@[simp] theorem setContrast_inv (v : Byte) : (setContrast v s).inv = s.inv := rfl
@[simp] theorem setContrast_contrast (v : Byte) : (setContrast v s).contrast = v := rfl
@[simp] theorem setContrast_lastfail (v : Byte) : (setContrast v s).lastfail = s.lastfail := rfl
@[simp] theorem setContrast_ill (v : Byte) : (setContrast v s).ill = s.ill := rfl
@[simp] theorem setContrast_illcause (v : Byte) : (setContrast v s).illcause = s.illcause := rfl
@[simp] theorem setContrast_result (v : Byte) : (setContrast v s).result = s.result := rfl
@[simp] theorem setContrast_asm (v : Byte) : (setContrast v s).asm = s.asm := rfl
@[simp] theorem setContrast_port (v : Byte) : (setContrast v s).port = s.port := rfl
@[simp] theorem setContrast_busTrace (v : Byte) : (setContrast v s).busTrace = s.busTrace := rfl
@[simp] theorem setContrast_answers (v : Byte) : (setContrast v s).answers = s.answers := rfl
@[simp] theorem setContrast_draws (v : Byte) : (setContrast v s).draws = s.draws := rfl
@[simp] theorem setContrast_resets (v : Byte) : (setContrast v s).resets = s.resets := rfl

@[simp] theorem setResult_config (w : Word) : (setResult w s).config = s.config := rfl
@[simp] theorem setResult_fb (w : Word) : (setResult w s).fb = s.fb := rfl
@[simp] theorem setResult_curx (w : Word) : (setResult w s).curx = s.curx := rfl
@[simp] theorem setResult_cury (w : Word) : (setResult w s).cury = s.cury := rfl
@[simp] theorem setResult_ucur (w : Word) : (setResult w s).ucur = s.ucur := rfl
@[simp] theorem setResult_dstate (w : Word) : (setResult w s).dstate = s.dstate := rfl
@[simp] theorem setResult_inv (w : Word) : (setResult w s).inv = s.inv := rfl
@[simp] theorem setResult_contrast (w : Word) : (setResult w s).contrast = s.contrast := rfl
@[simp] theorem setResult_lastfail (w : Word) : (setResult w s).lastfail = s.lastfail := rfl
@[simp] theorem setResult_ill (w : Word) : (setResult w s).ill = s.ill := rfl
@[simp] theorem setResult_illcause (w : Word) : (setResult w s).illcause = s.illcause := rfl
@[simp] theorem setResult_result (w : Word) : (setResult w s).result = w := rfl
@[simp] theorem setResult_asm (w : Word) : (setResult w s).asm = s.asm := rfl
@[simp] theorem setResult_port (w : Word) : (setResult w s).port = s.port := rfl
@[simp] theorem setResult_busTrace (w : Word) : (setResult w s).busTrace = s.busTrace := rfl
@[simp] theorem setResult_answers (w : Word) : (setResult w s).answers = s.answers := rfl
@[simp] theorem setResult_draws (w : Word) : (setResult w s).draws = s.draws := rfl
@[simp] theorem setResult_resets (w : Word) : (setResult w s).resets = s.resets := rfl

@[simp] theorem memWrite_config (o : Nat) (v : Byte) : (memWrite o v s).config = s.config := rfl
@[simp] theorem memWrite_fb (o : Nat) (v : Byte) : (memWrite o v s).fb = memSet o v s.fb := rfl
@[simp] theorem memWrite_curx (o : Nat) (v : Byte) : (memWrite o v s).curx = s.curx := rfl
@[simp] theorem memWrite_cury (o : Nat) (v : Byte) : (memWrite o v s).cury = s.cury := rfl
@[simp] theorem memWrite_ucur (o : Nat) (v : Byte) : (memWrite o v s).ucur = s.ucur := rfl
@[simp] theorem memWrite_dstate (o : Nat) (v : Byte) : (memWrite o v s).dstate = s.dstate := rfl
@[simp] theorem memWrite_inv (o : Nat) (v : Byte) : (memWrite o v s).inv = s.inv := rfl
@[simp] theorem memWrite_contrast (o : Nat) (v : Byte) : (memWrite o v s).contrast = s.contrast := rfl
@[simp] theorem memWrite_lastfail (o : Nat) (v : Byte) : (memWrite o v s).lastfail = s.lastfail := rfl
@[simp] theorem memWrite_ill (o : Nat) (v : Byte) : (memWrite o v s).ill = s.ill := rfl
@[simp] theorem memWrite_illcause (o : Nat) (v : Byte) : (memWrite o v s).illcause = s.illcause := rfl
@[simp] theorem memWrite_result (o : Nat) (v : Byte) : (memWrite o v s).result = s.result := rfl
@[simp] theorem memWrite_asm (o : Nat) (v : Byte) : (memWrite o v s).asm = s.asm := rfl
@[simp] theorem memWrite_port (o : Nat) (v : Byte) : (memWrite o v s).port = s.port := rfl
@[simp] theorem memWrite_busTrace (o : Nat) (v : Byte) : (memWrite o v s).busTrace = s.busTrace := rfl
@[simp] theorem memWrite_answers (o : Nat) (v : Byte) : (memWrite o v s).answers = s.answers := rfl
@[simp] theorem memWrite_draws (o : Nat) (v : Byte) : (memWrite o v s).draws = s.draws := rfl
@[simp] theorem memWrite_resets (o : Nat) (v : Byte) : (memWrite o v s).resets = s.resets := rfl

@[simp] theorem fillAll_config (v : Byte) : (fillAll v s).config = s.config := rfl
@[simp] theorem fillAll_fb (v : Byte) : (fillAll v s).fb = memFill (BUFSZ s.config) v s.fb := rfl
@[simp] theorem fillAll_curx (v : Byte) : (fillAll v s).curx = s.curx := rfl
@[simp] theorem fillAll_cury (v : Byte) : (fillAll v s).cury = s.cury := rfl
@[simp] theorem fillAll_ucur (v : Byte) : (fillAll v s).ucur = s.ucur := rfl
@[simp] theorem fillAll_dstate (v : Byte) : (fillAll v s).dstate = s.dstate := rfl
@[simp] theorem fillAll_inv (v : Byte) : (fillAll v s).inv = s.inv := rfl
@[simp] theorem fillAll_contrast (v : Byte) : (fillAll v s).contrast = s.contrast := rfl
@[simp] theorem fillAll_lastfail (v : Byte) : (fillAll v s).lastfail = s.lastfail := rfl
@[simp] theorem fillAll_ill (v : Byte) : (fillAll v s).ill = s.ill := rfl
@[simp] theorem fillAll_illcause (v : Byte) : (fillAll v s).illcause = s.illcause := rfl
@[simp] theorem fillAll_result (v : Byte) : (fillAll v s).result = s.result := rfl
@[simp] theorem fillAll_asm (v : Byte) : (fillAll v s).asm = s.asm := rfl
@[simp] theorem fillAll_port (v : Byte) : (fillAll v s).port = s.port := rfl
@[simp] theorem fillAll_busTrace (v : Byte) : (fillAll v s).busTrace = s.busTrace := rfl
@[simp] theorem fillAll_answers (v : Byte) : (fillAll v s).answers = s.answers := rfl
@[simp] theorem fillAll_draws (v : Byte) : (fillAll v s).draws = s.draws := rfl
@[simp] theorem fillAll_resets (v : Byte) : (fillAll v s).resets = s.resets := rfl

@[simp] theorem endBusCommand_config (ok : Bool) (res : Word) : (endBusCommand ok res s).config = s.config := rfl
@[simp] theorem endBusCommand_fb (ok : Bool) (res : Word) : (endBusCommand ok res s).fb = s.fb := rfl
@[simp] theorem endBusCommand_curx (ok : Bool) (res : Word) : (endBusCommand ok res s).curx = s.curx := rfl
@[simp] theorem endBusCommand_cury (ok : Bool) (res : Word) : (endBusCommand ok res s).cury = s.cury := rfl
@[simp] theorem endBusCommand_ucur (ok : Bool) (res : Word) : (endBusCommand ok res s).ucur = s.ucur := rfl
@[simp] theorem endBusCommand_dstate (ok : Bool) (res : Word) : (endBusCommand ok res s).dstate = s.dstate := rfl
@[simp] theorem endBusCommand_inv (ok : Bool) (res : Word) : (endBusCommand ok res s).inv = s.inv := rfl
@[simp] theorem endBusCommand_contrast (ok : Bool) (res : Word) : (endBusCommand ok res s).contrast = s.contrast := rfl
@[simp] theorem endBusCommand_lastfail (ok : Bool) (res : Word) : (endBusCommand ok res s).lastfail = !ok := rfl
@[simp] theorem endBusCommand_ill (ok : Bool) (res : Word) : (endBusCommand ok res s).ill = s.ill := rfl
@[simp] theorem endBusCommand_illcause (ok : Bool) (res : Word) : (endBusCommand ok res s).illcause = s.illcause := rfl
@[simp] theorem endBusCommand_result (ok : Bool) (res : Word) : (endBusCommand ok res s).result = res := rfl
@[simp] theorem endBusCommand_asm (ok : Bool) (res : Word) : (endBusCommand ok res s).asm = s.asm := rfl
@[simp] theorem endBusCommand_port (ok : Bool) (res : Word) : (endBusCommand ok res s).port = s.port := rfl
@[simp] theorem endBusCommand_busTrace (ok : Bool) (res : Word) : (endBusCommand ok res s).busTrace = s.busTrace := rfl
@[simp] theorem endBusCommand_answers (ok : Bool) (res : Word) : (endBusCommand ok res s).answers = s.answers := rfl
@[simp] theorem endBusCommand_draws (ok : Bool) (res : Word) : (endBusCommand ok res s).draws = s.draws := rfl
@[simp] theorem endBusCommand_resets (ok : Bool) (res : Word) : (endBusCommand ok res s).resets = s.resets := rfl

@[simp] theorem logTx_config (r : BusRecord) : (logTx r s).config = s.config := rfl
@[simp] theorem logTx_fb (r : BusRecord) : (logTx r s).fb = s.fb := rfl
@[simp] theorem logTx_curx (r : BusRecord) : (logTx r s).curx = s.curx := rfl
@[simp] theorem logTx_cury (r : BusRecord) : (logTx r s).cury = s.cury := rfl
@[simp] theorem logTx_ucur (r : BusRecord) : (logTx r s).ucur = s.ucur := rfl
@[simp] theorem logTx_dstate (r : BusRecord) : (logTx r s).dstate = s.dstate := rfl
@[simp] theorem logTx_inv (r : BusRecord) : (logTx r s).inv = s.inv := rfl
@[simp] theorem logTx_contrast (r : BusRecord) : (logTx r s).contrast = s.contrast := rfl
@[simp] theorem logTx_lastfail (r : BusRecord) : (logTx r s).lastfail = s.lastfail := rfl
@[simp] theorem logTx_ill (r : BusRecord) : (logTx r s).ill = s.ill := rfl
@[simp] theorem logTx_illcause (r : BusRecord) : (logTx r s).illcause = s.illcause := rfl
@[simp] theorem logTx_result (r : BusRecord) : (logTx r s).result = s.result := rfl
@[simp] theorem logTx_asm (r : BusRecord) : (logTx r s).asm = s.asm := rfl
@[simp] theorem logTx_port (r : BusRecord) : (logTx r s).port = s.port := rfl
@[simp] theorem logTx_busTrace (r : BusRecord) : (logTx r s).busTrace = s.busTrace ++ [r] := rfl
@[simp] theorem logTx_answers (r : BusRecord) : (logTx r s).answers = s.answers := rfl
@[simp] theorem logTx_draws (r : BusRecord) : (logTx r s).draws = s.draws := rfl
@[simp] theorem logTx_resets (r : BusRecord) : (logTx r s).resets = s.resets := rfl

@[simp] theorem takeCommand_config (rest : List Word) : (takeCommand rest s).config = s.config := rfl
@[simp] theorem takeCommand_fb (rest : List Word) : (takeCommand rest s).fb = s.fb := rfl
@[simp] theorem takeCommand_curx (rest : List Word) : (takeCommand rest s).curx = s.curx := rfl
@[simp] theorem takeCommand_cury (rest : List Word) : (takeCommand rest s).cury = s.cury := rfl
@[simp] theorem takeCommand_ucur (rest : List Word) : (takeCommand rest s).ucur = s.ucur := rfl
@[simp] theorem takeCommand_dstate (rest : List Word) : (takeCommand rest s).dstate = s.dstate := rfl
@[simp] theorem takeCommand_inv (rest : List Word) : (takeCommand rest s).inv = s.inv := rfl
@[simp] theorem takeCommand_contrast (rest : List Word) : (takeCommand rest s).contrast = s.contrast := rfl
@[simp] theorem takeCommand_lastfail (rest : List Word) : (takeCommand rest s).lastfail = s.lastfail := rfl
@[simp] theorem takeCommand_ill (rest : List Word) : (takeCommand rest s).ill = s.ill := rfl
@[simp] theorem takeCommand_illcause (rest : List Word) : (takeCommand rest s).illcause = s.illcause := rfl
@[simp] theorem takeCommand_result (rest : List Word) : (takeCommand rest s).result = s.result := rfl
@[simp] theorem takeCommand_asm (rest : List Word) : (takeCommand rest s).asm = [] := rfl
@[simp] theorem takeCommand_port (rest : List Word) : (takeCommand rest s).port = rest := rfl
@[simp] theorem takeCommand_busTrace (rest : List Word) : (takeCommand rest s).busTrace = s.busTrace := rfl
@[simp] theorem takeCommand_answers (rest : List Word) : (takeCommand rest s).answers = s.answers := rfl
@[simp] theorem takeCommand_draws (rest : List Word) : (takeCommand rest s).draws = s.draws := rfl
@[simp] theorem takeCommand_resets (rest : List Word) : (takeCommand rest s).resets = s.resets := rfl

@[simp] theorem holdWords_config : (holdWords s).config = s.config := rfl
@[simp] theorem holdWords_fb : (holdWords s).fb = s.fb := rfl
@[simp] theorem holdWords_curx : (holdWords s).curx = s.curx := rfl
@[simp] theorem holdWords_cury : (holdWords s).cury = s.cury := rfl
@[simp] theorem holdWords_ucur : (holdWords s).ucur = s.ucur := rfl
@[simp] theorem holdWords_dstate : (holdWords s).dstate = s.dstate := rfl
@[simp] theorem holdWords_inv : (holdWords s).inv = s.inv := rfl
@[simp] theorem holdWords_contrast : (holdWords s).contrast = s.contrast := rfl
@[simp] theorem holdWords_lastfail : (holdWords s).lastfail = s.lastfail := rfl
@[simp] theorem holdWords_ill : (holdWords s).ill = s.ill := rfl
@[simp] theorem holdWords_illcause : (holdWords s).illcause = s.illcause := rfl
@[simp] theorem holdWords_result : (holdWords s).result = s.result := rfl
@[simp] theorem holdWords_asm : (holdWords s).asm = s.asm ++ s.port := rfl
@[simp] theorem holdWords_port : (holdWords s).port = [] := rfl
@[simp] theorem holdWords_busTrace : (holdWords s).busTrace = s.busTrace := rfl
@[simp] theorem holdWords_answers : (holdWords s).answers = s.answers := rfl
@[simp] theorem holdWords_draws : (holdWords s).draws = s.draws := rfl
@[simp] theorem holdWords_resets : (holdWords s).resets = s.resets := rfl

@[simp] theorem raiseIllegal_config (cause : IllCause) (word : Word) : (raiseIllegal cause word s).config = s.config := rfl
@[simp] theorem raiseIllegal_fb (cause : IllCause) (word : Word) : (raiseIllegal cause word s).fb = s.fb := rfl
@[simp] theorem raiseIllegal_curx (cause : IllCause) (word : Word) : (raiseIllegal cause word s).curx = s.curx := rfl
@[simp] theorem raiseIllegal_cury (cause : IllCause) (word : Word) : (raiseIllegal cause word s).cury = s.cury := rfl
@[simp] theorem raiseIllegal_ucur (cause : IllCause) (word : Word) : (raiseIllegal cause word s).ucur = s.ucur := rfl
@[simp] theorem raiseIllegal_dstate (cause : IllCause) (word : Word) : (raiseIllegal cause word s).dstate = s.dstate := rfl
@[simp] theorem raiseIllegal_inv (cause : IllCause) (word : Word) : (raiseIllegal cause word s).inv = s.inv := rfl
@[simp] theorem raiseIllegal_contrast (cause : IllCause) (word : Word) : (raiseIllegal cause word s).contrast = s.contrast := rfl
@[simp] theorem raiseIllegal_lastfail (cause : IllCause) (word : Word) : (raiseIllegal cause word s).lastfail = s.lastfail := rfl
@[simp] theorem raiseIllegal_ill (cause : IllCause) (word : Word) : (raiseIllegal cause word s).ill = true := rfl
@[simp] theorem raiseIllegal_illcause (cause : IllCause) (word : Word) : (raiseIllegal cause word s).illcause = illCauseCode cause := rfl
@[simp] theorem raiseIllegal_result (cause : IllCause) (word : Word) : (raiseIllegal cause word s).result = word := rfl
@[simp] theorem raiseIllegal_asm (cause : IllCause) (word : Word) : (raiseIllegal cause word s).asm = s.asm := rfl
@[simp] theorem raiseIllegal_port (cause : IllCause) (word : Word) : (raiseIllegal cause word s).port = s.port := rfl
@[simp] theorem raiseIllegal_busTrace (cause : IllCause) (word : Word) : (raiseIllegal cause word s).busTrace = s.busTrace := rfl
@[simp] theorem raiseIllegal_answers (cause : IllCause) (word : Word) : (raiseIllegal cause word s).answers = s.answers := rfl
@[simp] theorem raiseIllegal_draws (cause : IllCause) (word : Word) : (raiseIllegal cause word s).draws = s.draws := rfl
@[simp] theorem raiseIllegal_resets (cause : IllCause) (word : Word) : (raiseIllegal cause word s).resets = s.resets := rfl

@[simp] theorem platformReset_config : (platformReset s).config = s.config := rfl
@[simp] theorem platformReset_fb : (platformReset s).fb = [] := rfl
@[simp] theorem platformReset_curx : (platformReset s).curx = 0 := rfl
@[simp] theorem platformReset_cury : (platformReset s).cury = 0 := rfl
@[simp] theorem platformReset_ucur : (platformReset s).ucur = 0 := rfl
@[simp] theorem platformReset_dstate : (platformReset s).dstate = .uninit := rfl
@[simp] theorem platformReset_inv : (platformReset s).inv = false := rfl
@[simp] theorem platformReset_contrast : (platformReset s).contrast = 0 := rfl
@[simp] theorem platformReset_lastfail : (platformReset s).lastfail = false := rfl
@[simp] theorem platformReset_ill : (platformReset s).ill = false := rfl
@[simp] theorem platformReset_illcause : (platformReset s).illcause = 0 := rfl
@[simp] theorem platformReset_result : (platformReset s).result = 0 := rfl
@[simp] theorem platformReset_asm : (platformReset s).asm = [] := rfl
@[simp] theorem platformReset_port : (platformReset s).port = s.port := rfl
@[simp] theorem platformReset_busTrace : (platformReset s).busTrace = s.busTrace := rfl
@[simp] theorem platformReset_answers : (platformReset s).answers = s.answers := rfl
@[simp] theorem platformReset_draws : (platformReset s).draws = s.draws := rfl
@[simp] theorem platformReset_resets : (platformReset s).resets = s.resets + 1 := rfl

/-! Taking an adapter answer changes `answers` and `draws` only. -/

@[simp] theorem takeAnswer_config : (takeAnswer s).config = s.config := by unfold takeAnswer; split <;> rfl
@[simp] theorem takeAnswer_fb : (takeAnswer s).fb = s.fb := by unfold takeAnswer; split <;> rfl
@[simp] theorem takeAnswer_curx : (takeAnswer s).curx = s.curx := by unfold takeAnswer; split <;> rfl
@[simp] theorem takeAnswer_cury : (takeAnswer s).cury = s.cury := by unfold takeAnswer; split <;> rfl
@[simp] theorem takeAnswer_ucur : (takeAnswer s).ucur = s.ucur := by unfold takeAnswer; split <;> rfl
@[simp] theorem takeAnswer_dstate : (takeAnswer s).dstate = s.dstate := by unfold takeAnswer; split <;> rfl
@[simp] theorem takeAnswer_inv : (takeAnswer s).inv = s.inv := by unfold takeAnswer; split <;> rfl
@[simp] theorem takeAnswer_contrast : (takeAnswer s).contrast = s.contrast := by unfold takeAnswer; split <;> rfl
@[simp] theorem takeAnswer_lastfail : (takeAnswer s).lastfail = s.lastfail := by unfold takeAnswer; split <;> rfl
@[simp] theorem takeAnswer_ill : (takeAnswer s).ill = s.ill := by unfold takeAnswer; split <;> rfl
@[simp] theorem takeAnswer_illcause : (takeAnswer s).illcause = s.illcause := by unfold takeAnswer; split <;> rfl
@[simp] theorem takeAnswer_result : (takeAnswer s).result = s.result := by unfold takeAnswer; split <;> rfl
@[simp] theorem takeAnswer_asm : (takeAnswer s).asm = s.asm := by unfold takeAnswer; split <;> rfl
@[simp] theorem takeAnswer_port : (takeAnswer s).port = s.port := by unfold takeAnswer; split <;> rfl
@[simp] theorem takeAnswer_busTrace : (takeAnswer s).busTrace = s.busTrace := by unfold takeAnswer; split <;> rfl
@[simp] theorem takeAnswer_resets : (takeAnswer s).resets = s.resets := by unfold takeAnswer; split <;> rfl

end Sys2Proof.Machine
end

