-- ==== Sys2Proof/Laws/Bus.lean ====
section
/-! SUPPORT. Everything the bus operations do: `busSeq` and so every bus-class command adds to the trace exactly what
`issue` says, takes one answer for each transaction, and touches nothing else. -/

namespace Sys2Proof.Machine

theorem nextAnswer_eq_answerAt (s : State) : nextAnswer s = answerAt s 0 := by
  unfold nextAnswer answerAt
  cases h : s.answers <;> simp

theorem takeAnswer_eq (s : State) :
    takeAnswer s = { s with answers := s.answers.drop 1, draws := s.draws + (1 - s.answers.length) } := by
  unfold takeAnswer
  cases h : s.answers <;> simp

/-- One transaction: its record in the trace, one answer taken. -/
theorem busTx_eq (t : BusTx) (s : State) :
    busTx t s = (answerAt s 0, afterBus [{ tx := t, ok := answerAt s 0 }] s) := by
  unfold busTx logTx afterBus
  rw [nextAnswer_eq_answerAt, takeAnswer_eq]
  rfl

@[simp] theorem afterBus_nil (s : State) : afterBus [] s = s := by simp [afterBus]

/-- Transactions one after another. -/
theorem afterBus_append (r r' : List BusRecord) (s : State) : afterBus (r ++ r') s = afterBus r' (afterBus r s) := by
  simp only [afterBus, List.append_assoc, List.length_append, List.length_drop, List.drop_drop]
  congr 1
  omega

theorem answerAt_afterBus (recs : List BusRecord) (s : State) (k : Nat) :
    answerAt (afterBus recs s) k = answerAt s (recs.length + k) := by
  unfold answerAt afterBus
  simp only [List.getElem?_drop, List.length_drop]
  rw [show s.draws + (recs.length - s.answers.length) + (k - (s.answers.length - recs.length)) =
    s.draws + (recs.length + k - s.answers.length) by omega]

/-- Answers are counted from the first transaction. -/
theorem issue_shift (ans : Nat → Bool) (j k : Nat) (ts : List BusTx) :
    issue (fun i => ans (j + i)) k ts = issue ans (j + k) ts := by
  induction ts generalizing k with
  | nil => rfl
  | cons t ts ih => simp only [issue, ih, Nat.add_assoc]

/-- Everything `BusSeq` does (R13, R212). -/
theorem busSeq_eq (ts : List BusTx) (s : State) :
    busSeq ts s = (allOk (issue (answerAt s) 0 ts), afterBus (issue (answerAt s) 0 ts) s) := by
  induction ts generalizing s with
  | nil => simp [busSeq, issue, allOk]
  | cons t ts ih =>
    rw [busSeq, busTx_eq, issue]
    cases h : answerAt s 0
    · simp [allOk]
    · have ha : (answerAt (afterBus [{ tx := t, ok := true }] s)) = fun i => answerAt s (1 + i) := by
        funext i; rw [answerAt_afterBus]; rfl
      simp only [if_true, ih]
      rw [ha, issue_shift, show (1 + 0) = 0 + 1 from rfl]
      refine Prod.ext ?_ ?_
      · simp [allOk]
      · rw [← afterBus_append]; rfl

theorem issue_append (ans : Nat → Bool) (k : Nat) (ts us : List BusTx) :
    issue ans k (ts ++ us) =
      if allOk (issue ans k ts) then issue ans k ts ++ issue ans (k + ts.length) us else issue ans k ts := by
  induction ts generalizing k with
  | nil => simp [issue, allOk]
  | cons t ts ih =>
    rw [List.cons_append, issue, issue, ih]
    have hk : k + 1 + ts.length = k + (t :: ts).length := by simp; omega
    cases ans k
    · simp [allOk]
    · rw [hk]
      by_cases h : allOk (issue ans (k + 1) ts) = true
      · have h' : allOk ({ tx := t, ok := true } :: issue ans (k + 1) ts) = true := by simpa [allOk] using h
        simp [h, h']
      · have h' : ¬ allOk ({ tx := t, ok := true } :: issue ans (k + 1) ts) = true := by simpa [allOk] using h
        simp [h, h']

/-- With every answer success, every transaction is issued. -/
theorem issue_allOk {ans : Nat → Bool} {k : Nat} {ts : List BusTx} (h : allOk (issue ans k ts) = true) :
    (issue ans k ts).map (fun r => r.tx) = ts := by
  induction ts generalizing k with
  | nil => rfl
  | cons t ts ih =>
    rw [issue] at h ⊢
    cases hk : ans k
    · rw [hk] at h; simp [allOk] at h
    · rw [hk] at h
      have h' : allOk (issue ans (k + 1) ts) = true := by simpa [allOk] using h
      simp [ih h']

/-- What is issued is a beginning of the list. -/
theorem issue_prefix (ans : Nat → Bool) (k : Nat) (ts : List BusTx) :
    (issue ans k ts).map (fun r => r.tx) <+: ts := by
  induction ts generalizing k with
  | nil => simp [issue]
  | cons t ts ih =>
    rw [issue]
    cases ans k
    · simp
    · simpa using ih (k + 1)

/-- Only the last transaction issued can have failed (R212). -/
theorem issue_dropLast_ok (ans : Nat → Bool) (k : Nat) (ts : List BusTx) :
    ∀ r ∈ (issue ans k ts).dropLast, r.ok = true := by
  induction ts generalizing k with
  | nil => simp [issue]
  | cons t ts ih =>
    rw [issue]
    cases ans k
    · simp
    · intro r hr
      cases hi : issue ans (k + 1) ts with
      | nil => simp [hi] at hr
      | cons q qs =>
        rw [if_pos rfl, hi, List.dropLast_cons_of_ne_nil (by simp)] at hr
        rcases List.mem_cons.1 hr with rfl | hr
        · rfl
        · exact ih (k + 1) r (by rw [hi]; exact hr)

/-- The `j`-th transaction issued has the `j`-th answer. -/
theorem issue_ok_eq (ans : Nat → Bool) (k : Nat) (ts : List BusTx) :
    (issue ans k ts).map (fun r => r.ok) = (List.range (issue ans k ts).length).map fun j => ans (k + j) := by
  induction ts generalizing k with
  | nil => rfl
  | cons t ts ih =>
    rw [issue]
    cases h : ans k
    · simp [h]
    · simp only [if_true, List.map_cons, ih, List.length_cons, List.range_succ_eq_map, List.map_map]
      simp [h, Nat.add_assoc, Nat.add_comm 1]

end Sys2Proof.Machine
end

