-- ==== Sys2Proof/Laws/Decode.lean ====
section
/-! SUPPORT. The small laws of the encoding: the fields of an encoded header, the halves of an argument word, the
payload's packing, and what each reading combinator does. -/

namespace Sys2Proof
open Machine

/-! Header fields (R102). -/

@[simp] theorem opField_headerWord (op imm : Byte) (c : Bool) : opField (headerWord op imm c) = op := by
  apply BitVec.eq_of_getLsbD_eq
  intro i hi
  simp only [opField, headerWord, BitVec.getLsbD_extractLsb', BitVec.getLsbD_append]
  have h1 : ¬ 24 + i < 8 + (8 + (7 + 1)) := by omega
  simp [hi, h1]

@[simp] theorem rsvAField_headerWord (op imm : Byte) (c : Bool) : rsvAField (headerWord op imm c) = 0 := by
  apply BitVec.eq_of_getLsbD_eq
  intro i hi
  simp only [rsvAField, headerWord, BitVec.getLsbD_extractLsb', BitVec.getLsbD_append]
  have h1 : 16 + i < 8 + (8 + (7 + 1)) := by omega
  have h2 : ¬ 16 + i < 8 + (7 + 1) := by omega
  simp [h1, h2]

@[simp] theorem immField_headerWord (op imm : Byte) (c : Bool) : immField (headerWord op imm c) = imm := by
  apply BitVec.eq_of_getLsbD_eq
  intro i hi
  simp only [immField, headerWord, BitVec.getLsbD_extractLsb', BitVec.getLsbD_append]
  have h1 : 8 + i < 8 + (8 + (7 + 1)) := by omega
  have h2 : 8 + i < 8 + (7 + 1) := by omega
  have h3 : ¬ 8 + i < 7 + 1 := by omega
  simp [hi, h1, h2, h3]

@[simp] theorem rsvBField_headerWord (op imm : Byte) (c : Bool) : rsvBField (headerWord op imm c) = 0 := by
  apply BitVec.eq_of_getLsbD_eq
  intro i hi
  simp only [rsvBField, headerWord, BitVec.getLsbD_extractLsb', BitVec.getLsbD_append]
  have h1 : 1 + i < 8 + (8 + (7 + 1)) := by omega
  have h2 : 1 + i < 8 + (7 + 1) := by omega
  have h3 : 1 + i < 7 + 1 := by omega
  have h4 : ¬ 1 + i < 1 := by omega
  simp [h1, h2, h3, h4]

@[simp] theorem colourField_headerWord (op imm : Byte) (c : Bool) : colourField (headerWord op imm c) = c := by
  unfold colourField headerWord
  rw [BitVec.getLsbD_append, if_pos (by decide), BitVec.getLsbD_append, if_pos (by decide), BitVec.getLsbD_append,
    if_pos (by decide), BitVec.getLsbD_append, if_pos (by decide)]
  cases c <;> rfl

@[simp] theorem rsvClear_headerWord (op imm : Byte) (c : Bool) : rsvClear (headerWord op imm c) = true := by
  simp [rsvClear]

/-- A header word is its five fields. -/
theorem headerWord_fields (h : Word) (hA : rsvAField h = 0) (hB : rsvBField h = 0) :
    headerWord (opField h) (immField h) (colourField h) = h := by
  apply BitVec.eq_of_getLsbD_eq
  intro i hi
  have eA : ∀ k, k < 8 → h.getLsbD (16 + k) = false := fun k hk => by
    have := congrArg (fun v => v.getLsbD k) hA
    simpa [rsvAField, BitVec.getLsbD_extractLsb', hk] using this
  have eB : ∀ k, k < 7 → h.getLsbD (1 + k) = false := fun k hk => by
    have := congrArg (fun v => v.getLsbD k) hB
    simpa [rsvBField, BitVec.getLsbD_extractLsb', hk] using this
  simp only [headerWord, opField, immField, colourField, BitVec.getLsbD_append, BitVec.getLsbD_extractLsb']
  by_cases c0 : i < 1
  · have : i = 0 := by omega
    subst this; simp
  · by_cases c1 : i < 8
    · have e : i = 1 + (i - 1) := by omega
      have := eB (i - 1) (by omega)
      rw [← e] at this
      simp [show i < 8 + (8 + (7 + 1)) by omega, show i < 8 + (7 + 1) by omega, show i < 7 + 1 by omega, c0, this]
    · by_cases c2 : i < 16
      · simp [show i < 8 + (8 + (7 + 1)) by omega, show i < 8 + (7 + 1) by omega, show ¬ i < 7 + 1 by omega,
          show i - (7 + 1) < 8 by omega, show 8 + (i - 8) = i by omega]
      · by_cases c3 : i < 24
        · have e : i = 16 + (i - 16) := by omega
          have := eA (i - 16) (by omega)
          rw [← e] at this
          simp [show i < 8 + (8 + (7 + 1)) by omega, show ¬ i < 8 + (7 + 1) by omega, this]
        · simp [show ¬ i < 8 + (8 + (7 + 1)) by omega, show i - (8 + (8 + (7 + 1))) < 8 by omega,
            show 24 + (i - 24) = i by omega]

/-! Argument words (R104-R109). -/

@[simp] theorem loHalf_argWord (lo hi : Half) : loHalf (argWord lo hi) = lo := by
  apply BitVec.eq_of_getLsbD_eq
  intro i hi'
  rw [loHalf, BitVec.getLsbD_extractLsb', argWord, BitVec.getLsbD_append]
  simp [hi']

@[simp] theorem hiHalf_argWord (lo hi : Half) : hiHalf (argWord lo hi) = hi := by
  apply BitVec.eq_of_getLsbD_eq
  intro i hi'
  rw [hiHalf, BitVec.getLsbD_extractLsb', argWord, BitVec.getLsbD_append]
  simp [hi']

/-- An argument word is its two halves. -/
theorem argWord_halves (a : Word) : argWord (loHalf a) (hiHalf a) = a := by
  apply BitVec.eq_of_getLsbD_eq
  intro i hi
  simp only [argWord, loHalf, hiHalf, BitVec.getLsbD_append, BitVec.getLsbD_extractLsb']
  by_cases h : i < 16
  · simp [h]
  · simp [h, show i - 16 < 16 by omega, show 16 + (i - 16) = i by omega]

@[simp] theorem hiHalf_lenWord (str : List Byte) : hiHalf (lenWord str) = 0 := by simp [lenWord]

theorem uint16_lenWord {str : List Byte} (h : str.length ≤ 65535) : uint16 (loHalf (lenWord str)) = str.length := by
  simp only [lenWord, loHalf_argWord, uint16, BitVec.toNat_ofNat]
  exact Nat.mod_eq_of_lt (by omega)

/-! Payload (R110). -/

@[simp] theorem wordBytes_packWord (b0 b1 b2 b3 : Byte) : wordBytes (packWord b0 b1 b2 b3) = [b0, b1, b2, b3] := by
  simp only [wordBytes, packWord, List.cons.injEq, and_true]
  refine ⟨?_, ?_, ?_, ?_⟩ <;>
    (apply BitVec.eq_of_getLsbD_eq; intro i hi; simp only [BitVec.getLsbD_extractLsb', BitVec.getLsbD_append])
  · simp [hi, show i < 24 by omega, show i < 16 by omega]
  · simp [hi, show 8 + i < 8 + (8 + 8) by omega, show 8 + i < 8 + 8 by omega, show ¬ 8 + i < 8 by omega]
  · simp [hi, show 16 + i < 8 + (8 + 8) by omega, show ¬ 16 + i < 8 + 8 by omega]
  · simp [hi, show ¬ 24 + i < 8 + (8 + 8) by omega]

theorem packBytes_length (bs : List Byte) : (packBytes bs).length = payloadWords bs.length := by
  induction bs using packBytes.induct with
  | case1 => rfl
  | case2 => simp [packBytes, payloadWords]
  | case3 => simp [packBytes, payloadWords]
  | case4 => simp [packBytes, payloadWords]
  | case5 a b c d rest ih => simp only [packBytes, List.length_cons, ih, payloadWords]; omega

/-- The packed words hold the bytes, then padding. -/
theorem wordBytes_packBytes (bs : List Byte) : ∃ pad, (packBytes bs).flatMap wordBytes = bs ++ pad := by
  induction bs using packBytes.induct with
  | case1 => exact ⟨[], rfl⟩
  | case2 a => exact ⟨[0, 0, 0], by simp [packBytes]⟩
  | case3 a b => exact ⟨[0, 0], by simp [packBytes]⟩
  | case4 a b c => exact ⟨[0], by simp [packBytes]⟩
  | case5 a b c d rest ih =>
    obtain ⟨pad, h⟩ := ih
    exact ⟨pad, by simp [packBytes, h]⟩

/-- Unpacking what was packed gives it back, whatever follows. -/
theorem payloadBytes_packBytes (bs : List Byte) (rest : List Word) :
    payloadBytes bs.length (packBytes bs ++ rest) = bs := by
  obtain ⟨pad, h⟩ := wordBytes_packBytes bs
  have ht : (packBytes bs ++ rest).take (payloadWords bs.length) = packBytes bs := by
    rw [← packBytes_length]; simp
  rw [payloadBytes, ht, h]
  simp

theorem wordBytes_flatMap_length (ws : List Word) : (ws.flatMap wordBytes).length = 4 * ws.length := by
  induction ws with
  | nil => rfl
  | cons w ws ih => simp only [List.flatMap_cons, List.length_append, ih, List.length_cons]; simp [wordBytes]; omega

/-- A payload whose words are all there has its length. -/
theorem payloadBytes_length {n : Nat} {ws : List Word} (h : payloadWords n ≤ ws.length) :
    (payloadBytes n ws).length = n := by
  have : (ws.take (payloadWords n)).length = payloadWords n := by simp [h]
  simp only [payloadBytes, List.length_take, wordBytes_flatMap_length, this]
  unfold payloadWords
  omega

/-- Only the payload's own words count. -/
theorem payloadBytes_append {n : Nat} {ws : List Word} (h : payloadWords n ≤ ws.length) (more : List Word) :
    payloadBytes n (ws ++ more) = payloadBytes n ws := by
  rw [payloadBytes, List.take_append_of_le_length h, payloadBytes]

/-- Reading a payload off the front of a stream, whatever its padding. -/
theorem withPayload_append {n : Nat} {pay : List Word} (h : pay.length = payloadWords n) (rest : List Word)
    (k : List Byte → List Word → DecodeResult) : withPayload n (pay ++ rest) k = k (payloadBytes n pay) rest := by
  rw [withPayload, if_pos (by simp [h]), payloadBytes_append h.ge, ← h, List.drop_left]

/-- Reading a packed payload off the front of a stream. -/
theorem withPayload_packBytes (bs : List Byte) (rest : List Word) (k : List Byte → List Word → DecodeResult) :
    withPayload bs.length (packBytes bs ++ rest) k = k bs rest := by
  have h := payloadBytes_packBytes bs []
  rw [List.append_nil] at h
  rw [withPayload_append (packBytes_length bs), h]

@[simp] theorem withArg_cons (a : Word) (ws : List Word) (k : Word → List Word → DecodeResult) :
    withArg (a :: ws) k = k a ws := rfl

theorem withLowArg_cons_zero {a : Word} (h : hiHalf a = 0) (ws : List Word) (k : Half → List Word → DecodeResult) :
    withLowArg (a :: ws) k = k (loHalf a) ws := by simp [withLowArg, h]

theorem withLowArg_cons_bad {a : Word} (h : hiHalf a ≠ 0) (ws : List Word) (k : Half → List Word → DecodeResult) :
    withLowArg (a :: ws) k = .illegal .argReserved a ws := by
  rw [withLowArg, if_neg h]

/-! What each combinator reads, and what a success or a failure of it says about the words. -/

theorem withF0_headerWord (op : Byte) (ws : List Word) (k : DecodeResult) :
    withF0 (headerWord op 0#8 false) ws k = k := by simp [withF0]

theorem withFC_headerWord (op : Byte) (c : Bool) (ws : List Word) (k : Bool → DecodeResult) :
    withFC (headerWord op 0#8 c) ws k = k c := by simp [withFC]

theorem withFI_headerWord (op imm : Byte) (ws : List Word) (k : Byte → DecodeResult) :
    withFI (headerWord op imm false) ws k = k imm := by simp [withFI]

theorem withFIC_headerWord (op imm : Byte) (c : Bool) (ws : List Word) (k : Byte → Bool → DecodeResult) :
    withFIC (headerWord op imm c) ws k = k imm c := by simp [withFIC]

/-- F0: either the header is exactly its opcode, or it is illegal with cause 2. -/
theorem withF0_cases (h : Word) (ws : List Word) (k : DecodeResult) :
    (h = headerWord (opField h) 0 false ∧ withF0 h ws k = k) ∨
      ((∀ op, h ≠ headerWord op 0 false) ∧ withF0 h ws k = .illegal .headerReserved h ws) := by
  unfold withF0
  split
  · rename_i hc
    simp only [rsvClear, Bool.and_eq_true, decide_eq_true_eq, Bool.not_eq_true'] at hc
    refine .inl ⟨?_, rfl⟩
    have := headerWord_fields h hc.1.1.1 hc.1.1.2
    rw [hc.1.2, hc.2] at this
    exact this.symm
  · rename_i hc
    exact .inr ⟨fun op he => hc (by rw [he]; simp), rfl⟩

/-- FC: either the header is its opcode and colour, or it is illegal with cause 2. -/
theorem withFC_cases (h : Word) (ws : List Word) (k : Bool → DecodeResult) :
    (h = headerWord (opField h) 0 (colourField h) ∧ withFC h ws k = k (colourField h)) ∨
      ((∀ op c, h ≠ headerWord op 0 c) ∧ withFC h ws k = .illegal .headerReserved h ws) := by
  unfold withFC
  split
  · rename_i hc
    simp only [rsvClear, Bool.and_eq_true, decide_eq_true_eq] at hc
    refine .inl ⟨?_, rfl⟩
    have := headerWord_fields h hc.1.1 hc.1.2
    rw [hc.2] at this
    exact this.symm
  · rename_i hc
    exact .inr ⟨fun op c he => hc (by rw [he]; simp), rfl⟩

/-- FI: either the header is its opcode and immediate, or it is illegal with cause 2. -/
theorem withFI_cases (h : Word) (ws : List Word) (k : Byte → DecodeResult) :
    (h = headerWord (opField h) (immField h) false ∧ withFI h ws k = k (immField h)) ∨
      ((∀ op imm, h ≠ headerWord op imm false) ∧ withFI h ws k = .illegal .headerReserved h ws) := by
  unfold withFI
  split
  · rename_i hc
    simp only [rsvClear, Bool.and_eq_true, decide_eq_true_eq, Bool.not_eq_true'] at hc
    refine .inl ⟨?_, rfl⟩
    have := headerWord_fields h hc.1.1 hc.1.2
    rw [hc.2] at this
    exact this.symm
  · rename_i hc
    exact .inr ⟨fun op imm he => hc (by rw [he]; simp), rfl⟩

/-- FIC: either the header is its opcode, immediate and colour, or it is illegal with cause 2. -/
theorem withFIC_cases (h : Word) (ws : List Word) (k : Byte → Bool → DecodeResult) :
    (h = headerWord (opField h) (immField h) (colourField h) ∧ withFIC h ws k = k (immField h) (colourField h)) ∨
      ((∀ op imm c, h ≠ headerWord op imm c) ∧ withFIC h ws k = .illegal .headerReserved h ws) := by
  unfold withFIC
  split
  · rename_i hc
    simp only [rsvClear, Bool.and_eq_true, decide_eq_true_eq] at hc
    exact .inl ⟨(headerWord_fields h hc.1 hc.2).symm, rfl⟩
  · rename_i hc
    exact .inr ⟨fun op imm c he => hc (by rw [he]; simp), rfl⟩

/-- An argument word is there, or the command waits for it. -/
theorem withArg_cases (ws : List Word) (k : Word → List Word → DecodeResult) :
    (ws = [] ∧ withArg ws k = .incomplete) ∨ ∃ a rest, ws = a :: rest ∧ withArg ws k = k a rest := by
  cases ws with
  | nil => exact .inl ⟨rfl, rfl⟩
  | cons a rest => exact .inr ⟨a, rest, rfl, rfl⟩

/-- An R or LEN word is there and legal, or it is illegal with cause 3, or the command waits for it. -/
theorem withLowArg_cases (ws : List Word) (k : Half → List Word → DecodeResult) :
    (ws = [] ∧ withLowArg ws k = .incomplete) ∨
      ∃ a rest, ws = a :: rest ∧
        ((hiHalf a = 0 ∧ a = argWord (loHalf a) 0 ∧ withLowArg ws k = k (loHalf a) rest) ∨
          (hiHalf a ≠ 0 ∧ withLowArg ws k = .illegal .argReserved a rest)) := by
  cases ws with
  | nil => exact .inl ⟨rfl, rfl⟩
  | cons a rest =>
    refine .inr ⟨a, rest, rfl, ?_⟩
    by_cases h : hiHalf a = 0
    · refine .inl ⟨h, ?_, withLowArg_cons_zero h rest k⟩
      have := argWord_halves a
      rw [h] at this
      exact this.symm
    · exact .inr ⟨h, withLowArg_cons_bad h rest k⟩

/-- The payload words are all there, or the command waits for them. -/
theorem withPayload_cases (n : Nat) (ws : List Word) (k : List Byte → List Word → DecodeResult) :
    (ws.length < payloadWords n ∧ withPayload n ws k = .incomplete) ∨
      ∃ pay rest, ws = pay ++ rest ∧ pay.length = payloadWords n ∧ withPayload n ws k = k (payloadBytes n pay) rest := by
  unfold withPayload
  split
  · rename_i h
    refine .inr ⟨ws.take (payloadWords n), ws.drop (payloadWords n), (List.take_append_drop _ _).symm, by simp [h], ?_⟩
    have : payloadBytes n (ws.take (payloadWords n)) = payloadBytes n ws := by
      rw [payloadBytes, List.take_take, Nat.min_self, payloadBytes]
    rw [this]
  · rename_i h
    exact .inl ⟨Nat.lt_of_not_le h, rfl⟩

/-! Instruction lengths (R111, "words in total"). -/

/-- The number of words of each command, the column of R111. -/
def totalWords : Instr → Nat
  | .init | .fill _ | .clear | .update | .tick | .getchunks | .getucur | .dispon | .dispoff | .toginv
  | .setbright _ | .getcursor | .wrchar _ _ => 1
  | .updchunk _ | .pixel _ _ _ | .setcursor _ _ | .rdfb _ | .wrfb _ _ => 2
  | .line _ _ _ _ _ | .rect _ _ _ _ _ | .fillrect _ _ _ _ _ | .circle _ _ _ _ | .fillcircle _ _ _ _ => 3
  | .bitmap _ _ _ _ _ d => 3 + payloadWords d.length
  | .wrstr _ str => 2 + payloadWords str.length
  | .wrstrat _ _ _ str => 3 + payloadWords str.length
  | .strwidth str => 2 + payloadWords str.length

end Sys2Proof
end

