-- ==== Sys2Proof/Laws/Memory.lean ====
section
/-! SUPPORT. The laws of the framebuffer store: read after write, the canonical form, and the bounds of the listed
offsets. -/

namespace Sys2Proof.Machine

/-! Read after write. -/

theorem memGet?_memSet_same (a : Nat) (v : Byte) (m : Memory) : memGet? a (memSet a v m) = some v := by
  induction m with
  | nil => simp [memSet, memGet?]
  | cons c m ih =>
    obtain ⟨k, w⟩ := c
    by_cases h1 : a < k
    · simp [memSet, memGet?, h1]
    · by_cases h2 : a = k
      · simp [memSet, memGet?, h2]
      · simp [memSet, memGet?, h1, h2, Ne.symm h2, ih]

theorem memGet?_memSet_other {a b : Nat} (h : b ≠ a) (v : Byte) (m : Memory) :
    memGet? b (memSet a v m) = memGet? b m := by
  induction m with
  | nil => simp [memSet, memGet?, Ne.symm h]
  | cons c m ih =>
    obtain ⟨k, w⟩ := c
    by_cases h1 : a < k
    · simp [memSet, memGet?, h1, Ne.symm h]
    · by_cases h2 : a = k
      · subst h2; simp [memSet, memGet?, Ne.symm h]
      · simp [memSet, memGet?, h1, h2, ih]

theorem memGet?_append (a : Nat) (m m' : Memory) :
    memGet? a (m ++ m') = (memGet? a m).or (memGet? a m') := by
  induction m with
  | nil => simp [memGet?]
  | cons c m ih => obtain ⟨k, w⟩ := c; by_cases h : k = a <;> simp [memGet?, h, ih]

theorem memGet?_const (a : Nat) (v : Byte) (l : List Nat) :
    memGet? a (l.map fun k => (k, v)) = if a ∈ l then some v else none := by
  induction l with
  | nil => simp [memGet?]
  | cons k l ih =>
    by_cases h : k = a
    · simp [memGet?, h]
    · simp [memGet?, h, ih, Ne.symm h]

theorem memGet?_filter (n a : Nat) (m : Memory) :
    memGet? a (m.filter fun cell => decide (n ≤ cell.1)) = if n ≤ a then memGet? a m else none := by
  induction m with
  | nil => simp [memGet?]
  | cons c m ih =>
    obtain ⟨k, w⟩ := c
    by_cases hk : n ≤ k <;> by_cases ha : n ≤ a <;> by_cases he : k = a <;>
      simp_all [memGet?]

/-- Everything a fill does: below `n` the byte `v`, elsewhere as before. -/
theorem memGet?_memFill (a n : Nat) (v : Byte) (m : Memory) :
    memGet? a (memFill n v m) = if a < n then some v else memGet? a m := by
  rw [memFill, memGet?_append, memGet?_const, memGet?_filter]
  by_cases h : a < n
  · simp [h]
  · simp [h, Nat.le_of_not_lt h]

/-! The canonical form. -/

theorem memRisesFrom_memSet {a k : Nat} (v : Byte) (hka : k < a) :
    ∀ m : Memory, memRisesFrom k m = true → memRisesFrom k (memSet a v m) = true := by
  intro m
  induction m generalizing k with
  | nil => intro _; simp [memSet, memRisesFrom, hka]
  | cons c m ih =>
    obtain ⟨j, w⟩ := c
    intro h
    simp only [memRisesFrom, Bool.and_eq_true, decide_eq_true_eq] at h
    by_cases h1 : a < j
    · simp [memSet, memRisesFrom, h1, hka, h.2]
    · by_cases h2 : a = j
      · subst h2; simp [memSet, memRisesFrom, hka, h.2]
      · simp only [memSet, h1, h2, if_false, memRisesFrom, Bool.and_eq_true, decide_eq_true_eq]
        exact ⟨h.1, ih (by omega) h.2⟩

/-- A write keeps the canonical form. -/
theorem memWf_memSet (a : Nat) (v : Byte) (m : Memory) (h : Memory.wf m = true) : Memory.wf (memSet a v m) = true := by
  cases m with
  | nil => simp [memSet, Memory.wf, memRisesFrom]
  | cons c m =>
    obtain ⟨k, w⟩ := c
    simp only [Memory.wf] at h
    by_cases h1 : a < k
    · simp [memSet, Memory.wf, memRisesFrom, h1, h]
    · by_cases h2 : a = k
      · subst h2; simp [memSet, Memory.wf, h]
      · simp only [memSet, h1, h2, if_false, Memory.wf]
        exact memRisesFrom_memSet v (by omega) m h

theorem memWf_iff_pairwise (m : Memory) : Memory.wf m = true ↔ m.Pairwise fun c d => c.1 < d.1 := by
  have rises : ∀ (m : Memory) (k : Nat),
      memRisesFrom k m = true ↔ (∀ c ∈ m, k < c.1) ∧ m.Pairwise fun c d => c.1 < d.1 := by
    intro m
    induction m with
    | nil => simp [memRisesFrom]
    | cons c m ih =>
      intro k
      obtain ⟨j, w⟩ := c
      simp only [memRisesFrom, Bool.and_eq_true, decide_eq_true_eq, ih, List.mem_cons, List.pairwise_cons]
      constructor
      · rintro ⟨hkj, hj, hp⟩
        exact ⟨by rintro c (rfl | hc); exacts [hkj, hkj.trans (hj c hc)], hj, hp⟩
      · rintro ⟨hk, hj, hp⟩
        exact ⟨hk (j, w) (.inl rfl), hj, hp⟩
  cases m with
  | nil => simp [Memory.wf]
  | cons c m => obtain ⟨k, w⟩ := c; simp [Memory.wf, rises]

/-- A fill keeps the canonical form. -/
theorem memWf_memFill (n : Nat) (v : Byte) (m : Memory) (h : Memory.wf m = true) : Memory.wf (memFill n v m) = true := by
  rw [memWf_iff_pairwise] at h ⊢
  refine List.pairwise_append.2 ⟨?_, h.filter _, ?_⟩
  · exact List.pairwise_map.2 (List.pairwise_lt_range.imp fun h => h)
  · intro c hc d hd
    obtain ⟨a, ha, rfl⟩ := List.mem_map.1 hc
    have := (List.mem_filter.1 hd).2
    simp only [decide_eq_true_eq] at this
    exact lt_of_lt_of_le (List.mem_range.1 ha) this

theorem memWf_nil : Memory.wf [] = true := rfl

/-! The listed offsets. -/

theorem mem_memSet_offset {a : Nat} {v : Byte} {m : Memory} {c : Host.Cell} (h : c ∈ memSet a v m) :
    c.1 = a ∨ c ∈ m := by
  induction m with
  | nil => simp only [memSet, List.mem_singleton] at h; exact .inl (by rw [h])
  | cons d m ih =>
    obtain ⟨k, w⟩ := d
    unfold memSet at h
    split at h
    · rcases List.mem_cons.1 h with rfl | h
      · exact .inl rfl
      · exact .inr h
    · split at h
      · rcases List.mem_cons.1 h with rfl | h
        · exact .inl rfl
        · exact .inr (List.mem_cons_of_mem _ h)
      · rcases List.mem_cons.1 h with rfl | h
        · exact .inr List.mem_cons_self
        · exact (ih h).imp id (List.mem_cons_of_mem _)

theorem mem_memFill_offset {n : Nat} {v : Byte} {m : Memory} {c : Host.Cell} (h : c ∈ memFill n v m) :
    c.1 < n ∨ c ∈ m := by
  rcases List.mem_append.1 h with h | h
  · obtain ⟨a, ha, rfl⟩ := List.mem_map.1 h
    exact .inl (List.mem_range.1 ha)
  · exact .inr (List.mem_filter.1 h).1

/-! A store sorted by offset is determined by what it holds, so the one-pass fill is the loop of R143. -/

theorem memGet?_eq_none_of_rises {k a : Nat} (hak : a ≤ k) :
    ∀ m : Memory, memRisesFrom k m = true → memGet? a m = none := by
  intro m
  induction m generalizing k with
  | nil => intro _; rfl
  | cons c m ih =>
    obtain ⟨j, w⟩ := c
    intro h
    simp only [memRisesFrom, Bool.and_eq_true, decide_eq_true_eq] at h
    have hj : j ≠ a := by omega
    simp [memGet?, hj, ih (by omega : a ≤ j) h.2]

/-- Equal memories are equal data: two stores in canonical form that hold the same bytes are the same list. -/
theorem memory_ext {m m' : Memory} (h : Memory.wf m = true) (h' : Memory.wf m' = true)
    (hget : ∀ a, memGet? a m = memGet? a m') : m = m' := by
  induction m generalizing m' with
  | nil =>
    cases m' with
    | nil => rfl
    | cons c m' => have := hget c.1; simp [memGet?] at this
  | cons c m ih =>
    obtain ⟨k, v⟩ := c
    cases m' with
    | nil => have := hget k; simp [memGet?] at this
    | cons c' m' =>
      obtain ⟨k', v'⟩ := c'
      simp only [Memory.wf] at h h'
      have hk : k = k' := by
        rcases lt_trichotomy k k' with hlt | heq | hgt
        · have := hget k
          simp [memGet?, Nat.ne_of_gt hlt, memGet?_eq_none_of_rises (Nat.le_of_lt hlt) m' h'] at this
        · exact heq
        · have := hget k'
          simp [memGet?, Nat.ne_of_gt hgt, memGet?_eq_none_of_rises (Nat.le_of_lt hgt) m h] at this
      subst hk
      have hv : v = v' := by have := hget k; simpa [memGet?] using this
      subst hv
      have wf_tail : ∀ {m : Memory}, memRisesFrom k m = true → Memory.wf m = true := by
        intro m hm
        cases m with
        | nil => rfl
        | cons c m => simp only [memRisesFrom, Bool.and_eq_true] at hm; exact hm.2
      rw [ih (wf_tail h) (wf_tail h')]
      intro a
      by_cases ha : k = a
      · subst ha
        rw [memGet?_eq_none_of_rises (le_refl _) m h, memGet?_eq_none_of_rises (le_refl _) m' h']
      · have := hget a
        simpa [memGet?, ha] using this

theorem memWf_foldl_memSet (v : Byte) (l : List Nat) (m : Memory) (h : Memory.wf m = true) :
    Memory.wf (l.foldl (fun m a => memSet a v m) m) = true := by
  induction l generalizing m with
  | nil => exact h
  | cons a l ih => exact ih _ (memWf_memSet a v m h)

theorem memGet?_foldl_memSet (v : Byte) (l : List Nat) (m : Memory) (a : Nat) :
    memGet? a (l.foldl (fun m a => memSet a v m) m) = if a ∈ l then some v else memGet? a m := by
  induction l generalizing m with
  | nil => simp
  | cons b l ih =>
    rw [List.foldl_cons, ih]
    by_cases hab : a = b
    · subst hab; by_cases hl : a ∈ l <;> simp [hl, memGet?_memSet_same]
    · simp [hab, memGet?_memSet_other hab]

/-- R143: the fill is `for o in 0..n-1: MemWrite(o, 1, v)`. -/
theorem memFill_eq_loop (n : Nat) (v : Byte) (m : Memory) (h : Memory.wf m = true) :
    memFill n v m = (List.range n).foldl (fun m a => memSet a v m) m := by
  refine memory_ext (memWf_memFill n v m h) (memWf_foldl_memSet v _ m h) fun a => ?_
  rw [memGet?_memFill, memGet?_foldl_memSet]
  simp [List.mem_range]

/-! The same laws for `MemRead` over the state. -/

/-- Two states with the same stored byte and the same reset read the same. -/
theorem memRead_congr {s t : State} {o : Nat} (h : memGet? o t.fb = memGet? o s.fb) (hr : t.resets = s.resets) :
    memRead t o = memRead s o := by
  unfold memRead; rw [h, hr]

theorem memRead_memWrite (o o' : Nat) (v : Byte) (s : State) :
    memRead (memWrite o v s) o' = if o' = o then v else memRead s o' := by
  by_cases h : o' = o
  · subst h; simp [memRead, memGet?_memSet_same]
  · simp [memRead, memGet?_memSet_other h, h]

theorem memRead_fillAll (o : Nat) (v : Byte) (s : State) :
    memRead (fillAll v s) o = if o < BUFSZ s.config then v else memRead s o := by
  unfold memRead
  simp only [fillAll_fb, fillAll_resets, memGet?_memFill]
  by_cases h : o < BUFSZ s.config <;> simp [h]

theorem readRange_congr {s t : State} (h : ∀ o, memRead t o = memRead s o) (a e : Nat) :
    readRange t a e = readRange s a e := by
  unfold readRange; exact List.map_congr_left fun o _ => h o

@[simp] theorem readRange_length (s : State) (a e : Nat) : (readRange s a e).length = e - a := by
  simp [readRange]

/-- Ranges concatenate. -/
theorem readRange_append (s : State) {a b e : Nat} (hab : a ≤ b) (hbe : b ≤ e) :
    readRange s a b ++ readRange s b e = readRange s a e := by
  unfold readRange
  rw [← List.map_append]
  congr 1
  have h1 : a + (b - a) = b := by omega
  have h2 : e - a = (b - a) + (e - b) := by omega
  rw [h2, ← List.range'_append_1, h1]

end Sys2Proof.Machine
end

