-- ==== Sys2Proof/Laws/PerInstr.lean ====
section
/-! SUPPORT. The family `EncodedLength`: the encoder gives each command as many words as R111 says, one lemma per
constructor. -/

namespace Sys2Proof.Laws.EncodedLength
open Sys2Proof Sys2Proof.Machine

/-- R111: the command's words number its row's "words in total". -/
def Statement (i : Instr) : Prop := (encode i).length = totalWords i

theorem init : Statement .init := rfl
theorem fill (c : Bool) : Statement (.fill c) := rfl
theorem clear : Statement .clear := rfl
theorem update : Statement .update := rfl
theorem updchunk (k : Word) : Statement (.updchunk k) := rfl
theorem tick : Statement .tick := rfl
theorem getchunks : Statement .getchunks := rfl
theorem getucur : Statement .getucur := rfl
theorem dispon : Statement .dispon := rfl
theorem dispoff : Statement .dispoff := rfl
theorem toginv : Statement .toginv := rfl
theorem setbright (v : Byte) : Statement (.setbright v) := rfl
theorem pixel (c : Bool) (x y : Half) : Statement (.pixel c x y) := rfl
theorem line (c : Bool) (x0 y0 x1 y1 : Half) : Statement (.line c x0 y0 x1 y1) := rfl
theorem rect (c : Bool) (x1 y1 x2 y2 : Half) : Statement (.rect c x1 y1 x2 y2) := rfl
theorem fillrect (c : Bool) (x1 y1 x2 y2 : Half) : Statement (.fillrect c x1 y1 x2 y2) := rfl
theorem circle (c : Bool) (cx cy r : Half) : Statement (.circle c cx cy r) := rfl
theorem fillcircle (c : Bool) (cx cy r : Half) : Statement (.fillcircle c cx cy r) := rfl
theorem bitmap (c : Bool) (x y w h : Half) (d : List Byte) : Statement (.bitmap c x y w h d) := by simp [Statement, encode, totalWords, packBytes_length]; omega
theorem setcursor (x y : Half) : Statement (.setcursor x y) := rfl
theorem getcursor : Statement .getcursor := rfl
theorem wrchar (c : Bool) (ch : Byte) : Statement (.wrchar c ch) := rfl
theorem wrstr (c : Bool) (str : List Byte) : Statement (.wrstr c str) := by simp [Statement, encode, totalWords, packBytes_length]; omega
theorem wrstrat (c : Bool) (x y : Half) (str : List Byte) : Statement (.wrstrat c x y str) := by simp [Statement, encode, totalWords, packBytes_length]; omega
theorem strwidth (str : List Byte) : Statement (.strwidth str) := by simp [Statement, encode, totalWords, packBytes_length]; omega
theorem rdfb (ofs : Word) : Statement (.rdfb ofs) := rfl
theorem wrfb (v : Byte) (ofs : Word) : Statement (.wrfb v ofs) := rfl

end Sys2Proof.Laws.EncodedLength
end

