-- ==== Sys2Proof/Laws/Pixel.lean ====
section
/-! SUPPORT. What plotting does: which pixels and bytes change, that only the framebuffer changes, and that the
canonical form and the bounds are kept. -/

namespace Sys2Proof.Machine

theorem onPanel_iff (c : Config) (x y : Int) : onPanel c x y = true ↔ (0 ≤ x ∧ x < c.W) ∧ 0 ≤ y ∧ y < c.H := by
  simp [onPanel, and_assoc]

/-- R71 is one to one: within the panel's width, an offset names one column and one page. -/
theorem pixOfs_inj {c : Config} {x y x' y' : Nat} (hx : x < c.W) (hx' : x' < c.W)
    (h : pixOfs c x y = pixOfs c x' y') : x = x' ∧ y / 8 = y' / 8 := by
  unfold pixOfs at h
  have hW : 0 < c.W := by omega
  have e1 : x = ((y / 8) * c.W + x) % c.W := by rw [Nat.mul_comm, Nat.mul_add_mod, Nat.mod_eq_of_lt hx]
  have e2 : x' = ((y' / 8) * c.W + x') % c.W := by rw [Nat.mul_comm, Nat.mul_add_mod, Nat.mod_eq_of_lt hx']
  have hxx : x = x' := by rw [e1, e2, h]
  subst hxx
  refine ⟨rfl, ?_⟩
  have : y / 8 * c.W = y' / 8 * c.W := by omega
  exact Nat.eq_of_mul_eq_mul_right hW this

/-- A point of the panel lies inside the framebuffer (R71, R140 "no write ever touches memory outside"). -/
theorem pixOfs_lt_BUFSZ {c : Config} (hH : c.H % 8 = 0) {x y : Nat} (hx : x < c.W) (hy : y < c.H) :
    pixOfs c x y < BUFSZ c := by
  unfold pixOfs BUFSZ PAGES
  have hp : y / 8 < c.H / 8 := by omega
  calc y / 8 * c.W + x < y / 8 * c.W + c.W := by omega
    _ = (y / 8 + 1) * c.W := by ring
    _ ≤ c.H / 8 * c.W := Nat.mul_le_mul_right _ hp
    _ = c.W * (c.H / 8) := Nat.mul_comm _ _

/-- A painted byte: the masked bit takes the colour, the others stay. -/
theorem getLsbD_paint (c : Bool) (y k : Nat) (b : Byte) (hk : k < 8) :
    (paint c (pixMask y) b).getLsbD k = if k = y % 8 then c else b.getLsbD k := by
  have hm : (pixMask y).getLsbD k = decide (k = y % 8) := by
    unfold pixMask
    rw [BitVec.getLsbD_shiftLeft, BitVec.getLsbD_one]
    by_cases h : k = y % 8
    · subst h; simp [hk]
    · by_cases hlt : k < y % 8
      · simp [hlt, h]
      · have : k - y % 8 ≠ 0 := by omega
        simp [h, this]
  unfold paint
  cases c
  · rw [if_neg Bool.false_ne_true, BitVec.getLsbD_and, BitVec.getLsbD_not, hm]
    by_cases h : k = y % 8 <;> simp [hk, h]
  · rw [if_pos rfl, BitVec.getLsbD_or, hm]
    by_cases h : k = y % 8 <;> simp [h]

/-! One pixel. -/

/-- `SetPixel` changes the framebuffer only. -/
theorem setPixel_eq_setFb (c : Bool) (s : State) (p : Int × Int) : setPixel c s p = setFb (setPixel c s p).fb s := by
  unfold setPixel; split <;> rfl

theorem setPixel_offPanel {c : Bool} {s : State} {p : Int × Int} (h : onPanel s.config p.1 p.2 = false) :
    setPixel c s p = s := by simp [setPixel, h]

theorem setPixel_config (c : Bool) (s : State) (p : Int × Int) : (setPixel c s p).config = s.config := by
  rw [setPixel_eq_setFb]; rfl

theorem setPixel_resets (c : Bool) (s : State) (p : Int × Int) : (setPixel c s p).resets = s.resets := by
  rw [setPixel_eq_setFb]; rfl

/-- The bytes `SetPixel` leaves: all but the one that holds an on-panel point. -/
theorem memRead_setPixel_other {c : Bool} {s : State} {p : Int × Int} {o : Nat}
    (h : onPanel s.config p.1 p.2 = true → o ≠ pixOfs s.config p.1.toNat p.2.toNat) :
    memRead (setPixel c s p) o = memRead s o := by
  unfold setPixel
  split
  · rename_i hp; rw [memRead_memWrite, if_neg (h hp)]
  · rfl

/-- The bits `SetPixel` leaves and the one it sets (R140). -/
theorem pixel_setPixel (c : Bool) (s : State) (p : Int × Int) {x y : Nat} (hx : x < s.config.W)
    (hy : y < s.config.H) :
    pixel (setPixel c s p) x y = if ((x : Int), (y : Int)) = p then c else pixel s x y := by
  obtain ⟨px, py⟩ := p
  by_cases hp : onPanel s.config px py = true
  · have h := (onPanel_iff _ _ _).1 hp
    obtain ⟨a, rfl⟩ := Int.eq_ofNat_of_zero_le h.1.1
    obtain ⟨b, rfl⟩ := Int.eq_ofNat_of_zero_le h.2.1
    have ha : a < s.config.W := by have := h.1.2; omega
    simp only [pixel, setPixel_config]
    simp only [setPixel, hp, if_true, Int.toNat_natCast, memRead_memWrite]
    by_cases ho : pixOfs s.config x y = pixOfs s.config a b
    · obtain ⟨rfl, hpage⟩ := pixOfs_inj hx ha ho
      rw [if_pos ho, getLsbD_paint c b _ _ (Nat.mod_lt _ (by decide)), ← ho]
      by_cases hyb : y = b
      · subst hyb; simp
      · have : y % 8 ≠ b % 8 := by omega
        simp [this, hyb]
    · have hne : ¬ (x = a ∧ y = b) := by rintro ⟨rfl, rfl⟩; exact ho rfl
      simp only [Prod.mk.injEq, Nat.cast_inj]
      rw [if_neg ho, if_neg hne]
  · have hp' : onPanel s.config px py = false := by simpa using hp
    rw [setPixel_offPanel hp']
    have : ((x : Int), (y : Int)) ≠ (px, py) := by
      rintro h
      obtain ⟨rfl, rfl⟩ := Prod.mk.inj h
      exact hp ((onPanel_iff _ _ _).2 ⟨⟨by omega, by omega⟩, by omega, by omega⟩)
    rw [if_neg this]

/-! A list of points. -/

@[simp] theorem plot_nil (c : Bool) (s : State) : plot c [] s = s := rfl

@[simp] theorem plot_cons (c : Bool) (p : Int × Int) (pts : List (Int × Int)) (s : State) :
    plot c (p :: pts) s = plot c pts (setPixel c s p) := rfl

theorem plot_append (c : Bool) (ps qs : List (Int × Int)) (s : State) :
    plot c (ps ++ qs) s = plot c qs (plot c ps s) := by simp [plot]

/-- Plotting changes the framebuffer only. -/
theorem plot_eq_setFb (c : Bool) (pts : List (Int × Int)) (s : State) : plot c pts s = setFb (plot c pts s).fb s := by
  induction pts generalizing s with
  | nil => rfl
  | cons p pts ih =>
    have hp := setPixel_eq_setFb c s p
    rw [plot_cons, ih (setPixel c s p)]
    generalize setPixel c s p = t at hp ⊢
    rw [setFb_fb]
    generalize (plot c pts t).fb = m
    rw [hp]
    rfl

theorem plot_config (c : Bool) (pts : List (Int × Int)) (s : State) : (plot c pts s).config = s.config := by
  rw [plot_eq_setFb]; rfl

theorem plot_resets (c : Bool) (pts : List (Int × Int)) (s : State) : (plot c pts s).resets = s.resets := by
  rw [plot_eq_setFb]; rfl

/-- Every pixel after plotting: the colour at the points plotted, unchanged elsewhere. -/
theorem pixel_plot (c : Bool) (pts : List (Int × Int)) (s : State) {x y : Nat} (hx : x < s.config.W)
    (hy : y < s.config.H) :
    pixel (plot c pts s) x y = if ((x : Int), (y : Int)) ∈ pts then c else pixel s x y := by
  induction pts generalizing s with
  | nil => simp
  | cons p pts ih =>
    have hc := setPixel_config c s p
    rw [plot_cons, ih (setPixel c s p) (by rw [hc]; exact hx) (by rw [hc]; exact hy), pixel_setPixel c s p hx hy]
    by_cases h1 : ((x : Int), (y : Int)) ∈ pts <;> by_cases h2 : ((x : Int), (y : Int)) = p <;> simp [h1, h2]

/-- Every byte plotting leaves: those that hold no on-panel point plotted. -/
theorem memRead_plot_other {c : Bool} {pts : List (Int × Int)} {s : State} {o : Nat}
    (h : ∀ p ∈ pts, onPanel s.config p.1 p.2 = true → o ≠ pixOfs s.config p.1.toNat p.2.toNat) :
    memRead (plot c pts s) o = memRead s o := by
  induction pts generalizing s with
  | nil => rfl
  | cons p pts ih =>
    have hc := setPixel_config c s p
    rw [plot_cons, ih (by rw [hc]; exact fun q hq => h q (List.mem_cons_of_mem _ hq)),
      memRead_setPixel_other (h p List.mem_cons_self)]

theorem memWf_plot (c : Bool) (pts : List (Int × Int)) (s : State) (h : Memory.wf s.fb = true) :
    Memory.wf (plot c pts s).fb = true := by
  induction pts generalizing s with
  | nil => exact h
  | cons p pts ih =>
    rw [plot_cons]
    refine ih _ ?_
    unfold setPixel
    split
    · exact memWf_memSet _ _ _ h
    · exact h

/-- Plotting lists no offset past the framebuffer. -/
theorem plot_bounded (c : Bool) (pts : List (Int × Int)) (s : State) (hH : s.config.H % 8 = 0)
    (h : ∀ cell ∈ s.fb, cell.1 < BUFSZ s.config) : ∀ cell ∈ (plot c pts s).fb, cell.1 < BUFSZ s.config := by
  induction pts generalizing s with
  | nil => exact h
  | cons p pts ih =>
    have hc := setPixel_config c s p
    rw [plot_cons]
    rw [← hc]
    refine ih (setPixel c s p) (by rw [hc]; exact hH) ?_
    rw [hc]
    unfold setPixel
    split
    · rename_i hp
      have hq := (onPanel_iff _ _ _).1 hp
      intro cell hcell
      rcases mem_memSet_offset hcell with heq | hin
      · rw [heq]; exact pixOfs_lt_BUFSZ hH (by omega) (by omega)
      · exact h cell hin
    · exact h

end Sys2Proof.Machine
end

