-- ==== Sys2Proof/Laws/Raster.lean ====
section
/-! SUPPORT. Membership in the point lists of the drawing rules. -/

namespace Sys2Proof.Machine

theorem mem_intRange {a b x : Int} : x ∈ intRange a b ↔ a ≤ x ∧ x ≤ b := by
  unfold intRange
  simp only [List.mem_map, List.mem_range]
  constructor
  · rintro ⟨k, hk, rfl⟩
    omega
  · rintro ⟨h1, h2⟩
    exact ⟨(x - a).toNat, by omega, by omega⟩

theorem mem_vspan {x ya yb : Int} {p : Int × Int} : p ∈ vspan x ya yb ↔ p.1 = x ∧ ya ≤ p.2 ∧ p.2 ≤ yb := by
  obtain ⟨px, py⟩ := p
  simp only [vspan, List.mem_map, mem_intRange, Prod.mk.injEq]
  constructor
  · rintro ⟨y, hy, rfl, rfl⟩
    exact ⟨rfl, hy⟩
  · rintro ⟨rfl, hy⟩
    exact ⟨py, hy, rfl, rfl⟩

theorem mem_rectPoints {x1 y1 x2 y2 : Int} {p : Int × Int} :
    p ∈ rectPoints x1 y1 x2 y2 ↔
      p ∈ linePoints x1 y1 x2 y1 ∨ p ∈ linePoints x2 y1 x2 y2 ∨ p ∈ linePoints x2 y2 x1 y2 ∨
        p ∈ linePoints x1 y2 x1 y1 := by
  simp [rectPoints]

theorem mem_fillRectPoints {x1 y1 x2 y2 : Int} {p : Int × Int} :
    p ∈ fillRectPoints x1 y1 x2 y2 ↔
      ∃ y, (min y1 y2 ≤ y ∧ y ≤ max y1 y2) ∧ p ∈ linePoints (min x1 x2) y (max x1 x2) y := by
  simp only [fillRectPoints, List.mem_flatMap, mem_intRange]

theorem mem_bitmapPoints {x y : Int} {w h : Half} {d : List Byte} {p : Int × Int} :
    p ∈ bitmapPoints x y w h d ↔
      ∃ i j : Nat, i < uint16 w ∧ j < uint16 h ∧ bitmapBit (bytesPerRow w) d i j = true ∧ p = (x + i, y + j) := by
  simp only [bitmapPoints, List.mem_flatMap, List.mem_range, List.mem_map, List.mem_filter]
  constructor
  · rintro ⟨j, hj, i, ⟨hi, hb⟩, rfl⟩
    exact ⟨i, j, hi, hj, hb, rfl⟩
  · rintro ⟨i, j, hi, hj, hb, rfl⟩
    exact ⟨j, hj, i, ⟨hi, hb⟩, rfl⟩

theorem mem_glyphPoints {fh : Nat} {g : Glyph} {x y : Int} {p : Int × Int} :
    p ∈ glyphPoints fh g x y ↔
      ∃ i r : Nat, i < g.GW ∧ r < fh ∧ glyphBit g i r = true ∧ p = (x + i, y + g.YOFF.toInt + r) := by
  simp only [glyphPoints, List.mem_flatMap, List.mem_range, List.mem_map, List.mem_filter]
  constructor
  · rintro ⟨r, hr, i, ⟨hi, hb⟩, rfl⟩
    exact ⟨i, r, hi, hr, hb, rfl⟩
  · rintro ⟨i, r, hi, hr, hb, rfl⟩
    exact ⟨r, hr, i, ⟨hi, hb⟩, rfl⟩

end Sys2Proof.Machine
end

