-- ==== Sys2Proof/Laws/Step.lean ====
section
/-! SUPPORT. Everything a step can do, said once. -/

namespace Sys2Proof.Machine

/-- A step that answers a next state: the FBC was running with a well-formed configuration, and the step ran a
complete command, or raised Illegal, or took words of an incomplete command. -/
theorem step_next_cases {s t : State} (h : step s = .next t) :
    configWf s.config = true ∧ s.ill = false ∧
      ((∃ i rest, fetch s = .complete i rest ∧ exec i (takeCommand rest s) = .next t) ∨
        (∃ cause word rest, fetch s = .illegal cause word rest ∧
          t = raiseIllegal cause word (takeCommand rest s)) ∨
        (fetch s = .incomplete ∧ s.port ≠ [] ∧ t = holdWords s)) := by
  unfold step at h
  split at h
  · rename_i hc
    split at h
    · cases h
    · rename_i hi
      refine ⟨hc, by simpa using hi, ?_⟩
      split at h
      · exact .inl ⟨_, _, ‹_›, h⟩
      · cases h
        exact .inr (.inl ⟨_, _, _, ‹_›, rfl⟩)
      · unfold waitForWords at h
        split at h
        · rename_i hp
          cases h
          exact .inr (.inr ⟨‹_›, by rw [hp]; exact List.cons_ne_nil _ _, rfl⟩)
        · cases h
  · cases h

/-- A running FBC with a complete command runs it. -/
theorem step_complete {s : State} {i : Instr} {rest : List Word} (hc : configWf s.config = true) (hi : s.ill = false)
    (hf : fetch s = .complete i rest) : step s = exec i (takeCommand rest s) := by
  rw [step, if_pos hc, hi, hf]
  rfl

/-- A running FBC with an illegal word raises Illegal. -/
theorem step_illegal {s : State} {cause : IllCause} {word : Word} {rest : List Word} (hc : configWf s.config = true)
    (hi : s.ill = false) (hf : fetch s = .illegal cause word rest) :
    step s = .next (raiseIllegal cause word (takeCommand rest s)) := by
  rw [step, if_pos hc, hi, hf]
  rfl

/-- A running FBC with no complete command waits. -/
theorem step_incomplete {s : State} (hc : configWf s.config = true) (hi : s.ill = false)
    (hf : fetch s = .incomplete) : step s = waitForWords s := by
  rw [step, if_pos hc, hi, hf]
  rfl

end Sys2Proof.Machine
end

