-- ==== Sys2Proof/Laws/Stream.lean ====
section
/-! SUPPORT. What sending a range does: the trace grows by what `issue` says of the range's transactions, and nothing
but the trace and the answers changes. -/

namespace Sys2Proof.Machine

/-- Everything `SendRange` does (R242). -/
theorem sendRange_eq (a e : Nat) (s : State) :
    sendRange a e s =
      (allOk (issue (answerAt s) 0 (rangeTxs s (e - a) a e)),
        afterBus (issue (answerAt s) 0 (rangeTxs s (e - a) a e)) s) := busSeq_eq _ s

/-- A segment ends past its start (R243). -/
theorem lt_segmentEnd {c : Config} (hW : 1 ≤ c.W) {a e : Nat} (h : a < e) : a < segmentEnd c a e := by
  unfold segmentEnd
  have := Nat.lt_mul_of_div_lt (Nat.lt_succ_self (a / c.W)) (by omega)
  rw [Nat.mul_comm] at this
  rw [Nat.lt_min]
  exact ⟨h, by rw [Nat.mul_comm]; exact this⟩

theorem segmentEnd_le (c : Config) (a e : Nat) : segmentEnd c a e ≤ e := Nat.min_le_left _ _

/-- A larger bound on the number of segments changes nothing (log entry 11). -/
theorem rangeTxs_enough {s : State} (hW : 1 ≤ s.config.W) {n a e : Nat} (h : e - a ≤ n) :
    rangeTxs s n a e = rangeTxs s (e - a) a e := by
  induction n using Nat.strongRecOn generalizing a with
  | ind n ih =>
    by_cases hae : a < e
    · obtain ⟨k, rfl⟩ : ∃ k, n = k + 1 := ⟨n - 1, by omega⟩
      obtain ⟨m, hm⟩ : ∃ m, e - a = m + 1 := ⟨e - a - 1, by omega⟩
      have hlt := lt_segmentEnd hW hae
      have hle := segmentEnd_le s.config a e
      rw [hm, rangeTxs, rangeTxs, if_pos hae, if_pos hae]
      congr 1
      by_cases hkm : k = m
      · rw [hkm]
      · rw [ih k (by omega) (by omega), ih m (by omega) (by omega)]
    · have : e - a = 0 := by omega
      rw [this]
      cases n <;> simp [rangeTxs, hae]

/-- The first segment of a range, and the rest of it (R242). -/
theorem rangeTxs_unfold {s : State} (hW : 1 ≤ s.config.W) {a e : Nat} (h : a < e) :
    rangeTxs s (e - a) a e =
      segmentTxs s a e ++ rangeTxs s (e - segmentEnd s.config a e) (segmentEnd s.config a e) e := by
  obtain ⟨m, hm⟩ : ∃ m, e - a = m + 1 := ⟨e - a - 1, by omega⟩
  have hlt := lt_segmentEnd hW h
  rw [hm, rangeTxs, if_pos h, rangeTxs_enough hW (by omega)]

theorem rangeTxs_empty (s : State) {n a e : Nat} (h : e ≤ a) : rangeTxs s n a e = [] := by
  cases n with
  | zero => rfl
  | succ k => rw [rangeTxs, if_neg (by omega)]

/-- What is sent depends on the configuration and the framebuffer alone. -/
theorem rangeTxs_congr {s t : State} (hc : t.config = s.config) (h : ∀ o, memRead t o = memRead s o) (n a e : Nat) :
    rangeTxs t n a e = rangeTxs s n a e := by
  induction n generalizing a with
  | zero => rfl
  | succ n ih => rw [rangeTxs, rangeTxs, ih, segmentTxs, segmentTxs, readRange_congr h, hc]

theorem dataBytes_append (ts us : List BusTx) : dataBytes (ts ++ us) = dataBytes ts ++ dataBytes us := by
  induction ts with
  | nil => rfl
  | cons t ts ih => cases t <;> simp [dataBytes, ih]

theorem dataBytes_cmds (bs : List Byte) : dataBytes (bs.map BusTx.cmd) = [] := by
  induction bs with
  | nil => rfl
  | cons b bs ih => simpa [dataBytes] using ih

/-- The data bytes of a range are the framebuffer bytes of that range (R243). -/
theorem dataBytes_rangeTxs {s : State} (hW : 1 ≤ s.config.W) (a e : Nat) :
    dataBytes (rangeTxs s (e - a) a e) = readRange s a e := by
  induction h : e - a using Nat.strongRecOn generalizing a with
  | ind n ih =>
    subst h
    by_cases hae : a < e
    · have hlt := lt_segmentEnd hW hae
      have hle := segmentEnd_le s.config a e
      rw [rangeTxs_unfold hW hae, dataBytes_append, ih _ (by omega) _ rfl, segmentTxs, dataBytes_append, dataBytes_cmds,
        List.nil_append]
      simp only [dataBytes, List.append_nil]
      exact readRange_append s hlt.le hle
    · rw [rangeTxs_empty s (by omega)]
      have : e - a = 0 := by omega
      simp [readRange, this, dataBytes]

end Sys2Proof.Machine
end

