-- ==== Sys2Proof/Laws/Text.lean ====
section
/-! SUPPORT. What drawing text does to a state: only the framebuffer and the cursor column change, and the store's
canonical form and bounds are kept. -/

namespace Sys2Proof.Machine

/-- A character drawn and advanced over (R187, R188). -/
theorem putChar_eq (c : Bool) (ch : Byte) (s : State) :
    putChar c ch s =
      { s with fb := (drawGlyph c ch s).fb, curx := wrap16 (sint16 s.curx + charAdvance s.config.FONT ch) } := by
  unfold putChar advanceCursor drawGlyph
  rw [plot_eq_setFb]
  rfl

/-- Text changes the framebuffer and the cursor column only (R193). -/
theorem putString_eq (c : Bool) (str : List Byte) (s : State) :
    putString c str s = { s with fb := (putString c str s).fb, curx := (putString c str s).curx } := by
  induction str generalizing s with
  | nil => rfl
  | cons ch rest ih =>
    unfold putString
    split
    · rw [ih (putChar c ch s)]
      generalize putString c rest (putChar c ch s) = t
      rw [putChar_eq]
    · rfl

/-- The characters from the first invalid code on have no effect (R193). -/
theorem putString_append {c : Bool} {pre : List Byte} (post : List Byte) (s : State)
    (h : ∀ ch ∈ pre, validChar ch = true) : putString c (pre ++ post) s = putString c post (putString c pre s) := by
  induction pre generalizing s with
  | nil => rfl
  | cons ch rest ih =>
    have hc := h ch List.mem_cons_self
    simp only [List.cons_append, putString, hc, if_true]
    exact ih _ fun a ha => h a (List.mem_cons_of_mem _ ha)

theorem putString_canonical (c : Bool) (str : List Byte) (s : State) (h : Memory.wf s.fb = true) :
    Memory.wf (putString c str s).fb = true := by
  induction str generalizing s with
  | nil => exact h
  | cons ch rest ih =>
    unfold putString
    split
    · exact ih _ (by rw [putChar_eq]; exact memWf_plot c _ s h)
    · exact h

theorem putString_bounded (c : Bool) (str : List Byte) (s : State) (hH : s.config.H % 8 = 0)
    (h : ∀ cell ∈ s.fb, cell.1 < BUFSZ s.config) : ∀ cell ∈ (putString c str s).fb, cell.1 < BUFSZ s.config := by
  induction str generalizing s with
  | nil => exact h
  | cons ch rest ih =>
    unfold putString
    split
    · have hc : (putChar c ch s).config = s.config := by rw [putChar_eq]
      have hb := ih (putChar c ch s) (by rw [hc]; exact hH)
        (by rw [hc, putChar_eq]; exact plot_bounded c _ s hH h)
      rw [hc] at hb
      exact hb
    · exact h

end Sys2Proof.Machine
end

