-- ==== Sys2Proof/Tests/Slice0.lean ====
section
/-! SUPPORT. The model's own tests: ill-formed terms refused, words written out from the spec decoded, small steps with
results from spec/95_test_vectors.md and the rules' examples, and a witness for the hypotheses of every statement. -/

namespace Sys2Proof.Machine.Test

set_option Elab.async false

/-! ## Helpers -/

/-- TF1's glyphs that are blank (spec/95_test_vectors.md section 0.2). -/
def blank3 : Glyph := { GW := 3, YOFF := 0, ROW := [0, 0, 0] }

/-- The test font TF1. -/
def fontTF1 : Font :=
  { FH := 3, SP := 1,
    glyphs := List.replicate 33 blank3 ++
      [{ GW := 3, YOFF := 0, ROW := [0x4000, 0xE000, 0xA000] }, { GW := 3, YOFF := 0, ROW := [0xC000, 0xE000, 0xC000] }] ++
      List.replicate 60 blank3 }

/-- CFG-B: 16 by 16, column offset 2, 8 bytes a chunk (spec/95_test_vectors.md section 0.1). -/
def cfgB : Config := configOf 16 16 2 3 5 fontTF1

/-- CFG-B with `INITSEQ` cut to one byte, so that a test of INIT stays small. -/
def cfgS : Config := { cfgB with INITSEQ := [0xAF] }

/-- A cleared framebuffer of `n` bytes. -/
def zeros (n : Nat) : Memory := (List.range n).map fun a => (a, 0)

/-- CFG-S after reset, cleared, with the adapter's next answers given. -/
def clearedB (answers : List Bool) : State := { State.resetWith cfgS with fb := zeros 32, answers := answers }

/-- The same with the display in state `d`. -/
def shown (d : DState) (answers : List Bool) : State := { clearedB answers with dstate := d }

/-- The next state, if there is one. -/
def after (o : Host.Outcome State Fault Refusal) : Option State :=
  match o with
  | .next t => some t
  | .fault _ => none
  | .refused _ => none

/-- A field of the next state. -/
def seen {α : Type} (o : Host.Outcome State Fault Refusal) (f : State → α) : Option α := (after o).map f

/-- The bytes that are not 0. -/
def lit (s : State) : Memory := s.fb.filter fun cell => decide (cell.2 ≠ 0)

/-! ## WellFormed refuses ill-formed terms -/

theorem test_wf_bitmap_short : (Instr.bitmap true 0 0 9 2 [0x80, 0x80, 0x01]).wf = false := by decide

theorem test_wf_bitmap_exact : (Instr.bitmap true 0 0 9 2 [0x80, 0x80, 0x01, 0x00]).wf = true := by decide

theorem test_wf_wrstr_long : (Instr.wrstr true (List.replicate 65536 0x41)).wf = false := by
  rw [Instr.wf, stringFits, List.length_replicate]; decide

theorem test_wf_wrstrat_long : (Instr.wrstrat true 0 0 (List.replicate 65536 0x41)).wf = false := by
  rw [Instr.wf, stringFits, List.length_replicate]; decide

theorem test_wf_strwidth_long : (Instr.strwidth (List.replicate 65536 0x41)).wf = false := by
  rw [Instr.wf, stringFits, List.length_replicate]; decide

theorem test_wf_string_longest : (Instr.strwidth (List.replicate 65535 0x41)).wf = true := by
  rw [Instr.wf, stringFits, List.length_replicate]; decide

/-! ## Decoding: words written out from R102-R111 -/

theorem test_decode_init : decodeWords [0x01000000] = .complete .init [] := by decide
theorem test_decode_fill : decodeWords [0x02000001] = .complete (.fill true) [] := by decide
theorem test_decode_clear : decodeWords [0x03000000] = .complete .clear [] := by decide
theorem test_decode_update : decodeWords [0x04000000] = .complete .update [] := by decide
theorem test_decode_updchunk : decodeWords [0x05000000, 0x80000002] = .complete (.updchunk 0x80000002) [] := by decide
theorem test_decode_tick : decodeWords [0x06000000] = .complete .tick [] := by decide
theorem test_decode_getchunks : decodeWords [0x07000000] = .complete .getchunks [] := by decide
theorem test_decode_getucur : decodeWords [0x08000000] = .complete .getucur [] := by decide
theorem test_decode_dispon : decodeWords [0x0A000000] = .complete .dispon [] := by decide
theorem test_decode_dispoff : decodeWords [0x0B000000] = .complete .dispoff [] := by decide
theorem test_decode_toginv : decodeWords [0x0C000000] = .complete .toginv [] := by decide
theorem test_decode_setbright : decodeWords [0x0D00CF00] = .complete (.setbright 0xCF) [] := by decide

/-- `PIXEL -3, 10, 0`: x in bits 15:0, y in bits 31:16. -/
theorem test_decode_pixel : decodeWords [0x10000000, 0x000AFFFD] = .complete (.pixel false (-3) 10) [] := by decide
theorem test_decode_line :
    decodeWords [0x11000001, 0x00020001, 0x00040003] = .complete (.line true 1 2 3 4) [] := by decide
theorem test_decode_rect :
    decodeWords [0x12000000, 0x00020001, 0xFFFF0003] = .complete (.rect false 1 2 3 (-1)) [] := by decide
theorem test_decode_fillrect :
    decodeWords [0x13000001, 0x00060001, 0x00090002] = .complete (.fillrect true 1 6 2 9) [] := by decide
theorem test_decode_circle :
    decodeWords [0x14000001, 0x000A0009, 0x0000FFFF] = .complete (.circle true 9 10 (-1)) [] := by decide
theorem test_decode_fillcircle :
    decodeWords [0x15000000, 0x00020003, 0x00000005] = .complete (.fillcircle false 3 2 5) [] := by decide

/-- 9 columns, 2 rows: 4 payload bytes, byte 0 in the low bits. -/
theorem test_decode_bitmap :
    decodeWords [0x16000001, 0x00000000, 0x00020009, 0x00018080, 0x03000000] =
      .complete (.bitmap true 0 0 9 2 [0x80, 0x80, 0x01, 0x00]) [0x03000000] := by decide
theorem test_decode_setcursor :
    decodeWords [0x18000000, 0x8000FFFF] = .complete (.setcursor (-1) 0x8000) [] := by decide
theorem test_decode_getcursor : decodeWords [0x19000000] = .complete .getcursor [] := by decide
theorem test_decode_wrchar : decodeWords [0x1A004101] = .complete (.wrchar true 0x41) [] := by decide
theorem test_decode_wrstr :
    decodeWords [0x1B000001, 0x00000002, 0x00004241] = .complete (.wrstr true [0x41, 0x42]) [] := by decide
theorem test_decode_wrstrat :
    decodeWords [0x1C000001, 0x000D0009, 0x00000005, 0x44434241, 0x00000045] =
      .complete (.wrstrat true 9 13 [0x41, 0x42, 0x43, 0x44, 0x45]) [] := by decide

/-- The padding bytes of the payload word are not read (R110). -/
theorem test_decode_strwidth :
    decodeWords [0x1D000000, 0x00000001, 0xFFFFFF41] = .complete (.strwidth [0x41]) [] := by decide
theorem test_decode_rdfb : decodeWords [0x1E000000, 0x0000001F] = .complete (.rdfb 31) [] := by decide
theorem test_decode_wrfb : decodeWords [0x1F00A500, 0x00000003] = .complete (.wrfb 0xA5 3) [] := by decide

/-- The illegal words of V-ILL: unassigned, reserved header bits, reserved argument bits (R120). -/
theorem test_decode_illegal :
    decodeWords [0x00000000, 5] = .illegal .unassignedOp 0 [5] ∧
      decodeWords [0x02000002] = .illegal .headerReserved 0x02000002 [] ∧
      decodeWords [0x01010000] = .illegal .headerReserved 0x01010000 [] ∧
      decodeWords [0x0D00CF01] = .illegal .headerReserved 0x0D00CF01 [] ∧
      decodeWords [0x14000001, 0x00050005, 0x00010001] = .illegal .argReserved 0x00010001 [] ∧
      decodeWords [0x1B000001, 0x00010000] = .illegal .argReserved 0x00010000 [] := by decide

/-! ## The host's row words -/

theorem test_table_word_bitmap : decodeTableWord 32 0x16000001 = some (.bitmap true 0 0 0 0 []) := by decide

theorem test_table_word_wrfb : decodeTableWord 64 0x000000031F00A500 = some (.wrfb 0xA5 3) := by decide

theorem test_fetch_word_runs :
    seen (step (State.reset.withFetchWord 64 0x0000FFFF18000000)) (fun t => (t.curx, t.cury)) =
      some (0xFFFF, 0) := by decide +kernel

/-! ## One step of each instruction; results from the rules' examples and spec/95_test_vectors.md -/

/-- R220: a successful INIT (one byte of `INITSEQ`, two pages), and one that fails at the first byte. -/
theorem test_init_success :
    seen (exec .init (clearedB (List.replicate 9 true)))
      (fun t => (t.dstate, t.contrast, t.result, t.lastfail, t.busTrace.length)) =
      some (.active, 0x7F, 1, false, 9) := by decide +kernel

theorem test_init_failure :
    seen (exec .init (shown .active [false])) (fun t => (t.dstate, t.result, t.lastfail, t.busTrace)) =
      some (.uninit, 0, true, [{ tx := .cmd 0xAF, ok := false }]) := by decide +kernel

theorem test_fill : seen (exec (.fill true) (clearedB [])) (fun t => (memRead t 0, memRead t 31, t.fb.length)) =
    some (0xFF, 0xFF, 32) := by decide +kernel

theorem test_clear : seen (exec .clear { clearedB [] with fb := [(3, 0xA5)] }) lit = some [] := by decide +kernel

/-- R249's example: the address bytes and the first and last transactions. -/
theorem test_update :
    seen (exec .update (clearedB (List.replicate 8 true)))
      (fun t => (t.busTrace.map (fun r => r.tx), t.result, t.ucur)) =
      some ([.cmd 0xB0, .cmd 0x02, .cmd 0x10, .data (List.replicate 16 0), .cmd 0xB1, .cmd 0x02, .cmd 0x10,
        .data (List.replicate 16 0)], 1, 0) := by decide +kernel

/-- R252's example: UCUR = 8, all success. -/
theorem test_tick :
    seen (exec .tick { clearedB (List.replicate 4 true) with ucur := 8 })
      (fun t => (t.busTrace.map (fun r => r.tx), t.ucur, t.result)) =
      some ([.cmd 0xB0, .cmd 0x0A, .cmd 0x10, .data (List.replicate 8 0)], 16, 1) := by decide +kernel

/-- The last chunk wraps. -/
theorem test_tick_wraps :
    seen (exec .tick { clearedB (List.replicate 4 true) with ucur := 24 }) (fun t => (t.ucur, t.result, t.lastfail)) =
      some (0, 3, false) := by decide +kernel

/-- R256's example: chunk 3. -/
theorem test_updchunk :
    seen (exec (.updchunk 3) (clearedB (List.replicate 4 true))) (fun t => (t.busTrace.map (fun r => r.tx), t.result)) =
      some ([.cmd 0xB1, .cmd 0x0A, .cmd 0x10, .data (List.replicate 8 0)], 1) := by decide +kernel

/-- An index past the end sends nothing. -/
theorem test_updchunk_past_end :
    seen (exec (.updchunk 0xFFFFFFFF) (clearedB [])) (fun t => (t.busTrace, t.result, t.lastfail)) =
      some ([], 1, false) := by decide +kernel

/-- R258's example. -/
theorem test_getchunks : seen (exec .getchunks State.reset) (fun t => t.result) = some 16 := by decide +kernel

theorem test_getucur : seen (exec .getucur { State.reset with ucur := 64 }) (fun t => t.result) = some 64 := by
  decide +kernel

/-- R222's example. -/
theorem test_dispon : seen (exec .dispon (shown .off [true])) (fun t => (t.dstate, t.result, t.lastfail, t.busTrace)) =
    some (.active, 1, false, [{ tx := .cmd 0xAF, ok := true }]) := by decide +kernel

theorem test_dispon_uninit : seen (exec .dispon (shown .uninit [true])) (fun t => (t.dstate, t.result)) =
    some (.uninit, 1) := by decide +kernel

/-- R223's example. -/
theorem test_dispoff :
    seen (exec .dispoff (shown .active [false])) (fun t => (t.dstate, t.result, t.lastfail, t.busTrace)) =
      some (.active, 0, true, [{ tx := .cmd 0xAE, ok := false }]) := by decide +kernel

/-- R224's example. -/
theorem test_toginv : seen (exec .toginv (clearedB [true])) (fun t => (t.inv, t.busTrace)) =
    some (true, [{ tx := .cmd 0xA7, ok := true }]) := by decide +kernel

/-- R225's example. -/
theorem test_setbright :
    seen (exec (.setbright 0xCF) (clearedB [true, true])) (fun t => (t.contrast, t.busTrace.map (fun r => r.tx))) =
      some (0xCF, [.cmd 0x81, .cmd 0xCF]) := by decide +kernel

/-- The second transaction fails: the shadow stays. -/
theorem test_setbright_failure :
    seen (exec (.setbright 0xCF) (clearedB [true, false])) (fun t => (t.contrast, t.result, t.lastfail)) =
      some (0, 0, true) := by decide +kernel

/-- V-PIX-1: pixel (7, 8) is bit 0 of byte 23. -/
theorem test_pixel : seen (exec (.pixel true 7 8) (clearedB [])) lit = some [(23, 0x01)] := by decide +kernel

/-- V-PIX-3: off the panel on the left. -/
theorem test_pixel_clipped : seen (exec (.pixel true (-16) 0) (clearedB [])) lit = some [] := by decide +kernel

/-- R150's tie example, forwards. -/
theorem test_line : seen (exec (.line true 0 0 2 1) (clearedB [])) lit = some [(0, 1), (1, 2), (2, 2)] := by
  decide +kernel

/-- And backwards. -/
theorem test_line_swapped : seen (exec (.line true 2 1 0 0) (clearedB [])) lit = some [(0, 1), (1, 1), (2, 2)] := by
  decide +kernel

/-- R155: the outline of a 4 by 4 box leaves its inside. -/
theorem test_rect :
    seen (exec (.rect true 3 3 0 0) (clearedB [])) lit = some [(0, 0x0F), (1, 0x09), (2, 0x09), (3, 0x0F)] := by
  decide +kernel

/-- R156's example. -/
theorem test_fillrect :
    seen (exec (.fillrect true 1 6 2 9) (clearedB [])) lit = some [(1, 0xC0), (2, 0xC0), (17, 0x03), (18, 0x03)] := by
  decide +kernel

/-- R161's example. -/
theorem test_circle : seen (exec (.circle true 2 2 1) (clearedB [])) lit = some [(1, 0x04), (2, 0x0A), (3, 0x04)] := by
  decide +kernel

/-- A negative radius draws nothing. -/
theorem test_circle_negative : seen (exec (.circle true 2 2 (-1)) (clearedB [])) lit = some [] := by decide +kernel

/-- R162's example. -/
theorem test_fillcircle :
    seen (exec (.fillcircle true 2 2 1) (clearedB [])) lit = some [(1, 0x04), (2, 0x0E), (3, 0x04)] := by decide +kernel

/-- R171's example. -/
theorem test_bitmap :
    seen (exec (.bitmap true 0 0 9 2 [0x80, 0x80, 0x01, 0x00]) (clearedB [])) lit =
      some [(0, 0x01), (7, 0x02), (8, 0x01)] := by decide +kernel

theorem test_setcursor : seen (exec (.setcursor 0xFFFF 5) (clearedB [])) (fun t => (sint16 t.curx, uint16 t.cury)) =
    some (-1, 5) := by decide +kernel

/-- R191's example. -/
theorem test_getcursor :
    seen (exec .getcursor { clearedB [] with curx := 0xFFFF, cury := 5 }) (fun t => t.result) = some 0x0005FFFF := by
  decide +kernel

/-- R192's example. -/
theorem test_wrchar :
    seen (exec (.wrchar true 0x41) (clearedB [])) (fun t => (lit t, t.curx, t.result)) =
      some ([(0, 0x06), (1, 0x03), (2, 0x06)], 4, 1) := by decide +kernel

/-- R188's wrap: from 32767 the column wraps to the negative side. -/
theorem test_wrchar_wraps :
    seen (exec (.wrchar true 0x41) { clearedB [] with curx := 0x7FFF }) (fun t => (lit t, sint16 t.curx)) =
      some ([], -32765) := by decide +kernel

/-- R193's example. -/
theorem test_wrstr :
    seen (exec (.wrstr true [0x41, 0x42, 0x0A, 0x41]) (clearedB [])) (fun t => (t.curx, t.result, memRead t 4)) =
      some (8, 2, 0x07) := by decide +kernel

/-- R194's example. -/
theorem test_wrstrat :
    seen (exec (.wrstrat true 0xFFFF 0 [0x41]) (clearedB [])) (fun t => (lit t, t.curx, t.cury, t.result)) =
      some ([(0, 0x03), (1, 0x06)], 3, 0, 1) := by decide +kernel

/-- R196's example, and the empty string. -/
theorem test_strwidth : seen (exec (.strwidth [0x41, 0x42]) (clearedB [])) (fun t => t.result) = some 7 := by
  decide +kernel

theorem test_strwidth_empty : seen (exec (.strwidth []) (clearedB [])) (fun t => t.result) = some 0 := by
  decide +kernel

/-- V-RAW-2: the last byte, and one past it. -/
theorem test_rdfb : seen (exec (.rdfb 31) { clearedB [] with fb := [(31, 0xFF)] }) (fun t => t.result) =
    some 0x000000FF := by decide +kernel

theorem test_rdfb_past_end : seen (exec (.rdfb 32) { clearedB [] with result := 7 }) (fun t => t.result) = some 0 := by
  decide +kernel

/-- V-RAW-1. -/
theorem test_wrfb : seen (exec (.wrfb 0xA5 3) (clearedB [])) lit = some [(3, 0xA5)] := by decide +kernel

/-- V-RAW-3. -/
theorem test_wrfb_past_end : seen (exec (.wrfb 0xFF 0x80000000) (clearedB [])) lit = some [] := by decide +kernel

/-- R112: the longest command, by the rule's formula `3 + ceil(8192 * 65535 / 4)` (log entry 23). -/
theorem test_longest_command_length : commandLength [0x16000000, 0, 0xFFFFFFFF] = some 134215683 := by decide +kernel

/-- R281: an illegal word halts, with its cause and the word. -/
theorem test_illegal_step :
    seen (step { clearedB [] with port := [0x20000000] }) (fun t => (status t, t.result)) =
      some (0x00000030, 0x20000000) := by decide +kernel

/-! ## Witnesses: for each statement with hypotheses, states and operands that meet them -/

/-- The invariant speaks neither of the adapter's answers nor of the words at the port. -/
theorem invariant_withInputs {s : State} (h : s.Invariant) (answers : List Bool) (port : List Word) :
    ({ s with answers := answers, port := port } : State).Invariant :=
  { h with }

theorem invariant_empty : (clearedB []).Invariant :=
  have parts : (configWf cfgS = true ∧ (0 : Nat) < BUFSZ cfgS) ∧ Memory.wf (clearedB []).fb = true ∧
      (∀ cell ∈ (clearedB []).fb, cell.1 < BUFSZ cfgS) ∧ decodeWords [] = .incomplete := by decide +kernel
  { config := parts.1.1, canonical := parts.2.1, bounded := parts.2.2.1, ucurInRange := parts.1.2,
    ucurAligned := Nat.zero_mod _, causeIffIll := by decide, asmPartial := parts.2.2.2, asmHalted := fun _ => rfl }

theorem invariant_cleared (answers : List Bool) : (clearedB answers).Invariant :=
  invariant_withInputs invariant_empty answers []

theorem witness_WellFormedConfigurationConditions :
    configWf cfgB = true ∧ configWf { cfgB with ADDRSEQ := .table [(0, 2, [0xB0])], W := 1, H := 8 } = true ∧
      configWf { cfgB with H := 12 } = false ∧ configWf { cfgB with XOFF := 256 } = false ∧
      configWf { cfgB with MINPOW := 6 } = false ∧ configWf { cfgB with ADDRSEQ := .table [] } = false ∧
      configWf { cfgB with FONT := { fontTF1 with FH := 4 } } = false := by decide +kernel

/-- The exponent in its range; below it, as in V-STM-22; above it, as in V-STM-21. -/
theorem witness_ChunksCoverTheFramebuffer :
    (configWf cfgB = true ∧ cfgB.MINPOW ≤ cfgB.POW ∧ cfgB.POW ≤ cfgB.MAXPOW) ∧
      (configWf { cfgB with POW := 0, MINPOW := 2 } = true ∧ EPOW { cfgB with POW := 0, MINPOW := 2 } = 2) ∧
      (configWf { cfgB with POW := 12 } = true ∧ cfgB.MAXPOW < 12 ∧ EPOW { cfgB with POW := 12 } = cfgB.MAXPOW) := by
  decide +kernel

theorem witness_DecodeOfEncodeIsTheCommand :
    (Instr.wrstrat true 0xFFFF 0x8000 [0x41]).wf = true ∧ (Instr.bitmap true 0 0 9 2 [1, 2, 3, 4]).wf = true ∧
      ([0xFFFFFF41] : List Word).length = payloadWords (instrPayload (.wrstrat true 0xFFFF 0x8000 [0x41])).length ∧
      payloadBytes 1 [0xFFFFFF41] = instrPayload (.wrstrat true 0xFFFF 0x8000 [0x41]) := by decide

/-- R110: padding of ones is dropped. -/
theorem test_decode_padding : decodeWords [0x1D000000, 1, 0xFFFFFF41] = .complete (.strwidth [0x41]) [] := by decide

/-- The last byte of a payload that ends inside a word. -/
theorem witness_FieldsStandAtTheirBits : (5 + 3) / 4 ≤ ([0x44434241, 0xFFFFFF45] : List Word).length ∧ 4 < 5 := by decide

theorem witness_WalksTakeTheLoopsSteps : ((-1 : Int) < 0) ∧ (0 : Int) ≤ 0 ∧ circleSteps 0 = [(0, 0)] := by decide

/-- The corners of the default ADDRSEQ's range and past them, a row of a table and none, and R218's heights. -/
theorem witness_DefaultSequencesAreTheSpecsBytes :
    cfgB.ADDRSEQ = .pageMode ∧ addrSeq? cfgB 15 255 = some [0xBF, 0x0F, 0x1F] ∧ addrSeq? cfgB 16 0 = none ∧
      addrSeq? cfgB 0 256 = none ∧ tableAddrSeq 0 2 [(0, 2, [0xB0])] = some [0xB0] ∧
      tableAddrSeq 0 3 [(0, 2, [0xB0])] = none ∧ (1 ≤ 64 ∧ 64 ≤ 64) := by decide

theorem witness_DecodedWordsAreTheCommandsWords :
    decodeWords [0x1B000001, 0x00000002, 0xFFFF4241, 0x03000000] =
      .complete (.wrstr true [0x41, 0x42]) [0x03000000] := by decide

theorem witness_LaterWordsDoNotChangeTheDecoding :
    decodeWords [0x03000000] = .complete .clear [] ∧ decodeWords [0] = .illegal .unassignedOp 0 [] := by decide

theorem witness_HeaderMatchesOneRowOrIsIllegal :
    (headerRows.filter (matchesRow 0x1FFFFF00)).length = 0 ∧ (headerRows.filter (matchesRow 0x1F00FF00)).length = 1 := by
  decide

theorem witness_IllegalEncodingsAndTheirCauses :
    unassignedOp 0xFF000000 = true ∧ unassignedOp 0x20000000 = true ∧ unassignedOp 0x09000000 = true ∧
      (unassignedOp 0x1F000001 = false ∧ headerRows.filter (matchesRow 0x1F000001) = []) ∧
      (headerRows.filter (matchesRow 0x1D000000) ≠ [] ∧ hiHalf 0x00010000 ≠ 0 ∧ opField 0x1D000000 = 0x1D) ∧
      (headerRows.filter (matchesRow 0x14000001) ≠ [] ∧ opField 0x14000001 = 0x14) ∧
      (decodeWords [0] = .illegal .unassignedOp 0 [] ∧
        decodeWords [0x1D000000, 0x80000000] = .illegal .argReserved 0x80000000 []) ∧
      (configWf (clearedB []).config = true ∧ (clearedB []).ill = false ∧
        fetch { clearedB [] with port := [0, 5] } = .illegal .unassignedOp 0 [5]) := by decide +kernel

theorem witness_StepRunsTheDecodedCommand :
    configWf State.reset.config = true ∧ State.reset.ill = false ∧
      decodeWords ([0x10000001] ++ [0x00050005, 0x03000000]) = .complete (.pixel true 5 5) [0x03000000] := by
  decide +kernel

theorem witness_HaltedExecutesNothing :
    configWf (raiseIllegal .unassignedOp 0 State.reset).config = true ∧
      (raiseIllegal .unassignedOp 0 State.reset).ill = true := by decide +kernel

theorem witness_PartialCommandHoldsThePort :
    configWf State.reset.config = true ∧ State.reset.ill = false ∧ decodeWords ([] ++ [0x10000001]) = .incomplete ∧
      decodeWords ([0x10000001] ++ []) = .incomplete ∧ decodeWords ([] ++ []) = .incomplete := by decide +kernel

theorem witness_LegalStreamRunsInOrderToItsEnd :
    (∀ i ∈ [Instr.fill true, .pixel false 3 4, .tick], i.wf = true) ∧ configWf (clearedB []).config = true ∧
      (clearedB []).ill = false ∧ (clearedB []).asm = [] ∧
      [0x02000001, 0x10000000, 0x00040003, 0x06000000] = [Instr.fill true, .pixel false 3 4, .tick].flatMap encode := by
  decide +kernel

theorem witness_EveryStepKeepsTheInvariant :
    (clearedB [true]).Invariant ∧
      ({ clearedB [true] with port := [0x0C000000] } : State).Invariant ∧
      ∃ t, step { clearedB [true] with port := [0x0C000000] } = .next t :=
  have inv := invariant_withInputs invariant_empty [true] [0x0C000000]
  ⟨invariant_cleared _, inv, _, step_complete (i := .toginv) (rest := []) inv.config rfl (by decide)⟩

theorem witness_ResetMeetsTheInvariant : configWf cfgB = true ∧ (clearedB []).Invariant :=
  ⟨by decide +kernel, invariant_cleared _⟩

theorem witness_ConfigurationIsConstant : ∃ t, step { clearedB [] with port := [0x10000001] } = .next t :=
  ⟨_, step_incomplete invariant_empty.config rfl (by decide)⟩

theorem witness_OnlyBusCommandsIssueTransactions :
    (∃ t, exec .tick (clearedB [false]) = .next t) ∧ busClass (.pixel true 0 0) = false ∧
      configWf (clearedB []).config = true ∧
      (∃ t, step { clearedB [] with port := [0x10000001] } = .next t) ∧
      fetch { clearedB [] with port := [0x10000001] } = .incomplete :=
  ⟨⟨_, rfl⟩, rfl, invariant_empty.config, ⟨_, step_incomplete invariant_empty.config rfl (by decide)⟩, by decide⟩

theorem witness_FailureStopsAndIsReported : busClass (.setbright 0) = true ∧ busClass .init = true := by decide

/-- One move of DSTATE for each clause. -/
theorem witness_DisplayStateMoves :
    seen (exec .init (shown .uninit (List.replicate 9 true))) (fun t => t.dstate) = some .active ∧
      seen (exec .init (shown .off [false])) (fun t => t.dstate) = some .uninit ∧
      seen (exec .dispoff (shown .active [true])) (fun t => t.dstate) = some .off ∧
      seen (exec .dispon (shown .off [true])) (fun t => t.dstate) = some .active ∧
      seen (exec .init (shown .off (List.replicate 9 true))) (fun t => t.dstate) = some .active := by decide +kernel

theorem witness_DisplayStateGatesNoCommand : ∃ t, exec .update (shown .off []) = .next t := ⟨_, rfl⟩

theorem witness_CommandsLeaveTheRegistersR47LeavesBlank :
    (∃ t, exec .getucur (clearedB []) = .next t) ∧ writesFb .getucur = false ∧ busClass .getucur = false ∧
      keepsResult (.setcursor 1 2) = true ∧ (∃ t, exec (.setcursor 1 2) (clearedB []) = .next t) :=
  ⟨⟨_, rfl⟩, rfl, rfl, rfl, ⟨_, rfl⟩⟩

theorem witness_FramebufferIsPageMajor :
    configWf (clearedB []).config = true ∧ 31 < BUFSZ (clearedB []).config ∧ 0 < BUFSZ (clearedB []).config ∧
      15 < (clearedB []).config.W ∧ 15 < (clearedB []).config.H := by decide +kernel

/-- On the panel at the last pixel; off it just past each edge. -/
theorem witness_PixelSetsOnePixel :
    onPanel cfgB 15 15 = true ∧ onPanel cfgB 16 0 = false ∧ onPanel cfgB 0 16 = false ∧ onPanel cfgB (-1) 0 = false ∧
      15 < cfgB.W ∧ 15 < cfgB.H ∧ 0 ≠ pixOfs cfgB 15 15 := by decide +kernel

theorem witness_FillSetsEveryByte : 31 < BUFSZ (clearedB []).config ∧ BUFSZ (clearedB []).config ≤ 32 := by
  decide +kernel

theorem witness_RdfbReadsOneByte :
    (31 : Word).toNat < BUFSZ (clearedB []).config ∧ BUFSZ (clearedB []).config ≤ (32 : Word).toNat ∧
      BUFSZ (clearedB []).config ≤ (0xFFFFFFFF : Word).toNat := by decide +kernel

theorem witness_WrfbWritesOneByte :
    (31 : Word).toNat < BUFSZ (clearedB []).config ∧ BUFSZ (clearedB []).config ≤ (32 : Word).toNat := by
  decide +kernel

theorem witness_LineWalkLaws : ((4, 7) : Int × Int) ∈ linePoints 6 7 1 7 ∧ ((2, -1) : Int × Int) ∈ linePoints 2 3 2 (-5) := by
  decide +kernel

theorem witness_WalkBoundsNeverCutShort : (max |(3 : Int) - 0| |7 - 0|).toNat + 1 ≤ 8 ∧ (0 : Int) ≤ 5 ∧ (5 : Int).toNat + 1 ≤ 6 := by
  decide +kernel

/-- A byte no point of the walk lies in, and a pixel of the panel. -/
theorem witness_LinePlotsItsWalk :
    (∀ p ∈ linePoints (sint16 0) (sint16 0) (sint16 3) (sint16 5), onPanel cfgB p.1 p.2 = true →
      16 ≠ pixOfs cfgB p.1.toNat p.2.toNat) ∧ 15 < cfgB.W ∧ 15 < cfgB.H := by decide +kernel

theorem witness_RectPlotsTheBoxOutline :
    (∀ p ∈ rectPoints (sint16 0) (sint16 0) (sint16 3) (sint16 5), onPanel cfgB p.1 p.2 = true →
      16 ≠ pixOfs cfgB p.1.toNat p.2.toNat) ∧ 15 < cfgB.W ∧ 15 < cfgB.H := by decide +kernel

theorem witness_FillrectFillsTheBox :
    (∀ p ∈ fillRectPoints (sint16 0) (sint16 0) (sint16 3) (sint16 5), onPanel cfgB p.1 p.2 = true →
      4 ≠ pixOfs cfgB p.1.toNat p.2.toNat) ∧ 15 < cfgB.W ∧ 15 < cfgB.H := by decide +kernel

theorem witness_RectangleEquivalence :
    ((0, 2) : Int × Int) ∈ rectPoints 0 0 3 3 ∧ |(1 : Int) - 0| ≤ 1 ∧ ((1, 2) : Int × Int) ∈ fillRectPoints 0 0 1 3 := by
  decide +kernel

/-- A drawn and an undrawn pixel, an untouched byte, a negative and a zero radius. -/
theorem witness_CirclePlotsSymmetricImages :
    (∃ q ∈ circleSteps (sint16 1), (|(3 : Int) - sint16 2| = q.1 ∧ |(2 : Int) - sint16 2| = q.2) ∨
      (|(3 : Int) - sint16 2| = q.2 ∧ |(2 : Int) - sint16 2| = q.1)) ∧
      (¬∃ q ∈ circleSteps (sint16 1), (|(2 : Int) - sint16 2| = q.1 ∧ |(2 : Int) - sint16 2| = q.2) ∨
        (|(2 : Int) - sint16 2| = q.2 ∧ |(2 : Int) - sint16 2| = q.1)) ∧
      (∀ p ∈ circlePoints (sint16 2) (sint16 2) (sint16 1), onPanel cfgB p.1 p.2 = true →
        4 ≠ pixOfs cfgB p.1.toNat p.2.toNat) ∧ sint16 0xFFFF < 0 ∧ sint16 0 = 0 := by decide +kernel

theorem witness_FillcircleFillsTheSpans :
    (∃ q ∈ circleSteps (sint16 1), (|(2 : Int) - sint16 2| = q.1 ∧ |(2 : Int) - sint16 2| ≤ q.2) ∨
      (|(2 : Int) - sint16 2| = q.2 ∧ |(2 : Int) - sint16 2| ≤ q.1)) ∧
      (∀ p ∈ fillCirclePoints (sint16 2) (sint16 2) (sint16 1), onPanel cfgB p.1 p.2 = true →
        4 ≠ pixOfs cfgB p.1.toNat p.2.toNat) ∧ sint16 0x8000 < 0 ∧
      ((3, 2) : Int × Int) ∈ circlePoints (sint16 2) (sint16 2) (sint16 1) := by decide +kernel

theorem witness_CircleLaws : ((2, 1) : Int × Int) ∈ circlePoints 0 0 2 ∧ (0 : Int) ≤ 0 := by decide +kernel

theorem witness_BitmapDrawsSetBitsOnly :
    ([0x80, 0x80, 0x01, 0x00] : List Byte).length = ((9 : Half).toNat + 7) / 8 * (2 : Half).toNat ∧
      (∃ i j : Fin 9, i.val < 9 ∧ j.val < 2 ∧
        (([0x80, 0x80, 0x01, 0x00] : List Byte).getD (j.val * 2 + i.val / 8) 0).getLsbD (7 - i.val % 8) = true) ∧
      (∀ p ∈ bitmapPoints (sint16 0) (sint16 0) 9 2 [0x80, 0x80, 0x01, 0x00], onPanel cfgB p.1 p.2 = true →
        1 ≠ pixOfs cfgB p.1.toNat p.2.toNat) := by decide +kernel

/-- The codes next to both ends of the valid range, a foreground bit, and a byte a glyph leaves. -/
theorem witness_WrcharDrawsAndAdvances :
    (31 : Byte).toNat < 32 ∧ 126 < (127 : Byte).toNat ∧ 32 ≤ (32 : Byte).toNat ∧ (126 : Byte).toNat ≤ 126 ∧
      ((1, 0) : Int × Int) ∈ glyphPoints 3 (fontGlyph fontTF1 33) (0 : Half).toInt (0 : Half).toNat ∧
      (∀ p ∈ glyphPoints 3 (fontGlyph fontTF1 33) (0 : Half).toInt (0 : Half).toNat, onPanel cfgB p.1 p.2 = true →
        3 ≠ pixOfs cfgB p.1.toNat p.2.toNat) ∧
      fontTF1.glyphs[33]? = some (fontGlyph fontTF1 33) ∧ (fontGlyph fontTF1 33).GW = 3 := by decide +kernel

theorem witness_WrstrIsWrcharsUpToTheFirstInvalid :
    (∀ ch ∈ ([0x20, 0x7E] : List Byte), 32 ≤ ch.toNat ∧ ch.toNat ≤ 126) ∧
      (∀ ch, ([0x7F, 0x41] : List Byte).head? = some ch → ch.toNat < 32 ∨ 126 < ch.toNat) ∧
      (∀ ch, ([] : List Byte).head? = some ch → ch.toNat < 32 ∨ 126 < ch.toNat) ∧
      ([0x20, 0x7E] ++ [0x7F, 0x41] : List Byte).length ≤ 65535 :=
  ⟨by decide, fun ch h => by obtain rfl := Option.some.inj h; decide, fun ch h => (nomatch h), by decide⟩

theorem witness_WrstratIsSetcursorThenWrstr : ([0x41] : List Byte).length ≤ 65535 := by decide

theorem witness_StrwidthMeasuresThePrefix :
    (∀ ch ∈ ([0x41] : List Byte), 32 ≤ ch.toNat ∧ ch.toNat ≤ 126) ∧
      (∀ ch, ([0x1F] : List Byte).head? = some ch → ch.toNat < 32 ∨ 126 < ch.toNat) ∧
      configWf (clearedB []).config = true ∧ (∀ g ∈ (clearedB []).config.FONT.glyphs, g.GW = 3) ∧
      (clearedB []).config.FONT.SP = 1 :=
  ⟨by decide, fun ch h => by obtain rfl := Option.some.inj h; decide, invariant_empty.config, by decide, rfl⟩

/-- A drawn string, an empty prefix, and a pixel that changes. -/
theorem witness_TextAdvanceMatchesWidth :
    configWf (clearedB []).config = true ∧
      seen (exec (.wrstr true [0x41]) (clearedB [])) (fun t => (t.result.toNat, pixel t 1 0)) = some (1, true) ∧
      pixel (clearedB []) 1 0 = false ∧
      seen (exec (.wrstr true [0x0A]) (clearedB [])) (fun t => t.result.toNat) = some 0 := by decide +kernel

/-- All answers success; a failure in `INITSEQ`; a failure in the flush. -/
theorem witness_InitProgramsClearsAndFlushes :
    configWf cfgS = true ∧
      allOk (issue (fun _ => true) 0 (cfgS.INITSEQ.map BusTx.cmd ++ allPages (clearedB []))) = true ∧
      allOk (issue (fun k => k != 0) 0 (cfgS.INITSEQ.map BusTx.cmd ++ allPages (clearedB []))) = false ∧
      allOk (issue (fun k => k != 1) 0 (cfgS.INITSEQ.map BusTx.cmd ++ allPages (clearedB []))) = false ∧
      31 < BUFSZ cfgS := by decide +kernel

theorem witness_SetbrightSendsAPair :
    answerAt (clearedB [false]) 0 = false ∧
      (answerAt (clearedB [true, false]) 0 = true ∧ answerAt (clearedB [true, false]) 1 = false) ∧
      (answerAt (clearedB [true, true]) 0 = true ∧ answerAt (clearedB [true, true]) 1 = true) := by decide +kernel

/-- The last byte alone, and a range over both pages. -/
theorem witness_SendRangeSegments :
    1 ≤ (clearedB []).config.W ∧ (31 < 32 ∧ 32 ≤ BUFSZ (clearedB []).config) ∧ 15 < 17 ∧
      1 < (17 - 1) / (clearedB []).config.W - 15 / (clearedB []).config.W + 1 := by decide +kernel

theorem witness_UpdateFlushesEveryPage : configWf (clearedB []).config = true := by decide +kernel

theorem witness_TickSendsTheNextChunk :
    (clearedB [false]).Invariant ∧ (sendRange 0 8 (clearedB [false])).1 = false ∧
      (sendRange 0 8 (clearedB (List.replicate 4 true))).1 = true :=
  ⟨invariant_cleared _, by decide +kernel, by decide +kernel⟩

/-- From UCUR = 0, with all four chunks answered success. -/
theorem witness_TickCycleSendsTheWholeBuffer :
    (clearedB (List.replicate 16 true)).Invariant ∧ (clearedB (List.replicate 16 true)).ucur = 0 ∧
      (seen (execAll (List.replicate 4 .tick) (clearedB (List.replicate 16 true)))
        (fun t => (allOk t.busTrace, t.result)) = some (true, 3)) ∧ 3 < TOTAL cfgS :=
  ⟨invariant_cleared _, rfl, by decide +kernel, by decide +kernel⟩

/-- The first index past the end, and the last before it. -/
theorem witness_UpdchunkSendsTheNamedChunk :
    BUFSZ cfgS ≤ (4 : Word).toNat * BPO cfgS ∧ (3 : Word).toNat * BPO cfgS < BUFSZ cfgS ∧ configWf cfgS = true := by
  decide +kernel

theorem witness_UpdchunkIgnoresTheUpdateCursor : ∃ t, exec (.updchunk 1) (clearedB []) = .next t := ⟨_, rfl⟩

theorem witness_ChunkCountAndCursorQueries : configWf State.reset.config = true := by decide +kernel

theorem witness_FlushRestartsTheTickCycle :
    (clearedB []).Invariant ∧
      seen (exec .update (clearedB (List.replicate 8 true))) (fun t => t.lastfail) = some false ∧
      seen (exec .update (clearedB [false])) (fun t => t.lastfail) = some true ∧
      seen (exec .init (clearedB (List.replicate 9 true))) (fun t => t.lastfail) = some false ∧
      seen (exec .init (clearedB [false])) (fun t => t.lastfail) = some true :=
  ⟨invariant_cleared _, by decide +kernel⟩

end Sys2Proof.Machine.Test
end

section
/-! PROOFS. The statements of scope: the configuration, fields, the frame of every command, the invariant, and the run
of a legal stream. -/

namespace Sys2Proof.Machine

/-! ## The step (R16, R101) -/

/-- Settles O13: it is `step_complete`, with the state that has taken the command's words written out. -/
theorem stepRunsTheDecodedCommand : Obligations.StepRunsTheDecodedCommand := by
  intro s i rest hconfig hrunning hdecode
  exact step_complete hconfig hrunning hdecode

/-! ## Fields (R102-R110) -/

theorem toNat_append_eq_mul_add {n m : Nat} (x : BitVec n) (y : BitVec m) :
    (x ++ y).toNat = x.toNat * 2 ^ m + y.toNat := by
  rw [BitVec.toNat_append, ← Nat.shiftLeft_add_eq_or_of_lt y.isLt, Nat.shiftLeft_eq]

theorem toNat_headerWord (op imm : Byte) (c : Bool) :
    (headerWord op imm c).toNat = op.toNat * 2 ^ 24 + imm.toNat * 2 ^ 8 + (if c then 1 else 0) := by
  have hc : (BitVec.ofBool c).toNat = if c then 1 else 0 := by cases c <;> rfl
  simp only [headerWord, toNat_append_eq_mul_add, hc, BitVec.toNat_ofNat]
  omega

theorem toNat_argWord (lo hi : Half) : (argWord lo hi).toNat = hi.toNat * 2 ^ 16 + lo.toNat :=
  toNat_append_eq_mul_add hi lo

/-- The four bytes of a word are its bits `8k+7 : 8k` (R110). -/
theorem getElem?_wordBytes (a : Word) {k : Nat} (h : k < 4) : (wordBytes a)[k]? = some (a.extractLsb' (8 * k) 8) := by
  match k, h with
  | 0, _ | 1, _ | 2, _ | 3, _ => rfl

/-- The byte stream of a word list, at each index. -/
theorem getElem?_flatMap_wordBytes (ws : List Word) (k : Nat) :
    (ws.flatMap wordBytes)[k]? = (ws[k / 4]?).map fun a => a.extractLsb' (8 * (k % 4)) 8 := by
  induction ws generalizing k with
  | nil => simp
  | cons a ws ih =>
    have hlen : (wordBytes a).length = 4 := rfl
    rw [List.flatMap_cons]
    by_cases hk : k < 4
    · rw [List.getElem?_append_left (by omega), getElem?_wordBytes a hk, Nat.div_eq_of_lt hk, Nat.mod_eq_of_lt hk]
      rfl
    · obtain ⟨j, rfl⟩ := Nat.exists_eq_add_of_le (Nat.le_of_not_lt hk)
      rw [List.getElem?_append_right (by omega), hlen, Nat.add_sub_cancel_left, ih,
        show (4 + j) / 4 = j / 4 + 1 by omega, Nat.add_mod_left, List.getElem?_cons_succ]

/-- Byte `k` of a payload stands in word `k / 4` (R110). -/
theorem getElem?_payloadBytes {n k : Nat} {ws : List Word} (hk : k < n) :
    (payloadBytes n ws)[k]? = (ws[k / 4]?).map fun a => a.extractLsb' (8 * (k % 4)) 8 := by
  have hword : k / 4 < payloadWords n := by unfold payloadWords; omega
  rw [payloadBytes, List.getElem?_take_of_lt hk, getElem?_flatMap_wordBytes, List.getElem?_take_of_lt hword]

theorem sint16_eq (h : Half) :
    sint16 h = if h.toNat < 32768 then (h.toNat : Int) else (h.toNat : Int) - 65536 := by
  have := h.isLt
  rw [sint16, BitVec.toInt_eq_toNat_cond]
  split <;> split <;> omega

/-- `wrap16` is the rule's formula (R11). -/
theorem sint16_wrap16 (v : Int) : sint16 (wrap16 v) = (v + 32768) % 65536 - 32768 := by
  rw [sint16, wrap16, BitVec.toInt_ofInt, Int.bmod_def]
  split <;> omega

/-- Settles O12: each field by the value of an append, each payload byte by its place in the byte stream. -/
theorem fieldsStandAtTheirBits : Obligations.FieldsStandAtTheirBits := by
  refine ⟨toNat_headerWord, toNat_argWord, fun n k ws hlen hk => ?_, fun h => ⟨rfl, sint16_eq h⟩, sint16_wrap16⟩
  obtain ⟨a, ha⟩ : ∃ a, ws[k / 4]? = some a := ⟨_, List.getElem?_eq_getElem (by omega)⟩
  exact ⟨a, ha, by rw [getElem?_payloadBytes hk, ha]; rfl⟩

/-! ## The configuration (R8, R9) -/

theorem addrSeqUsable_iff (o : Option (List Byte)) : addrSeqUsable o = true ↔ ∃ b bs, o = some (b :: bs) := by
  rcases o with - | (- | ⟨b, bs⟩) <;> simp [addrSeqUsable]

theorem addrSeqDefault_usable_iff (p ca : Nat) :
    addrSeqUsable (addrSeqDefault p ca) = true ↔ p ≤ 15 ∧ ca ≤ 255 := by
  unfold addrSeqDefault
  split
  · rename_i h
    exact iff_of_true rfl h
  · rename_i h
    exact iff_of_false Bool.false_ne_true h

/-- R9.4 pointwise; the default sequence's two bounds say it of the last page and the last column. -/
theorem addrSeqWf_iff {c : Config} (hP : 1 ≤ PAGES c) (hW : 1 ≤ c.W) :
    addrSeqWf c = true ↔
      ∀ p ca, p < PAGES c → c.XOFF ≤ ca → ca < c.XOFF + c.W → addrSeqUsable (addrSeq? c p ca) = true := by
  unfold addrSeqWf addrSeq?
  split
  · simp only [addrSeqDefault_usable_iff, Bool.and_eq_true, decide_eq_true_eq]
    constructor
    · intro _ p ca hp _ hca
      omega
    · intro h
      have := h (PAGES c - 1) (c.XOFF + c.W - 1) (by omega) (by omega) (by omega)
      omega
  · simp only [List.all_eq_true, List.mem_range]
    constructor
    · intro h p ca hp hlo hhi
      have := h p hp (ca - c.XOFF) (by omega)
      rwa [Nat.add_sub_cancel' hlo] at this
    · intro h p hp x hx
      exact h p (c.XOFF + x) hp (by omega) (by omega)

theorem fontWf_iff (f : Font) :
    fontWf f = true ↔ 1 ≤ f.FH ∧ f.FH ≤ 255 ∧ f.SP ≤ 255 ∧ f.glyphs.length = 95 ∧
      ∀ g ∈ f.glyphs, g.GW ≤ 16 ∧ g.ROW.length = f.FH := by
  simp [fontWf, glyphWf, and_assoc]

/-- R9, condition by condition. -/
theorem configWf_iff (c : Config) :
    configWf c = true ↔
      (1 ≤ c.W ∧ c.W ≤ 32767 ∧ 8 ≤ c.H ∧ c.H ≤ 32760 ∧ c.H % 8 = 0) ∧ c.XOFF ≤ 255 ∧
        (c.MINPOW ≤ c.MAXPOW ∧ c.MAXPOW ≤ 31) ∧ addrSeqWf c = true ∧ fontWf c.FONT = true := by
  simp only [configWf, Bool.and_eq_true, decide_eq_true_eq]
  tauto

/-- There is no machine for an ill-formed configuration (R9). -/
theorem step_refuses_ill_formed_config {s : State} (h : configWf s.config = false) :
    step s = .refused .configNotWellFormed := by
  simp [step, h]

/-- Settles O4: the checks of `configWf` are R9's conditions, the one on ADDRSEQ by `addrSeqWf_iff`. -/
theorem wellFormedConfigurationConditions : Obligations.WellFormedConfigurationConditions := by
  refine ⟨fun c => ?_, fun s h => step_refuses_ill_formed_config h⟩
  rw [configWf_iff, fontWf_iff]
  refine and_congr_right fun ⟨hW, _, hH, _, _⟩ => and_congr_right fun _ => and_congr_right fun _ =>
    and_congr_left fun _ => ?_
  have hP : 1 ≤ PAGES c := by unfold PAGES; omega
  simp only [addrSeqWf_iff hP hW, addrSeqUsable_iff]
  rfl

/-- `BUFSZ` is an eighth of the pixels, at least a byte, and fits 32 bits (R8, R9, R34). -/
theorem BUFSZ_bounds {c : Config} (h : configWf c = true) :
    BUFSZ c * 8 = c.W * c.H ∧ 1 ≤ BUFSZ c ∧ BUFSZ c < 2 ^ 32 := by
  obtain ⟨⟨hW, hW', hH, hH', hH8⟩, -⟩ := (configWf_iff c).1 h
  have hpages : PAGES c * 8 = c.H := by unfold PAGES; omega
  refine ⟨by rw [BUFSZ, Nat.mul_assoc, hpages], Nat.mul_pos hW (by omega), ?_⟩
  calc BUFSZ c ≤ 32767 * 4095 := Nat.mul_le_mul hW' (by omega)
    _ < 2 ^ 32 := by norm_num

theorem BPO_pos (c : Config) : 0 < BPO c := Nat.two_pow_pos _

/-- `TOTAL` is the least number of chunks that cover the framebuffer (R8). -/
theorem TOTAL_le_iff (c : Config) (n : Nat) : TOTAL c ≤ n ↔ BUFSZ c ≤ n * BPO c := by
  have hB := BPO_pos c
  rw [TOTAL, ← Nat.lt_succ_iff, Nat.div_lt_iff_lt_mul hB, Nat.succ_mul]
  omega

/-- Settles O5: TOTAL is the least number of chunks that cover BUFSZ, and BUFSZ is not 0. -/
theorem chunksCoverTheFramebuffer : Obligations.ChunksCoverTheFramebuffer := by
  intro c h
  obtain ⟨hbits, hpos, -⟩ := BUFSZ_bounds h
  obtain ⟨-, -, ⟨hpow, -⟩, -⟩ := (configWf_iff c).1 h
  have htotal : 1 ≤ TOTAL c := by
    by_contra hlt
    have := (TOTAL_le_iff c 0).1 (by omega)
    omega
  have hlast : (TOTAL c - 1) * BPO c < BUFSZ c := by
    by_contra hle
    have := (TOTAL_le_iff c (TOTAL c - 1)).2 (by omega)
    omega
  unfold EPOW
  exact ⟨by omega, by omega, by omega, by omega, by omega, rfl, hbits, htotal, (TOTAL_le_iff c _).1 le_rfl, hlast⟩

/-! ## Every operation of the bus port only issues transactions (R13, R242) -/

theorem busSeq_afterBus (ts : List BusTx) (s : State) : ∃ recs, (busSeq ts s).2 = afterBus recs s :=
  ⟨_, by rw [busSeq_eq]⟩

theorem busTx_afterBus (t : BusTx) (s : State) : ∃ recs, (busTx t s).2 = afterBus recs s :=
  ⟨_, by rw [busTx_eq]⟩

theorem sendRange_afterBus (a e : Nat) (s : State) : ∃ recs, (sendRange a e s).2 = afterBus recs s :=
  busSeq_afterBus _ s

theorem sendChunk_afterBus (k : Nat) (s : State) : ∃ recs, (sendChunk k s).2 = afterBus recs s := by
  unfold sendChunk
  split
  · exact ⟨[], (afterBus_nil s).symm⟩
  · exact sendRange_afterBus _ _ s

/-- INIT's transfer issues transactions, and clears the framebuffer if it gets past `INITSEQ` (R220). -/
theorem initTransfer_cases (s : State) :
    ∃ recs, (initTransfer s).2 = afterBus recs s ∨
      (initTransfer s).2 = { afterBus recs s with fb := memFill (BUFSZ s.config) 0x00 s.fb } := by
  obtain ⟨recs, hseq⟩ := busSeq_afterBus (s.config.INITSEQ.map BusTx.cmd) s
  unfold initTransfer
  dsimp only
  rw [hseq]
  split
  · obtain ⟨recs', hsend⟩ := sendRange_afterBus 0 (BUFSZ s.config) (fillAll 0x00 (afterBus recs s))
    refine ⟨recs ++ recs', .inr (hsend.trans ?_)⟩
    rw [afterBus_append]; rfl
  · exact ⟨recs, .inl hseq⟩

/-- `t` is `s` after some transactions, with the registers and the framebuffer a bus-class command may write at any
values (R47). -/
def BusFrame (s t : State) : Prop :=
  ∃ recs, t = { afterBus recs s with
    fb := t.fb, ucur := t.ucur, dstate := t.dstate, inv := t.inv, contrast := t.contrast, lastfail := t.lastfail,
    result := t.result }

namespace BusFrame

variable {s t u : State}

theorem of_afterBus (h : ∃ recs, t = afterBus recs s) : BusFrame s t := by
  obtain ⟨recs, rfl⟩ := h
  exact ⟨recs, rfl⟩

/-- A further write to those registers only. -/
theorem update (h : BusFrame s t)
    (hu : u = { t with
      fb := u.fb, ucur := u.ucur, dstate := u.dstate, inv := u.inv, contrast := u.contrast, lastfail := u.lastfail,
      result := u.result }) : BusFrame s u := by
  obtain ⟨recs, ht⟩ := h
  exact ⟨recs, hu.trans (congrArg (fun v => { v with
    fb := u.fb, ucur := u.ucur, dstate := u.dstate, inv := u.inv, contrast := u.contrast, lastfail := u.lastfail,
    result := u.result }) ht)⟩

theorem ite (b : Bool) (h : BusFrame s t) (h' : BusFrame s u) : BusFrame s (if b then t else u) := by
  cases b
  · exact h'
  · exact h

theorem endBusCommand (ok : Bool) (res : Word) (h : BusFrame s t) : BusFrame s (endBusCommand ok res t) :=
  h.update rfl

theorem busTx (b : BusTx) (s : State) : BusFrame s (busTx b s).2 := of_afterBus (busTx_afterBus b s)

theorem sendRange (a e : Nat) (s : State) : BusFrame s (sendRange a e s).2 := of_afterBus (sendRange_afterBus a e s)

theorem initTransfer (s : State) : BusFrame s (initTransfer s).2 := by
  obtain ⟨recs, h | h⟩ := initTransfer_cases s
  · exact of_afterBus ⟨recs, h⟩
  · rw [h]; exact ⟨recs, rfl⟩

end BusFrame

/-! ## What every command leaves (R47) -/

/-- Every command answers a next state, whatever the state (R280). -/
theorem exec_completes (i : Instr) (s : State) : ∃ t, exec i s = .next t := by
  cases i <;> exact ⟨_, rfl⟩

/-- A command outside the bus class writes at most the framebuffer, the text cursor and RESULT (R47). -/
theorem exec_eq_of_not_busClass {i : Instr} {s t : State} (hb : busClass i = false) (h : exec i s = .next t) :
    t = { s with fb := t.fb, curx := t.curx, cury := t.cury, result := t.result } := by
  cases i with
  | init | update | updchunk | tick | dispon | dispoff | toginv | setbright => cases hb
  | fill | clear | getchunks | getucur | setcursor | getcursor | strwidth | rdfb => cases h; rfl
  | pixel | line | rect | fillrect | circle | fillcircle | bitmap => cases h; rw [plot_eq_setFb]; rfl
  | wrchar =>
    cases h
    split
    · rw [putChar_eq]; rfl
    · rfl
  | wrstr | wrstrat => cases h; rw [putString_eq]; rfl
  | wrfb =>
    cases h
    split <;> rfl

/-- A bus-class command issues transactions and writes only the registers of R47. -/
theorem exec_busFrame {i : Instr} {s t : State} (hb : busClass i = true) (h : exec i s = .next t) :
    BusFrame s t := by
  cases i with
  | init =>
    cases h
    have hr := BusFrame.initTransfer s
    exact .endBusCommand _ _ (.ite _ (hr.update rfl) (hr.update rfl))
  | update =>
    cases h
    have hr := BusFrame.sendRange 0 (BUFSZ s.config) s
    exact .endBusCommand _ _ (.ite _ (hr.update rfl) hr)
  | updchunk k => cases h; exact .endBusCommand _ _ (.of_afterBus (sendChunk_afterBus _ s))
  | tick =>
    cases h
    have hr := BusFrame.sendRange s.ucur.toNat (tickEnd s) s
    exact .endBusCommand _ _ (.ite _ (hr.update rfl) hr)
  | dispon | dispoff | toginv =>
    cases h
    exact .endBusCommand _ _ (.ite _ ((BusFrame.busTx _ s).update rfl) (.busTx _ s))
  | setbright v =>
    cases h
    have hr := BusFrame.of_afterBus (busSeq_afterBus [.cmd s.config.CMD_CONTRAST, .cmd v] s)
    exact .endBusCommand _ _ (.ite _ (hr.update rfl) hr)
  | _ => cases hb

/-- `t` has the configuration, the exception state, the command port and the reset count of `s`. -/
structure SameFrame (s t : State) : Prop where
  config : t.config = s.config
  ill : t.ill = s.ill
  illcause : t.illcause = s.illcause
  asm : t.asm = s.asm
  port : t.port = s.port
  resets : t.resets = s.resets

/-- No command writes the configuration, raises an exception or touches the command port (R42, R47, R283). -/
theorem exec_sameFrame {i : Instr} {s t : State} (h : exec i s = .next t) : SameFrame s t := by
  cases hb : busClass i
  · rw [exec_eq_of_not_busClass hb h]; exact ⟨rfl, rfl, rfl, rfl, rfl, rfl⟩
  · obtain ⟨recs, ht⟩ := exec_busFrame hb h
    rw [ht]; exact ⟨rfl, rfl, rfl, rfl, rfl, rfl⟩

/-- Settles O20: a step runs a command, raises Illegal or holds words, and none of these writes the configuration. -/
theorem configurationIsConstant : Obligations.ConfigurationIsConstant := by
  intro s t h
  have hc : t.config = s.config := by
    obtain ⟨-, -, ⟨i, rest, -, hexec⟩ | ⟨cause, word, rest, -, rfl⟩ | ⟨-, -, rfl⟩⟩ := step_next_cases h
    · exact (exec_sameFrame hexec).config
    · rfl
    · rfl
  exact ⟨hc, congrArg Config.FONT hc⟩

/-! ## The framebuffer store (R76, R78) -/

/-- A framebuffer store of a panel: in canonical form, with no offset past the framebuffer. -/
structure StoreOk (c : Config) (m : Memory) : Prop where
  canonical : Memory.wf m = true
  bounded : ∀ cell ∈ m, cell.1 < BUFSZ c

namespace StoreOk

variable {s : State}

theorem memFill {c : Config} {m : Memory} (v : Byte) (h : StoreOk c m) : StoreOk c (memFill (BUFSZ c) v m) :=
  ⟨memWf_memFill _ v m h.canonical, fun cell hcell => (mem_memFill_offset hcell).elim id (h.bounded cell)⟩

theorem memSet {c : Config} {m : Memory} {o : Nat} (v : Byte) (ho : o < BUFSZ c) (h : StoreOk c m) :
    StoreOk c (memSet o v m) :=
  ⟨memWf_memSet o v m h.canonical, fun cell hcell =>
    (mem_memSet_offset hcell).elim (fun he => he ▸ ho) (h.bounded cell)⟩

theorem plot (c : Bool) (pts : List (Int × Int)) (hH : s.config.H % 8 = 0) (h : StoreOk s.config s.fb) :
    StoreOk s.config (plot c pts s).fb :=
  ⟨memWf_plot c pts s h.canonical, plot_bounded c pts s hH h.bounded⟩

theorem putString (c : Bool) (str : List Byte) (hH : s.config.H % 8 = 0) (h : StoreOk s.config s.fb) :
    StoreOk s.config (putString c str s).fb :=
  ⟨putString_canonical c str s h.canonical, putString_bounded c str s hH h.bounded⟩

end StoreOk

/-! The transactions of a command leave the framebuffer and UCUR (R81). -/

@[simp] theorem busSeq_fb (ts : List BusTx) (s : State) : (busSeq ts s).2.fb = s.fb := by rw [busSeq_eq]; rfl
@[simp] theorem busSeq_ucur (ts : List BusTx) (s : State) : (busSeq ts s).2.ucur = s.ucur := by rw [busSeq_eq]; rfl
@[simp] theorem busTx_fb (t : BusTx) (s : State) : (busTx t s).2.fb = s.fb := by rw [busTx_eq]; rfl
@[simp] theorem busTx_ucur (t : BusTx) (s : State) : (busTx t s).2.ucur = s.ucur := by rw [busTx_eq]; rfl
@[simp] theorem sendRange_fb (a e : Nat) (s : State) : (sendRange a e s).2.fb = s.fb := busSeq_fb _ s
@[simp] theorem sendRange_ucur (a e : Nat) (s : State) : (sendRange a e s).2.ucur = s.ucur := busSeq_ucur _ s

@[simp] theorem sendChunk_fb (k : Nat) (s : State) : (sendChunk k s).2.fb = s.fb := by
  obtain ⟨recs, h⟩ := sendChunk_afterBus k s
  rw [h]; rfl

@[simp] theorem sendChunk_ucur (k : Nat) (s : State) : (sendChunk k s).2.ucur = s.ucur := by
  obtain ⟨recs, h⟩ := sendChunk_afterBus k s
  rw [h]; rfl

/-- The commands R47 does not mark leave the framebuffer. -/
theorem exec_fb_of_not_writesFb {i : Instr} {s t : State} (hw : writesFb i = false) (h : exec i s = .next t) :
    t.fb = s.fb := by
  cases i with
  | update | updchunk | tick | dispon | dispoff | toginv | setbright =>
    cases h
    simp [apply_ite State.fb]
  | getchunks | getucur | setcursor | getcursor | strwidth | rdfb => cases h; rfl
  | _ => cases hw

/-- Every command keeps the store's form and bounds. -/
theorem exec_storeOk {i : Instr} {s t : State} (hH : s.config.H % 8 = 0) (hs : StoreOk s.config s.fb)
    (h : exec i s = .next t) : StoreOk s.config t.fb := by
  cases hw : writesFb i
  · rw [exec_fb_of_not_writesFb hw h]; exact hs
  · cases i with
    | fill | clear => cases h; exact hs.memFill _
    | pixel | line | rect | fillrect | circle | fillcircle | bitmap => cases h; exact hs.plot _ _ hH
    | wrchar c ch =>
      cases h
      split
      · rw [setResult_fb, putChar_eq]; exact hs.plot _ _ hH
      · exact hs
    | wrstr c str => cases h; exact hs.putString c str hH
    | wrstrat c x y str => cases h; exact StoreOk.putString (s := setCursor x y s) c str hH hs
    | wrfb v ofs =>
      cases h
      split
      · exact hs.memSet v ‹_›
      · exact hs
    | init =>
      cases h
      have hfb : StoreOk s.config (initTransfer s).2.fb := by
        obtain ⟨recs, hr | hr⟩ := initTransfer_cases s <;> rw [hr]
        · exact hs
        · exact hs.memFill _
      split <;> exact hfb
    | _ => cases hw

/-! ## The update cursor (R34, R252) -/

/-- UCUR is a byte of the framebuffer at the start of a chunk. -/
structure UcurOk (c : Config) (u : Word) : Prop where
  inRange : u.toNat < BUFSZ c
  aligned : u.toNat % BPO c = 0

theorem ucurOk_zero {c : Config} (hc : configWf c = true) : UcurOk c (word32 0) :=
  ⟨(BUFSZ_bounds hc).2.1, Nat.zero_mod _⟩

/-- A chunk that does not end the framebuffer is a whole one, and the next starts where it ends (R252). -/
theorem ucurOk_tickEnd {s : State} (hc : configWf s.config = true) (hu : UcurOk s.config s.ucur)
    (hlast : tickEnd s ≠ BUFSZ s.config) : UcurOk s.config (word32 (tickEnd s)) := by
  obtain ⟨-, -, hfits⟩ := BUFSZ_bounds hc
  have hrange := hu.inRange
  have hend : tickEnd s = s.ucur.toNat + BPO s.config ∧ tickEnd s < BUFSZ s.config := by
    unfold tickEnd at hlast ⊢
    omega
  have hval : (word32 (tickEnd s)).toNat = tickEnd s := Nat.mod_eq_of_lt (by omega)
  refine ⟨by rw [hval]; exact hend.2, ?_⟩
  rw [hval, hend.1, Nat.add_mod_right]
  exact hu.aligned

/-- Only a flush and TICK write UCUR (R34, R47). -/
theorem exec_ucur {i : Instr} {s t : State} (hinit : i ≠ .init) (hupdate : i ≠ .update) (htick : i ≠ .tick)
    (h : exec i s = .next t) : t.ucur = s.ucur := by
  cases hb : busClass i
  · rw [exec_eq_of_not_busClass hb h]
  · cases i with
    | init => exact absurd rfl hinit
    | update => exact absurd rfl hupdate
    | tick => exact absurd rfl htick
    | updchunk | dispon | dispoff | toginv | setbright =>
      cases h
      simp [apply_ite State.ucur]
    | _ => cases hb

/-- Everything a command can do to UCUR (R220, R249, R252). -/
theorem exec_ucur_cases {i : Instr} {s t : State} (h : exec i s = .next t) :
    t.ucur = s.ucur ∨ t.ucur = word32 0 ∨
      (tickEnd s ≠ BUFSZ s.config ∧ t.ucur = word32 (tickEnd s)) := by
  cases i with
  | init =>
    cases h
    split
    · exact .inr (.inl rfl)
    · left
      obtain ⟨recs, hr | hr⟩ := initTransfer_cases s <;> rw [hr] <;> rfl
  | update =>
    cases h
    split
    · exact .inr (.inl rfl)
    · exact .inl (sendRange_ucur _ _ s)
  | tick =>
    cases h
    split
    · by_cases hlast : tickEnd s = BUFSZ s.config
      · exact .inr (.inl (by simp [hlast, setUcur]))
      · exact .inr (.inr ⟨hlast, by simp [hlast, setUcur]⟩)
    · exact .inl (sendRange_ucur _ _ s)
  | _ => exact .inl (exec_ucur (by simp) (by simp) (by simp) h)

/-- Every command keeps UCUR at a chunk of the framebuffer. -/
theorem exec_ucurOk {i : Instr} {s t : State} (hc : configWf s.config = true) (hu : UcurOk s.config s.ucur)
    (h : exec i s = .next t) : UcurOk s.config t.ucur := by
  obtain he | he | ⟨hlast, he⟩ := exec_ucur_cases h <;> rw [he]
  · exact hu
  · exact ucurOk_zero hc
  · exact ucurOk_tickEnd hc hu hlast

/-! ## The invariant -/

/-- A command executed with the buffer emptied keeps the invariant. -/
theorem exec_keeps_invariant {i : Instr} {s t : State} (hs : s.Invariant) (hasm : s.asm = [])
    (h : exec i s = .next t) : t.Invariant := by
  have hframe := exec_sameFrame h
  have hH : s.config.H % 8 = 0 := by
    obtain ⟨⟨-, -, -, -, hH⟩, -⟩ := (configWf_iff s.config).1 hs.config
    exact hH
  have hstore := exec_storeOk hH ⟨hs.canonical, hs.bounded⟩ h
  have hucur := exec_ucurOk hs.config ⟨hs.ucurInRange, hs.ucurAligned⟩ h
  rw [← hframe.config] at hstore hucur
  exact {
    config := hframe.config ▸ hs.config
    canonical := hstore.canonical
    bounded := hstore.bounded
    ucurInRange := hucur.inRange
    ucurAligned := hucur.aligned
    causeIffIll := by rw [hframe.illcause, hframe.ill]; exact hs.causeIffIll
    asmPartial := by rw [hframe.asm]; exact hs.asmPartial
    asmHalted := fun _ => hframe.asm.trans hasm }

theorem takeCommand_keeps_invariant {s : State} (hs : s.Invariant) (rest : List Word) :
    (takeCommand rest s).Invariant :=
  { hs with asmPartial := rfl, asmHalted := fun _ => rfl }

theorem illCauseCode_ne_zero (cause : IllCause) : illCauseCode cause ≠ 0 := by
  cases cause <;> decide

/-- Raising Illegal with the buffer emptied keeps the invariant (R281). -/
theorem raiseIllegal_keeps_invariant {s : State} (hs : s.Invariant) (hasm : s.asm = []) (cause : IllCause)
    (word : Word) : (raiseIllegal cause word s).Invariant :=
  { hs with causeIffIll := iff_of_true (illCauseCode_ne_zero cause) rfl, asmHalted := fun _ => hasm }

/-- Holding the words of an incomplete command keeps the invariant of a running FBC (R101). -/
theorem holdWords_keeps_invariant {s : State} (hs : s.Invariant) (hrunning : s.ill = false)
    (hfetch : fetch s = .incomplete) : (holdWords s).Invariant :=
  { hs with asmPartial := hfetch, asmHalted := fun hill => absurd (hrunning.symm.trans hill) Bool.false_ne_true }

/-- Settles O18: each of the three things a step can do keeps the invariant. -/
theorem everyStepKeepsTheInvariant : Obligations.EveryStepKeepsTheInvariant := by
  intro s t hs h
  obtain ⟨-, hrunning, ⟨i, rest, -, hexec⟩ | ⟨cause, word, rest, -, rfl⟩ | ⟨hfetch, -, rfl⟩⟩ := step_next_cases h
  · exact exec_keeps_invariant (takeCommand_keeps_invariant hs rest) rfl hexec
  · exact raiseIllegal_keeps_invariant (takeCommand_keeps_invariant hs rest) rfl cause word
  · exact holdWords_keeps_invariant hs hrunning hfetch

/-! ## A command's words are read back (R101-R111) -/

theorem withLowArg_argWord_zero (lo : Half) (ws : List Word) (k : Half → List Word → DecodeResult) :
    withLowArg (argWord lo 0#16 :: ws) k = k lo ws := by
  rw [withLowArg_cons_zero (by simp), loHalf_argWord]

/-- A LEN word and the packed string after it are read back (R108, R110). -/
theorem withLowArg_lenWord_withPayload {str : List Byte} (h : stringFits str = true) (rest : List Word)
    (k : List Byte → List Word → DecodeResult) :
    withLowArg (lenWord str :: (packBytes str ++ rest)) (fun n ws => withPayload (uint16 n) ws k) = k str rest := by
  rw [withLowArg_cons_zero (hiHalf_lenWord str), uint16_lenWord (of_decide_eq_true h), withPayload_packBytes]

/-- The words of a well-formed command are read back as that command, whatever follows (R101-R111). -/
theorem decodeWords_encode {i : Instr} (h : i.wf = true) (rest : List Word) :
    decodeWords (encode i ++ rest) = .complete i rest := by
  cases i with
  | init | clear | update | tick | getchunks | getucur | dispon | dispoff | toginv | getcursor
  | updchunk | setcursor | rdfb => simp [encode, decodeWords, withF0_headerWord]
  | fill | pixel | line | rect | fillrect => simp [encode, decodeWords, withFC_headerWord]
  | setbright | wrfb => simp [encode, decodeWords, withFI_headerWord]
  | wrchar => simp [encode, decodeWords, withFIC_headerWord]
  | circle | fillcircle => simp [encode, decodeWords, withFC_headerWord, withLowArg_argWord_zero]
  | bitmap _ _ _ width height d =>
    have hd : bitmapBytes width height = d.length := (of_decide_eq_true h).symm
    simp [encode, decodeWords, withFC_headerWord, hd, withPayload_packBytes]
  | wrstr | wrstrat => simp [encode, decodeWords, withFC_headerWord, withLowArg_lenWord_withPayload h]
  | strwidth => simp [encode, decodeWords, withF0_headerWord, withLowArg_lenWord_withPayload h]

/-! ## No command reads the port (R101) -/

/-- `s` with the words `ws` waiting at the port. -/
def withPort (ws : List Word) (s : State) : State := { s with port := ws }

section WithPort

variable (ws : List Word)

theorem withPort_config (s : State) : (withPort ws s).config = s.config := rfl
theorem withPort_ucur (s : State) : (withPort ws s).ucur = s.ucur := rfl
theorem withPort_dstate (s : State) : (withPort ws s).dstate = s.dstate := rfl
theorem withPort_inv (s : State) : (withPort ws s).inv = s.inv := rfl
theorem withPort_tickEnd (s : State) : tickEnd (withPort ws s) = tickEnd s := rfl
theorem withPort_endBusCommand (ok : Bool) (res : Word) (s : State) :
    withPort ws (endBusCommand ok res s) = endBusCommand ok res (withPort ws s) := rfl
theorem withPort_ite (p : Prop) [Decidable p] (s t : State) :
    withPort ws (if p then s else t) = if p then withPort ws s else withPort ws t := apply_ite _ _ _ _

theorem setPixel_withPort (c : Bool) (s : State) (p : Int × Int) :
    setPixel c (withPort ws s) p = withPort ws (setPixel c s p) := by
  unfold setPixel
  rw [withPort_ite]
  rfl

theorem plot_withPort (c : Bool) (pts : List (Int × Int)) (s : State) :
    plot c pts (withPort ws s) = withPort ws (plot c pts s) := by
  induction pts generalizing s with
  | nil => rfl
  | cons p pts ih => rw [plot_cons, plot_cons, setPixel_withPort, ih]

theorem putChar_withPort (c : Bool) (ch : Byte) (s : State) :
    putChar c ch (withPort ws s) = withPort ws (putChar c ch s) :=
  congrArg (advanceCursor ch) (plot_withPort ws c _ s)

theorem putString_withPort (c : Bool) (str : List Byte) (s : State) :
    putString c str (withPort ws s) = withPort ws (putString c str s) := by
  induction str generalizing s with
  | nil => rfl
  | cons ch rest ih =>
    unfold putString
    split
    · rw [putChar_withPort, ih]
    · rfl

theorem busSeq_withPort (ts : List BusTx) (s : State) :
    busSeq ts (withPort ws s) = ((busSeq ts s).1, withPort ws (busSeq ts s).2) := by
  rw [busSeq_eq, busSeq_eq]; rfl

theorem busTx_withPort (t : BusTx) (s : State) :
    busTx t (withPort ws s) = ((busTx t s).1, withPort ws (busTx t s).2) := by
  rw [busTx_eq, busTx_eq]; rfl

theorem rangeTxs_withPort (s : State) (n a e : Nat) : rangeTxs (withPort ws s) n a e = rangeTxs s n a e :=
  rangeTxs_congr (s := s) (t := withPort ws s) rfl (fun _ => rfl) n a e

theorem sendRange_withPort (a e : Nat) (s : State) :
    sendRange a e (withPort ws s) = ((sendRange a e s).1, withPort ws (sendRange a e s).2) := by
  rw [sendRange, rangeTxs_withPort, busSeq_withPort, sendRange]

theorem sendChunk_withPort (k : Nat) (s : State) :
    sendChunk k (withPort ws s) = ((sendChunk k s).1, withPort ws (sendChunk k s).2) := by
  simp only [sendChunk, withPort_config, sendRange_withPort]
  split <;> rfl

theorem clearAndSend_withPort (s : State) :
    clearAndSend (withPort ws s) = ((clearAndSend s).1, withPort ws (clearAndSend s).2) :=
  sendRange_withPort ws 0 _ (fillAll 0x00 s)

theorem initTransfer_withPort (s : State) :
    initTransfer (withPort ws s) = ((initTransfer s).1, withPort ws (initTransfer s).2) := by
  simp only [initTransfer, withPort_config, busSeq_withPort, clearAndSend_withPort]
  split <;> rfl

/-- The words still to come play no part in a command (R101). -/
theorem exec_withPort {i : Instr} {s t : State} (h : exec i s = .next t) :
    exec i (withPort ws s) = .next (withPort ws t) := by
  cases i with
  | fill | clear | getchunks | getucur | setcursor | getcursor | strwidth | rdfb => cases h; rfl
  | pixel | line | rect | fillrect | circle | fillcircle | bitmap =>
    cases h
    exact congrArg _ (plot_withPort ws _ _ s)
  | wrchar c ch =>
    cases h
    simp only [exec, execWrchar, putChar_withPort, withPort_ite]
    rfl
  | wrstr c str => cases h; exact congrArg (fun u => Host.Outcome.next (setResult _ u)) (putString_withPort ws c str s)
  | wrstrat c x y str =>
    cases h
    exact congrArg (fun u => Host.Outcome.next (setResult _ u)) (putString_withPort ws c str (setCursor x y s))
  | wrfb v ofs =>
    cases h
    simp only [exec, execWrfb, withPort_config, withPort_ite]
    rfl
  | updchunk k =>
    cases h
    simp only [exec, execUpdchunk, withPort_config, sendChunk_withPort]
    rfl
  | init | update | tick | dispon | dispoff | toginv | setbright =>
    cases h
    simp only [exec, execInit, execUpdate, execTick, execDispon, execDispoff, execToginv, execSetbright,
      withPort_config, withPort_ucur, withPort_dstate, withPort_inv, withPort_tickEnd, initTransfer_withPort,
      sendRange_withPort, busTx_withPort, busSeq_withPort, withPort_endBusCommand, withPort_ite]
    rfl

end WithPort

/-! ## Runs of a legal stream (R17, R80) -/

theorem withPort_of_port {s : State} {ws : List Word} (h : s.port = ws) : withPort ws s = s := by
  subst h; rfl

theorem withPort_takeCommand {s : State} (hasm : s.asm = []) (rest : List Word) {ws : List Word} :
    withPort ws (takeCommand rest s) = withPort ws s := by
  simp [withPort, takeCommand, hasm]

theorem execAll_cons_of_next {i : Instr} {s t : State} (h : exec i s = .next t) (is : List Instr) :
    execAll (i :: is) s = execAll is t := by
  rw [execAll, h]

theorem run_succ_of_next {M : Host.Core} {s u : M.State} (h : M.step s = .next u) (n : Nat) :
    M.run (n + 1) s = M.run n u := by
  rw [Host.Core.run, h]

theorem run_succ_of_refused {M : Host.Core} {s : M.State} {r : M.Refusal} (h : M.step s = .refused r) (n : Nat) :
    M.run (n + 1) s = .refused r := by
  rw [Host.Core.run, h]

theorem neverFaults_of_next {s u : State} (h : step s = .next u) (hu : u.NeverFaults) : s.NeverFaults := by
  intro n f
  cases n with
  | zero => exact nofun
  | succ n => rw [run_succ_of_next (M := Sys2Proof.core) h]; exact hu n f

theorem neverFaults_of_refused {s : State} {r : Refusal} (h : step s = .refused r) : s.NeverFaults := by
  intro n f
  cases n with
  | zero => exact nofun
  | succ n => rw [run_succ_of_refused (M := Sys2Proof.core) h]; exact nofun

/-- With every word consumed and no command begun, the run has reached its end (R17). -/
theorem step_streamConsumed {s : State} (hc : configWf s.config = true) (hrunning : s.ill = false)
    (hasm : s.asm = []) (hport : s.port = []) : step s = .refused .streamConsumed := by
  have hfetch : fetch s = .incomplete := by rw [fetch, portWords, hasm, hport]; rfl
  rw [step_incomplete hc hrunning hfetch, waitForWords, hport, hasm]
  rfl

theorem fetch_encode {i : Instr} {s : State} {rest : List Word} (hwf : i.wf = true) (hasm : s.asm = [])
    (hport : s.port = encode i ++ rest) : fetch s = .complete i rest := by
  rw [fetch, portWords, hasm, hport]
  exact decodeWords_encode hwf rest

/-- Settles O17, by induction on the commands: the first step runs the first command and leaves the words of the rest,
and `exec_withPort` carries that execution over to the state with an empty port. -/
theorem legalStreamRunsInOrderToItsEnd : Obligations.LegalStreamRunsInOrderToItsEnd := by
  intro is
  induction is with
  | nil =>
    intro s _ hc hrunning hasm hport
    have hend := step_streamConsumed hc hrunning hasm hport
    exact ⟨⟨s, rfl, congrArg Host.Outcome.next (withPort_of_port hport), hend⟩, neverFaults_of_refused hend⟩
  | cons i is ih =>
    intro s hwf hc hrunning hasm hport
    obtain ⟨hi, his⟩ := List.forall_mem_cons.1 hwf
    obtain ⟨u, hexec⟩ := exec_completes i (takeCommand (is.flatMap encode) s)
    have hstep := (step_complete hc hrunning (fetch_encode hi hasm hport)).trans hexec
    have hframe := exec_sameFrame hexec
    obtain ⟨⟨t, hrun, hall, hend⟩, hnever⟩ := ih u his (by rw [hframe.config]; exact hc)
      (hframe.ill.trans hrunning) hframe.asm hframe.port
    have hfirst : exec i (withPort [] s) = .next (withPort [] u) := by
      rw [← withPort_takeCommand hasm (is.flatMap encode)]
      exact exec_withPort [] hexec
    exact ⟨⟨t, (run_succ_of_next (M := Sys2Proof.core) hstep _).trans hrun,
      (execAll_cons_of_next hfirst is).trans hall, hend⟩, neverFaults_of_next hstep hnever⟩

end Sys2Proof.Machine
end

section
/-! PROOFS. The statements of the state: STATUS, reset, what DSTATE gates, and which registers a command leaves. -/

namespace Sys2Proof.Machine

/-! ## STATUS (R35, R36) -/

/-- The fields of several bits, each read from the part of the append that it is. -/
theorem status_fields (s : State) :
    (status s).extractLsb' 0 2 = dstateCode s.dstate ∧ (status s).extractLsb' 5 2 = s.illcause ∧
      (status s).extractLsb' 8 8 = s.contrast ∧ (status s).extractLsb' 16 16 = 0 := by
  simp (disch := decide) only [status, BitVec.extractLsb'_append_eq_of_add_le, BitVec.extractLsb'_append_eq_of_le]
  exact ⟨BitVec.extractLsb'_eq_self, BitVec.extractLsb'_eq_self, BitVec.extractLsb'_eq_self,
    BitVec.extractLsb'_eq_self⟩

/-- The fields of one bit. -/
theorem status_bits (s : State) :
    (status s).getLsbD 2 = s.inv ∧ (status s).getLsbD 3 = s.lastfail ∧ (status s).getLsbD 4 = s.ill ∧
      (status s).getLsbD 7 = false := by
  simp only [status, BitVec.getLsbD_append]
  simp

theorem dstateCode_ne_three (d : DState) : dstateCode d ≠ 3 := by
  cases d <;> decide

/-- Settles O3: the fields of STATUS by their places in the append. -/
theorem statusPortShowsEachField : Obligations.StatusPortShowsEachField := by
  refine ⟨⟨rfl, rfl, rfl⟩, fun s => ?_⟩
  obtain ⟨hdstate, hcause, hcontrast, hhigh⟩ := status_fields s
  obtain ⟨hinv, hlastfail, hill, hreserved⟩ := status_bits s
  exact ⟨hdstate, dstateCode_ne_three _, hinv, hlastfail, hill, hcause, hreserved, hcontrast, hhigh⟩

/-! ## Reset (R46, R310) -/

theorem status_resetWith (c : Config) : status (State.resetWith c) = 0 := by
  simp only [status, State.resetWith]
  rfl

/-- Nothing is stored after a reset, so every byte is the free one (R46). -/
theorem memRead_resetWith (c : Config) (o : Nat) :
    memRead (State.resetWith c) o = Config.resetByte (State.resetWith c).resets o := rfl

/-- Settles O1: the registers as `State.resetWith` writes them, STATUS and the framebuffer by the two lemmas above. -/
theorem resetGivesEveryRegisterItsValue : Obligations.ResetGivesEveryRegisterItsValue := fun c =>
  ⟨rfl, rfl, rfl, rfl, rfl, rfl, rfl, rfl, rfl, rfl, rfl, status_resetWith c, memRead_resetWith c, rfl⟩

theorem resetWith_invariant {c : Config} (hc : configWf c = true) : (State.resetWith c).Invariant where
  config := hc
  canonical := rfl
  bounded := nofun
  ucurInRange := (BUFSZ_bounds hc).2.1
  ucurAligned := Nat.zero_mod _
  causeIffIll := iff_of_false (fun h => h rfl) Bool.false_ne_true
  asmPartial := rfl
  asmHalted := nofun

theorem configWf_examplePanel : configWf examplePanel = true := by decide

/-- What a platform reset keeps (the host's words, the trace, the answers) is no part of the invariant. -/
theorem platformReset_invariant {s : State} (hs : s.Invariant) : (platformReset s).Invariant :=
  { resetWith_invariant hs.config with }

/-- The words at the port are no part of the invariant. -/
theorem hostWrite_invariant {s : State} (hs : s.Invariant) (ws : List Word) : (hostWrite ws s).Invariant := by
  unfold hostWrite
  split
  · exact hs
  · exact { hs with }

/-- Settles O19, from the invariant of the reset state of any well-formed configuration. -/
theorem resetMeetsTheInvariant : Obligations.ResetMeetsTheInvariant :=
  ⟨fun _ => resetWith_invariant, resetWith_invariant configWf_examplePanel,
    fun _ hs => ⟨platformReset_invariant hs, hostWrite_invariant hs⟩⟩

/-! ## Registers that drawing and transfers do not read (R36, R75, R288) -/

/-- `f` writes only what no drawing and no transaction reads or writes. -/
structure Unread (f : State → State) : Prop where
  config : ∀ s, (f s).config = s.config
  curx : ∀ s, (f s).curx = s.curx
  cury : ∀ s, (f s).cury = s.cury
  memRead : ∀ s o, memRead (f s) o = memRead s o
  memWrite : ∀ s o v, memWrite o v (f s) = f (memWrite o v s)
  fillAll : ∀ s v, fillAll v (f s) = f (fillAll v s)
  setCurx : ∀ s x, setCurx x (f s) = f (setCurx x s)
  answerAt : ∀ s, answerAt (f s) = answerAt s
  afterBus : ∀ s recs, afterBus recs (f s) = f (afterBus recs s)

theorem unread_setDstate (d : DState) : Unread (setDstate d) := by
  constructor <;> intros <;> rfl

section Unread

variable {f : State → State} (hf : Unread f)

include hf

theorem setPixel_unread (c : Bool) (s : State) (p : Int × Int) : setPixel c (f s) p = f (setPixel c s p) := by
  simp only [setPixel, hf.config, hf.memRead, hf.memWrite, apply_ite f]

theorem plot_unread (c : Bool) (pts : List (Int × Int)) (s : State) : plot c pts (f s) = f (plot c pts s) :=
  List.foldl_hom f (setPixel_unread hf c)

theorem putChar_unread (c : Bool) (ch : Byte) (s : State) : putChar c ch (f s) = f (putChar c ch s) := by
  simp only [putChar, advanceCursor, drawGlyph, hf.config, hf.curx, hf.cury, plot_unread hf, hf.setCurx]

theorem putString_unread (c : Bool) (str : List Byte) (s : State) :
    putString c str (f s) = f (putString c str s) := by
  induction str generalizing s with
  | nil => rfl
  | cons ch rest ih => simp only [putString, putChar_unread hf, ih, apply_ite f]

theorem busSeq_unread (ts : List BusTx) (s : State) : busSeq ts (f s) = ((busSeq ts s).1, f (busSeq ts s).2) := by
  rw [busSeq_eq, busSeq_eq, hf.answerAt, hf.afterBus]

theorem busTx_unread (t : BusTx) (s : State) : busTx t (f s) = ((busTx t s).1, f (busTx t s).2) := by
  rw [busTx_eq, busTx_eq, hf.answerAt, hf.afterBus]

theorem sendRange_unread (a e : Nat) (s : State) :
    sendRange a e (f s) = ((sendRange a e s).1, f (sendRange a e s).2) := by
  rw [sendRange, rangeTxs_congr (hf.config s) (hf.memRead s), busSeq_unread hf, sendRange]

theorem sendChunk_unread (k : Nat) (s : State) : sendChunk k (f s) = ((sendChunk k s).1, f (sendChunk k s).2) := by
  simp only [sendChunk, hf.config, sendRange_unread hf]
  split <;> rfl

theorem initTransfer_unread (s : State) :
    initTransfer (f s) = ((initTransfer s).1, f (initTransfer s).2) := by
  simp only [initTransfer, clearAndSend, hf.config, busSeq_unread hf, hf.fillAll, sendRange_unread hf]
  split <;> rfl

end Unread

theorem tickEnd_setDstate (d : DState) (s : State) : tickEnd (setDstate d s) = tickEnd s := rfl

/-- The epilogue of a bus-class command keeps a difference in DSTATE alone, whichever branch it ends (R213). -/
theorem endBusCommand_ite_setDstate (ok : Bool) (res : Word) {t t' u u' : State} (ht : ∃ d, t' = setDstate d t)
    (hu : ∃ d, u' = setDstate d u) :
    ∃ d, (Host.Outcome.next (endBusCommand ok res (if ok then t' else u')) : Host.Outcome State Fault Refusal) =
      .next (setDstate d (endBusCommand ok res (if ok then t else u))) := by
  obtain ⟨d, rfl⟩ := ht
  obtain ⟨d', rfl⟩ := hu
  cases ok
  · exact ⟨d', rfl⟩
  · exact ⟨d, rfl⟩

/-- In another display state a command leaves the same state but for some other DSTATE: the one it writes, or the one
it found (R36, R288). -/
theorem exec_setDstate {i : Instr} {s t : State} (d : DState) (h : exec i s = .next t) :
    ∃ d', exec i (setDstate d s) = .next (setDstate d' t) := by
  have hd := unread_setDstate d
  cases i with
  | fill | clear | getchunks | getucur | setcursor | getcursor | strwidth | rdfb => cases h; exact ⟨d, rfl⟩
  | pixel | line | rect | fillrect | circle | fillcircle | bitmap =>
    cases h
    exact ⟨d, congrArg _ (plot_unread hd _ _ s)⟩
  | wrchar c ch =>
    cases h
    refine ⟨d, ?_⟩
    rw [exec, execWrchar, putChar_unread hd, apply_ite (setDstate d)]
    rfl
  | wrstr c str =>
    cases h
    exact ⟨d, congrArg (fun u => Host.Outcome.next (setResult _ u)) (putString_unread hd c str s)⟩
  | wrstrat c x y str =>
    cases h
    exact ⟨d, congrArg (fun u => Host.Outcome.next (setResult _ u)) (putString_unread hd c str (setCursor x y s))⟩
  | wrfb v ofs =>
    cases h
    refine ⟨d, ?_⟩
    rw [apply_ite (setDstate d)]
    rfl
  | updchunk k =>
    cases h
    refine ⟨d, ?_⟩
    rw [exec, execUpdchunk, sendChunk_unread hd]
    rfl
  | update | tick | toginv | setbright =>
    cases h
    simp only [exec, execUpdate, execTick, execToginv, execSetbright, setDstate_config, setDstate_ucur, setDstate_inv,
      tickEnd_setDstate, sendRange_unread hd, busTx_unread hd, busSeq_unread hd]
    exact endBusCommand_ite_setDstate _ _ ⟨d, rfl⟩ ⟨d, rfl⟩
  | dispon | dispoff =>
    cases h
    simp only [exec, execDispon, execDispoff, setDstate_config, setDstate_dstate, busTx_unread hd]
    exact endBusCommand_ite_setDstate _ _ ⟨displayState d _, rfl⟩ ⟨d, rfl⟩
  | init =>
    cases h
    simp only [exec, execInit, initTransfer_unread hd]
    exact endBusCommand_ite_setDstate _ _ ⟨.active, rfl⟩ ⟨.uninit, rfl⟩

/-- Settles O24: `exec_setDstate`, since writing DSTATE again hides the display state the command leaves. -/
theorem displayStateGatesNoCommand : Obligations.DisplayStateGatesNoCommand := by
  intro i s t d h
  obtain ⟨d', h'⟩ := exec_setDstate d h
  exact ⟨setDstate d' t, h', rfl⟩

/-! ## Which registers a command writes (R47) -/

/-- The registers, besides RESULT and LASTFAIL, that a bus-class command other than INIT, executed in state `s`, writes
when no transaction fails: the "w ok" entries of R47. -/
def okWrites (i : Instr) (s : State) : State → State :=
  match i with
  | .update => setUcur 0
  | .tick => setUcur (if decide (tickEnd s = BUFSZ s.config) then 0 else tickEnd s)
  | .dispon => setDstate (displayState s.dstate .active)
  | .dispoff => setDstate (displayState s.dstate .off)
  | .toginv => setInv (!s.inv)
  | .setbright v => setContrast v
  | _ => id

/-- `t` is `s` after some transactions, then the command's writes or none, then RESULT and LASTFAIL (R213); which
transactions, their outcome `ok` and the result are left open. -/
def BusEffect (i : Instr) (s t : State) : Prop :=
  ∃ recs ok res, t = endBusCommand ok res (if ok then okWrites i s (afterBus recs s) else afterBus recs s)

theorem busEffect_of_transfer {i : Instr} {s : State} {r : Bool × State} {res : Word}
    (hr : ∃ recs, r.2 = afterBus recs s) :
    BusEffect i s (endBusCommand r.1 res (if r.1 then okWrites i s r.2 else r.2)) := by
  obtain ⟨recs, hr⟩ := hr
  exact ⟨recs, r.1, res, by rw [hr]⟩

/-- The registers of R47 that a bus-class command other than INIT can write, and with what. -/
theorem exec_busEffect {i : Instr} {s t : State} (hb : busClass i = true) (hinit : i ≠ .init)
    (h : exec i s = .next t) : BusEffect i s t := by
  cases i with
  | init => exact absurd rfl hinit
  | update => cases h; exact busEffect_of_transfer (sendRange_afterBus 0 (BUFSZ s.config) s)
  | updchunk k =>
    cases h
    obtain ⟨recs, hr⟩ := sendChunk_afterBus k.toNat s
    exact ⟨recs, (sendChunk k.toNat s).1, _, congrArg (endBusCommand _ _) (hr.trans (ite_self _).symm)⟩
  | tick => cases h; exact busEffect_of_transfer (sendRange_afterBus s.ucur.toNat (tickEnd s) s)
  | dispon | dispoff | toginv => cases h; exact busEffect_of_transfer (busTx_afterBus _ s)
  | setbright v =>
    cases h
    exact busEffect_of_transfer (i := .setbright v) (busSeq_afterBus [.cmd s.config.CMD_CONTRAST, .cmd v] s)
  | _ => cases hb

/-- Drawing, FILL, CLEAR and WRFB write the framebuffer only. -/
theorem exec_eq_of_keepsResult {i : Instr} {s t : State} (hk : keepsResult i = true)
    (hcursor : ∀ x y, i ≠ .setcursor x y) (h : exec i s = .next t) : t = { s with fb := t.fb } := by
  cases i with
  | fill | clear => cases h; rfl
  | pixel | line | rect | fillrect | circle | fillcircle | bitmap => cases h; rw [plot_eq_setFb]; rfl
  | setcursor x y => exact absurd rfl (hcursor x y)
  | wrfb => cases h; split <;> rfl
  | _ => cases hk

/-- The commands R41 and R47 do not mark leave RESULT. -/
theorem exec_result {i : Instr} {s t : State} (hk : keepsResult i = true) (h : exec i s = .next t) :
    t.result = s.result := by
  cases i with
  | setcursor => cases h; rfl
  | _ => rw [exec_eq_of_keepsResult hk nofun h]

/-- Only SETCURSOR and the text writers move the text cursor (R33). -/
theorem exec_cursor {i : Instr} {s t : State} (hcursor : ∀ x y, i ≠ .setcursor x y)
    (hstrat : ∀ c x y str, i ≠ .wrstrat c x y str) (hchar : ∀ c ch, i ≠ .wrchar c ch)
    (hstr : ∀ c str, i ≠ .wrstr c str) (h : exec i s = .next t) : t.curx = s.curx ∧ t.cury = s.cury := by
  cases hb : busClass i
  · cases hk : keepsResult i
    · cases i with
      | getchunks | getucur | getcursor | strwidth | rdfb => cases h; exact ⟨rfl, rfl⟩
      | wrchar c ch => exact absurd rfl (hchar c ch)
      | wrstr c str => exact absurd rfl (hstr c str)
      | wrstrat c x y str => exact absurd rfl (hstrat c x y str)
      | init | update | updchunk | tick | dispon | dispoff | toginv | setbright => cases hb
      | _ => cases hk
    · rw [exec_eq_of_keepsResult hk hcursor h]; exact ⟨rfl, rfl⟩
  · obtain ⟨recs, ht⟩ := exec_busFrame hb h
    rw [ht]; exact ⟨rfl, rfl⟩

/-- WRCHAR and WRSTR move the cursor's column only (R188), so they leave CURY too. -/
theorem exec_cury {i : Instr} {s t : State} (hcursor : ∀ x y, i ≠ .setcursor x y)
    (hstrat : ∀ c x y str, i ≠ .wrstrat c x y str) (h : exec i s = .next t) : t.cury = s.cury := by
  cases i with
  | wrchar =>
    cases h
    split
    · rw [putChar_eq]; rfl
    · rfl
  | wrstr => cases h; rw [putString_eq]; rfl
  | _ => exact (exec_cursor hcursor hstrat nofun nofun h).2

/-- DSTATE, INV and CONTRAST are left, or have what the command writes to them on success. -/
theorem exec_displayRegisters {i : Instr} {s t : State} (hinit : i ≠ .init) (h : exec i s = .next t) :
    ∃ u, (u = s ∨ u = okWrites i s s) ∧ t.dstate = u.dstate ∧ t.inv = u.inv ∧ t.contrast = u.contrast := by
  cases hb : busClass i
  · rw [exec_eq_of_not_busClass hb h]; exact ⟨s, .inl rfl, rfl, rfl, rfl⟩
  · obtain ⟨recs, ok, res, rfl⟩ := exec_busEffect hb hinit h
    cases ok
    · exact ⟨s, .inl rfl, rfl, rfl, rfl⟩
    · exact ⟨okWrites i s s, .inr rfl, by cases i <;> exact ⟨rfl, rfl, rfl⟩⟩

theorem exec_dstate {i : Instr} {s t : State} (hinit : i ≠ .init) (hon : i ≠ .dispon) (hoff : i ≠ .dispoff)
    (h : exec i s = .next t) : t.dstate = s.dstate := by
  obtain ⟨u, rfl | rfl, hdstate, -, -⟩ := exec_displayRegisters hinit h <;> rw [hdstate]
  cases i with
  | dispon => exact absurd rfl hon
  | dispoff => exact absurd rfl hoff
  | _ => rfl

theorem exec_inv {i : Instr} {s t : State} (hinit : i ≠ .init) (htoginv : i ≠ .toginv) (h : exec i s = .next t) :
    t.inv = s.inv := by
  obtain ⟨u, rfl | rfl, -, hinv, -⟩ := exec_displayRegisters hinit h <;> rw [hinv]
  cases i with
  | toginv => exact absurd rfl htoginv
  | _ => rfl

theorem exec_contrast {i : Instr} {s t : State} (hinit : i ≠ .init) (hbright : ∀ v, i ≠ .setbright v)
    (h : exec i s = .next t) : t.contrast = s.contrast := by
  obtain ⟨u, rfl | rfl, -, -, hcontrast⟩ := exec_displayRegisters hinit h <;> rw [hcontrast]
  cases i with
  | setbright v => exact absurd rfl (hbright v)
  | _ => rfl

/-- Settles O25, register by register. -/
theorem commandsLeaveTheRegistersR47LeavesBlank : Obligations.CommandsLeaveTheRegistersR47LeavesBlank := by
  intro i s t h
  have hframe := exec_sameFrame h
  refine ⟨fun hw => exec_fb_of_not_writesFb hw h, fun hk => exec_result hk h,
    fun hcursor hstrat => exec_cury hcursor hstrat h,
    fun hcursor hstrat hchar hstr => (exec_cursor hcursor hstrat hchar hstr h).1,
    fun hinit hupdate htick => exec_ucur hinit hupdate htick h,
    fun hinit hon hoff => exec_dstate hinit hon hoff h,
    fun hinit htoginv => exec_inv hinit htoginv h, fun hinit hbright => exec_contrast hinit hbright h, fun hb => ?_,
    hframe.ill, hframe.illcause, hframe.config, hframe.asm, hframe.port, hframe.resets⟩
  rw [exec_eq_of_not_busClass hb h]

end Sys2Proof.Machine
end

section
/-! PROOFS. The statement of memory: the framebuffer's layout. -/

namespace Sys2Proof.Machine

/-! ## The layout, from a byte's offset to its pixels (R71) -/

/-- The offset of the pixel that R71 puts in a bit of the byte at `o` is `o`. -/
theorem pixOfs_of_offset (c : Config) (o : Nat) {b : Nat} (hb : b < 8) :
    pixOfs c (o % c.W) (8 * (o / c.W) + b) = o := by
  have hpage : (8 * (o / c.W) + b) / 8 = o / c.W := by omega
  rw [pixOfs, hpage, Nat.div_add_mod']

/-- The page of a framebuffer byte is a page of the panel, so its pixels' rows are rows of the panel. -/
theorem row_lt_H_of_offset {c : Config} {o b : Nat} (ho : o < BUFSZ c) (hb : b < 8) :
    8 * (o / c.W) + b < c.H := by
  have hpage : o / c.W < c.H / 8 := Nat.div_lt_of_lt_mul ho
  omega

/-- Settles O26: `pixOfs_of_offset` one way; the other way is the definition of `pixel`, with `pixOfs_lt_BUFSZ`. -/
theorem framebufferIsPageMajor : Obligations.FramebufferIsPageMajor := by
  intro s hconfig
  obtain ⟨⟨hW, -, -, -, hH8⟩, -⟩ := (configWf_iff s.config).1 hconfig
  refine ⟨fun o b ho hb => ⟨?_, Nat.mod_lt o hW, row_lt_H_of_offset ho hb⟩,
    fun x y hx hy => ⟨pixOfs_lt_BUFSZ hH8 hx hy, rfl⟩⟩
  have hbit : (8 * (o / s.config.W) + b) % 8 = b := by omega
  rw [pixel, pixOfs_of_offset s.config o hb, hbit]

end Sys2Proof.Machine
end

section
/-! PROOFS. The statements of the encoding: legal headers and the opcode table, what a decoding says of its words, and
the port that holds them. -/

namespace Sys2Proof.Machine

/-! ## Header formats (R103) and the opcode table (R111) -/

/-- A header format, by the two fields it may use (R103). -/
structure HeaderFormat where
  usesImm : Bool
  usesC : Bool
deriving DecidableEq

namespace HeaderFormat

def F0 : HeaderFormat := ⟨false, false⟩
def FC : HeaderFormat := ⟨false, true⟩
def FI : HeaderFormat := ⟨true, false⟩
def FIC : HeaderFormat := ⟨true, true⟩

/-- The header word `h` with every bit cleared that the format reserves. -/
def clearReserved (f : HeaderFormat) (h : Word) : Word :=
  headerWord (opField h) (if f.usesImm then immField h else 0) (f.usesC && colourField h)

/-- The bits of a header that the format fixes: all but those of the fields it uses. -/
def mask (f : HeaderFormat) : Word := ~~~headerWord 0 (if f.usesImm then 0xFF else 0) f.usesC

/-- The match and mask of the row of `op` in the opcode table. -/
def row (op : Byte) (f : HeaderFormat) : Word × Word := (headerWord op 0 false, f.mask)

end HeaderFormat

/-- The opcodes of R111 with their formats. -/
def opcodeTable : List (Byte × HeaderFormat) :=
  [(0x01, .F0), (0x02, .FC), (0x03, .F0), (0x04, .F0), (0x05, .F0), (0x06, .F0), (0x07, .F0), (0x08, .F0), (0x0A, .F0),
   (0x0B, .F0), (0x0C, .F0), (0x0D, .FI), (0x10, .FC), (0x11, .FC), (0x12, .FC), (0x13, .FC), (0x14, .FC), (0x15, .FC),
   (0x16, .FC), (0x18, .F0), (0x19, .F0), (0x1A, .FIC), (0x1B, .FC), (0x1C, .FC), (0x1D, .F0), (0x1E, .F0), (0x1F, .FI)]

/-- The format of an opcode; none for an unassigned one. -/
def formatOf (op : Byte) : Option HeaderFormat := opcodeTable.lookup op

/-- A header word whose opcode is assigned and whose reserved bits are 0 (R114). -/
def LegalHeader (h : Word) : Prop := ∃ f, formatOf (opField h) = some f ∧ h = f.clearReserved h

theorem headerRows_eq_map_row : headerRows = opcodeTable.map fun e => e.2.row e.1 := by decide

theorem opField_and (a b : Word) : opField (a &&& b) = opField a &&& opField b := BitVec.extractLsb'_and
theorem rsvAField_and (a b : Word) : rsvAField (a &&& b) = rsvAField a &&& rsvAField b := BitVec.extractLsb'_and
theorem immField_and (a b : Word) : immField (a &&& b) = immField a &&& immField b := BitVec.extractLsb'_and
theorem rsvBField_and (a b : Word) : rsvBField (a &&& b) = rsvBField a &&& rsvBField b := BitVec.extractLsb'_and
theorem colourField_and (a b : Word) : colourField (a &&& b) = (colourField a && colourField b) :=
  BitVec.getLsbD_and

/-- A word is a header word exactly if its fields are the header's and its reserved ones are 0 (R102). -/
theorem eq_headerWord_iff {w : Word} {op imm : Byte} {c : Bool} :
    w = headerWord op imm c ↔
      opField w = op ∧ rsvAField w = 0 ∧ immField w = imm ∧ rsvBField w = 0 ∧ colourField w = c := by
  constructor
  · rintro rfl
    simp
  · rintro ⟨rfl, hA, rfl, hB, rfl⟩
    exact (headerWord_fields w hA hB).symm

/-- The fields of a mask: all ones but where the format uses the field. -/
theorem mask_fields (f : HeaderFormat) :
    opField f.mask = BitVec.allOnes 8 ∧ rsvAField f.mask = BitVec.allOnes 8 ∧
      immField f.mask = (if f.usesImm then 0 else BitVec.allOnes 8) ∧ rsvBField f.mask = BitVec.allOnes 7 ∧
      colourField f.mask = !f.usesC := by
  obtain ⟨_ | _, _ | _⟩ := f <;> decide

/-- A header matches the row of an opcode exactly if that is its opcode and its reserved bits are 0. -/
theorem matchesRow_row_iff (h : Word) (op : Byte) (f : HeaderFormat) :
    matchesRow h (f.row op) = true ↔ opField h = op ∧ h = f.clearReserved h := by
  obtain ⟨hop, hA, himm, hB, hc⟩ := mask_fields f
  simp only [matchesRow, HeaderFormat.row, HeaderFormat.clearReserved, decide_eq_true_eq, eq_headerWord_iff,
    opField_and, rsvAField_and, immField_and, rsvBField_and, colourField_and, hop, hA, himm, hB, hc]
  obtain ⟨_ | _, _ | _⟩ := f <;> simp [BitVec.and_allOnes, -BitVec.reduceAllOnes]

/-- The table's rows are what looking an opcode up finds: no opcode has two. -/
theorem mem_opcodeTable_iff {op : Byte} {f : HeaderFormat} : (op, f) ∈ opcodeTable ↔ formatOf op = some f := by
  constructor
  · exact (by decide : ∀ e ∈ opcodeTable, formatOf e.1 = some e.2) (op, f)
  · intro h
    obtain ⟨l₁, l₂, hl, -⟩ := List.lookup_eq_some_iff.1 h
    rw [hl]
    exact List.mem_append_right _ List.mem_cons_self

theorem opcodeTable_nodup : opcodeTable.Nodup := by decide

/-- A header word matches no row of the table exactly if it is not legal. -/
theorem filter_matchesRow_eq_nil_iff (h : Word) : headerRows.filter (matchesRow h) = [] ↔ ¬ LegalHeader h := by
  rw [headerRows_eq_map_row, List.filter_eq_nil_iff, LegalHeader]
  constructor
  · rintro hnone ⟨f, hf, hh⟩
    exact hnone _ (List.mem_map.2 ⟨_, mem_opcodeTable_iff.2 hf, rfl⟩) ((matchesRow_row_iff h _ f).2 ⟨rfl, hh⟩)
  · rintro hill _ hrow hmatch
    obtain ⟨⟨op, f⟩, he, rfl⟩ := List.mem_map.1 hrow
    obtain ⟨rfl, hh⟩ := (matchesRow_row_iff h op f).1 hmatch
    exact hill ⟨f, mem_opcodeTable_iff.1 he, hh⟩

/-- A legal header word matches one row, that of its opcode (R114). -/
theorem length_filter_matchesRow {h : Word} (hh : LegalHeader h) : (headerRows.filter (matchesRow h)).length = 1 := by
  obtain ⟨f, hf, hh⟩ := hh
  have hrow : ∀ e ∈ opcodeTable, matchesRow h (e.2.row e.1) = (e == (opField h, f)) := by
    rintro ⟨op, g⟩ he
    rw [Bool.eq_iff_iff, matchesRow_row_iff, beq_iff_eq, Prod.mk.injEq]
    constructor
    · rintro ⟨rfl, -⟩
      exact ⟨rfl, Option.some_inj.1 ((mem_opcodeTable_iff.1 he).symm.trans hf)⟩
    · rintro ⟨rfl, rfl⟩
      exact ⟨rfl, hh⟩
  rw [headerRows_eq_map_row, List.filter_map, List.length_map, ← List.countP_eq_length_filter,
    List.countP_congr fun e he => by rw [Function.comp, hrow e he]]
  exact List.count_eq_one_of_mem opcodeTable_nodup (mem_opcodeTable_iff.2 hf)

theorem unassignedOp_iff (h : Word) : unassignedOp h = true ↔ formatOf (opField h) = none := by
  unfold unassignedOp
  generalize opField h = op
  revert op
  decide

/-! ## The words of a command (R100, R110) -/

/-- The words `ws` are the command `i`, with any padding, and then `rest` (R100, R110). -/
structure CommandWords (ws : List Word) (i : Instr) (rest : List Word) : Prop where
  wf : i.wf = true
  payload : ∃ pay, ws = instrHead i ++ pay ++ rest ∧ pay.length = payloadWords (instrPayload i).length ∧
    payloadBytes (instrPayload i).length pay = instrPayload i

/-- What stands before the packed payload in a command's words is its header and arguments. -/
theorem instrHead_eq {i : Instr} {hd : List Word} (h : encode i = hd ++ packBytes (instrPayload i)) :
    instrHead i = hd := by
  simp [instrHead, h, packBytes_length]

/-- A command with no payload is its header and arguments. -/
theorem instrHead_eq_encode {i : Instr} (h : instrPayload i = []) : instrHead i = encode i :=
  instrHead_eq (by rw [h]; exact (List.append_nil _).symm)

theorem instrHead_bitmap (c : Bool) (x y w h : Half) (d : List Byte) :
    instrHead (.bitmap c x y w h d) = [headerWord 0x16 0 c, argWord x y, argWord w h] := instrHead_eq rfl

theorem instrHead_wrstr (c : Bool) (str : List Byte) :
    instrHead (.wrstr c str) = [headerWord 0x1B 0 c, lenWord str] := instrHead_eq rfl

theorem instrHead_wrstrat (c : Bool) (x y : Half) (str : List Byte) :
    instrHead (.wrstrat c x y str) = [headerWord 0x1C 0 c, argWord x y, lenWord str] := instrHead_eq rfl

theorem instrHead_strwidth (str : List Byte) :
    instrHead (.strwidth str) = [headerWord 0x1D 0 false, lenWord str] := instrHead_eq rfl

theorem eq_nil_of_no_payload {i : Instr} {pay : List Word} (h : instrPayload i = [])
    (hlen : pay.length = payloadWords (instrPayload i).length) : pay = [] := by
  rw [h] at hlen
  exact List.eq_nil_of_length_eq_zero hlen

/-- A payload with the bytes `bs` is read off as `bs` (R110). -/
theorem withPayload_of_bytes {bs : List Byte} {pay : List Word} (hlen : pay.length = payloadWords bs.length)
    (hbytes : payloadBytes bs.length pay = bs) (rest : List Word) (k : List Byte → List Word → DecodeResult) :
    withPayload bs.length (pay ++ rest) k = k bs rest := by
  rw [withPayload_append hlen, hbytes]

/-- A LEN word and a string with any padding after it are read back (R108, R110). -/
theorem withLowArg_lenWord_of_bytes {str : List Byte} {pay : List Word} (h : stringFits str = true)
    (hlen : pay.length = payloadWords str.length) (hbytes : payloadBytes str.length pay = str) (rest : List Word)
    (k : List Byte → List Word → DecodeResult) :
    withLowArg (lenWord str :: (pay ++ rest)) (fun n ws => withPayload (uint16 n) ws k) = k str rest := by
  rw [withLowArg_cons_zero (hiHalf_lenWord str), uint16_lenWord (of_decide_eq_true h),
    withPayload_of_bytes hlen hbytes]

/-- The words of a command decode to it, whatever the padding (R110). -/
theorem decodeWords_of_commandWords {ws : List Word} {i : Instr} {rest : List Word} (h : CommandWords ws i rest) :
    decodeWords ws = .complete i rest := by
  obtain ⟨hwf, pay, rfl, hlen, hbytes⟩ := h
  cases i with
  | bitmap c x y width height d =>
    have hd : bitmapBytes width height = d.length := (of_decide_eq_true hwf).symm
    simpa [instrHead_bitmap, decodeWords, withFC_headerWord, hd] using withPayload_of_bytes (bs := d) hlen hbytes rest _
  | wrstr | wrstrat =>
    simp [instrHead_wrstr, instrHead_wrstrat, decodeWords, withFC_headerWord,
      withLowArg_lenWord_of_bytes hwf hlen hbytes]
  | strwidth => simp [instrHead_strwidth, decodeWords, withF0_headerWord, withLowArg_lenWord_of_bytes hwf hlen hbytes]
  | _ =>
    rw [eq_nil_of_no_payload rfl hlen, instrHead_eq_encode rfl, List.append_nil]
    exact decodeWords_encode hwf rest

/-- Settles O6: the encoder's words by `decodeWords_encode`, any other padding by `decodeWords_of_commandWords`. -/
theorem decodeOfEncodeIsTheCommand : Obligations.DecodeOfEncodeIsTheCommand := fun _ rest hwf =>
  ⟨decodeWords_encode hwf rest, fun pay hlen hbytes => decodeWords_of_commandWords ⟨hwf, pay, rfl, hlen, hbytes⟩⟩

/-- Length decoding tells the length of a command's words (R112). -/
theorem commandLength_of_commandWords {i : Instr} {pay : List Word} (hwf : i.wf = true)
    (hlen : pay.length = payloadWords (instrPayload i).length) (rest : List Word) :
    commandLength (instrHead i ++ pay ++ rest) = some (instrHead i ++ pay).length := by
  cases i with
  | bitmap c x y width height d =>
    have hd : bitmapBytes width height = d.length := (of_decide_eq_true hwf).symm
    simp [instrHead_bitmap, commandLength, argCount, payloadWordsOf, hd, hlen, instrPayload]
    omega
  | wrstr | wrstrat | strwidth =>
    simp [instrHead_wrstr, instrHead_wrstrat, instrHead_strwidth, commandLength, argCount, payloadWordsOf,
      uint16_lenWord (of_decide_eq_true hwf), hlen, instrPayload]
    omega
  | _ =>
    rw [eq_nil_of_no_payload rfl hlen, instrHead_eq_encode rfl, List.append_nil]
    simp [encode, commandLength, argCount, payloadWordsOf]

/-! ## What a decoding says of its words (R101, R120) -/

/-- The words `ws` begin with an illegal one: `w`, of cause `cause`, with `rest` after it (R120). -/
inductive IllegalWords : List Word → IllCause → Word → List Word → Prop where
  | unassignedOp {h : Word} {ws : List Word} : formatOf (opField h) = none → IllegalWords (h :: ws) .unassignedOp h ws
  | headerReserved {h : Word} {ws : List Word} : formatOf (opField h) ≠ none → ¬ LegalHeader h →
      IllegalWords (h :: ws) .headerReserved h ws
  | firstArg {h a : Word} {ws : List Word} : LegalHeader h → (opField h = 0x1B ∨ opField h = 0x1D) →
      hiHalf a ≠ 0 → IllegalWords (h :: a :: ws) .argReserved a ws
  | secondArg {h p a : Word} {ws : List Word} : LegalHeader h →
      (opField h = 0x14 ∨ opField h = 0x15 ∨ opField h = 0x1C) → hiHalf a ≠ 0 →
      IllegalWords (h :: p :: a :: ws) .argReserved a ws

/-- What the decoding `d` of `ws` says of them, their header being legal. -/
def ArgumentsSay (ws : List Word) : DecodeResult → Prop
  | .complete i rest => CommandWords ws i rest
  | .illegal cause w rest => cause = .argReserved ∧ IllegalWords ws cause w rest
  | .incomplete => True

/-- What the decoding `d` of `h :: ws` says of them: R120's checks of the header, then the rest. -/
inductive DecodingSays (h : Word) (ws : List Word) (d : DecodeResult) : Prop where
  | unassignedOp : formatOf (opField h) = none → d = .illegal .unassignedOp h ws → DecodingSays h ws d
  | headerReserved : formatOf (opField h) ≠ none → ¬ LegalHeader h → d = .illegal .headerReserved h ws →
      DecodingSays h ws d
  | legalHeader : LegalHeader h → ArgumentsSay (h :: ws) d → DecodingSays h ws d

/-! Each format's check is one test of the header. -/

theorem withF0_eq_ite (h : Word) (ws : List Word) (k : DecodeResult) :
    withF0 h ws k = if h = HeaderFormat.F0.clearReserved h then k else .illegal .headerReserved h ws :=
  eq_ite_iff.2 ((withF0_cases h ws k).imp_right (And.imp_left fun hne => hne _))

theorem withFC_eq_ite (h : Word) (ws : List Word) (k : Bool → DecodeResult) :
    withFC h ws k =
      if h = HeaderFormat.FC.clearReserved h then k (colourField h) else .illegal .headerReserved h ws :=
  eq_ite_iff.2 ((withFC_cases h ws k).imp_right (And.imp_left fun hne => hne _ _))

theorem withFI_eq_ite (h : Word) (ws : List Word) (k : Byte → DecodeResult) :
    withFI h ws k =
      if h = HeaderFormat.FI.clearReserved h then k (immField h) else .illegal .headerReserved h ws :=
  eq_ite_iff.2 ((withFI_cases h ws k).imp_right (And.imp_left fun hne => hne _ _))

theorem withFIC_eq_ite (h : Word) (ws : List Word) (k : Byte → Bool → DecodeResult) :
    withFIC h ws k = if h = HeaderFormat.FIC.clearReserved h then k (immField h) (colourField h)
      else .illegal .headerReserved h ws :=
  eq_ite_iff.2 ((withFIC_cases h ws k).imp_right (And.imp_left fun hne => hne _ _ _))

/-- A row of the decoder: its opcode, the check of its format, then its arguments. -/
theorem DecodingSays.of_row {h : Word} {ws : List Word} {d : DecodeResult} {n : Nat} {f : HeaderFormat}
    (hn : (opField h).toNat = n) (hf : formatOf (BitVec.ofNat 8 n) = some f)
    (hd : opField h = BitVec.ofNat 8 n → LegalHeader h →
      h = headerWord (BitVec.ofNat 8 n) (if f.usesImm then immField h else 0) (f.usesC && colourField h) →
      ArgumentsSay (h :: ws) d) :
    DecodingSays h ws (if h = f.clearReserved h then d else .illegal .headerReserved h ws) := by
  have hop : opField h = BitVec.ofNat 8 n := by rw [← hn, BitVec.ofNat_toNat, BitVec.setWidth_eq]
  rw [← hop] at hf hd
  split
  next hh => exact .legalHeader ⟨f, hf, hh⟩ (hd rfl ⟨f, hf, hh⟩ hh)
  next hne =>
    refine .headerReserved (by rw [hf]; exact Option.some_ne_none f) ?_ rfl
    rintro ⟨g, hg, hh⟩
    exact hne (Option.some_inj.1 (hg.symm.trans hf) ▸ hh)

section Arguments

variable {words ws : List Word}

theorem ArgumentsSay.of_withArg {k : Word → List Word → DecodeResult}
    (hk : ∀ a rest, ws = a :: rest → ArgumentsSay words (k a rest)) : ArgumentsSay words (withArg ws k) := by
  obtain ⟨-, he⟩ | ⟨a, rest, hws, he⟩ := withArg_cases ws k <;> rw [he]
  · trivial
  · exact hk a rest hws

theorem ArgumentsSay.of_withLowArg {k : Half → List Word → DecodeResult}
    (hbad : ∀ a rest, ws = a :: rest → hiHalf a ≠ 0 → IllegalWords words .argReserved a rest)
    (hk : ∀ n rest, ws = argWord n 0 :: rest → ArgumentsSay words (k n rest)) :
    ArgumentsSay words (withLowArg ws k) := by
  obtain ⟨-, he⟩ | ⟨a, rest, hws, ⟨-, ha, he⟩ | ⟨ha, he⟩⟩ := withLowArg_cases ws k <;> rw [he]
  · trivial
  · exact hk _ rest (hws.trans (congrArg (· :: rest) ha))
  · exact ⟨rfl, hbad a rest hws ha⟩

theorem ArgumentsSay.of_withPayload {n : Nat} {k : List Byte → List Word → DecodeResult}
    (hk : ∀ pay rest, ws = pay ++ rest → pay.length = payloadWords n →
      ArgumentsSay words (k (payloadBytes n pay) rest)) :
    ArgumentsSay words (withPayload n ws k) := by
  obtain ⟨-, he⟩ | ⟨pay, rest, hws, hlen, he⟩ := withPayload_cases n ws k <;> rw [he]
  · trivial
  · exact hk pay rest hws hlen

end Arguments

/-- A header and arguments that are those of a command with no payload. -/
theorem commandWords_of_encode {i : Instr} {h hdr : Word} {ws args rest : List Word} (hnone : instrPayload i = [])
    (hwf : i.wf = true) (he : encode i = hdr :: args) (hh : h = hdr) (hws : ws = args ++ rest) :
    CommandWords (h :: ws) i rest :=
  ⟨hwf, [], by rw [instrHead_eq_encode hnone, he, hh, hws, List.append_nil]; rfl, by rw [hnone]; rfl,
    by rw [hnone]; rfl⟩

/-- A header and arguments that are those of a command with a payload, and the payload's words. -/
theorem commandWords_of_payload {i : Instr} {n : Nat} {h hdr : Word} {ws args pay rest : List Word}
    (hlen : pay.length = payloadWords n) (hbytes : instrPayload i = payloadBytes n pay) (hwf : i.wf = true)
    (hhead : instrHead i = hdr :: args) (hh : h = hdr) (hws : ws = args ++ (pay ++ rest)) :
    CommandWords (h :: ws) i rest := by
  have hn : (instrPayload i).length = n := by rw [hbytes, payloadBytes_length hlen.ge]
  exact ⟨hwf, pay, by rw [hhead, hh, hws, List.append_assoc]; rfl, by rw [hn, hlen], by rw [hn, hbytes]⟩

section StringPayload

variable {n : Half} {pay : List Word} (hlen : pay.length = payloadWords (uint16 n))

include hlen

theorem stringFits_payloadBytes : stringFits (payloadBytes (uint16 n) pay) = true := by
  rw [stringFits, payloadBytes_length hlen.ge, decide_eq_true_eq]
  exact Nat.le_of_lt_succ n.isLt

/-- A legal LEN word is that of the string after it (R108). -/
theorem lenWord_payloadBytes : lenWord (payloadBytes (uint16 n) pay) = argWord n 0 := by
  rw [lenWord, payloadBytes_length hlen.ge, uint16, BitVec.ofNat_toNat, BitVec.setWidth_eq]

end StringPayload

theorem formatOf_eq_none_of {op : Byte} (h : ∀ e ∈ opcodeTable, op ≠ e.1) : formatOf op = none := by
  rw [formatOf, List.lookup_eq_none_iff]
  exact fun e he => bne_iff_ne.2 (h e he)

/-- What every decoding says of its words, row by row of R111. -/
theorem decodingSays_decodeWords (h : Word) (ws : List Word) : DecodingSays h ws (decodeWords (h :: ws)) := by
  unfold decodeWords
  simp only [withF0_eq_ite, withFC_eq_ite, withFI_eq_ite, withFIC_eq_ite]
  split
  -- the commands of one word
  case h_1 | h_2 | h_3 | h_4 | h_6 | h_7 | h_8 | h_9 | h_10 | h_11 | h_12 | h_21 | h_22 =>
    exact .of_row ‹_› rfl fun _ _ hh => commandWords_of_encode rfl rfl rfl hh rfl
  -- UPDCHUNK, RDFB, WRFB
  case h_5 | h_26 | h_27 =>
    exact .of_row ‹_› rfl fun _ _ hh => .of_withArg fun _ _ hws => commandWords_of_encode rfl rfl rfl hh hws
  -- PIXEL, SETCURSOR
  case h_13 | h_20 =>
    refine .of_row ‹_› rfl fun _ _ hh => .of_withArg fun p rest hws => commandWords_of_encode rfl rfl rfl hh ?_
    rw [hws, argWord_halves]
    rfl
  -- LINE, RECT, FILLRECT
  case h_14 | h_15 | h_16 =>
    refine .of_row ‹_› rfl fun _ _ hh => .of_withArg fun p ps hps => .of_withArg fun q rest hqs =>
      commandWords_of_encode rfl rfl rfl hh ?_
    rw [hps, hqs, argWord_halves, argWord_halves]
    rfl
  -- CIRCLE, FILLCIRCLE
  case h_17 | h_18 =>
    refine .of_row ‹_› rfl fun hop hl hh => .of_withArg fun p ps hps => .of_withLowArg
      (fun a rest hws ha => ?_) fun r rest hws => commandWords_of_encode rfl rfl rfl hh ?_
    · rw [hps, hws]
      exact .secondArg hl (by simp [hop]) ha
    · rw [hps, hws, argWord_halves]
      rfl
  -- BITMAP
  case h_19 =>
    refine .of_row ‹_› rfl fun _ _ hh => .of_withArg fun p ps hps => .of_withArg fun z zs hzs =>
      .of_withPayload fun pay rest hws hlen => commandWords_of_payload hlen rfl
        (decide_eq_true (payloadBytes_length hlen.ge)) (instrHead_bitmap ..) hh ?_
    rw [hps, hzs, hws, argWord_halves, argWord_halves]
    rfl
  -- WRSTR, STRWIDTH
  case h_23 | h_25 =>
    refine .of_row ‹_› rfl fun hop hl hh => .of_withLowArg (fun a rest hws ha => ?_) fun n ns hns =>
      .of_withPayload fun pay rest hws hlen => commandWords_of_payload hlen rfl (stringFits_payloadBytes hlen)
        (instrHead_eq (hd := [_, _]) rfl) hh ?_
    · rw [hws]
      exact .firstArg hl (by simp [hop]) ha
    · rw [hns, hws, lenWord_payloadBytes hlen]
      rfl
  -- WRSTRAT
  case h_24 =>
    refine .of_row ‹_› rfl fun hop hl hh => .of_withArg fun p ps hps => .of_withLowArg
      (fun a rest hws ha => ?_) fun n ns hns => .of_withPayload fun pay rest hws hlen =>
        commandWords_of_payload hlen rfl (stringFits_payloadBytes hlen) (instrHead_wrstrat ..) hh ?_
    · rw [hps, hws]
      exact .secondArg hl (by simp [hop]) ha
    · rw [hps, hns, hws, lenWord_payloadBytes hlen, argWord_halves]
      rfl
  -- an unassigned opcode
  case h_28 =>
    refine .unassignedOp (formatOf_eq_none_of ?_) rfl
    simp [opcodeTable, ← BitVec.toNat_inj]
    and_intros <;> assumption

/-- The words of a command are exactly those that decode to it (R100-R111). -/
theorem decodeWords_eq_complete_iff {ws : List Word} {i : Instr} {rest : List Word} :
    decodeWords ws = .complete i rest ↔ CommandWords ws i rest := by
  refine ⟨fun hd => ?_, decodeWords_of_commandWords⟩
  cases ws with
  | nil => cases hd
  | cons h ws =>
    have hsays := decodingSays_decodeWords h ws
    rw [hd] at hsays
    cases hsays with
    | unassignedOp _ he => cases he
    | headerReserved _ _ he => cases he
    | legalHeader _ hargs => exact hargs

/-- Settles O7: the words by `decodeWords_eq_complete_iff`, their number by `commandLength_of_commandWords`. -/
theorem decodedWordsAreTheCommandsWords : Obligations.DecodedWordsAreTheCommandsWords := by
  intro ws i rest hd
  obtain ⟨hwf, pay, rfl, hlen, hbytes⟩ := decodeWords_eq_complete_iff.1 hd
  exact ⟨hwf, pay, rfl, hlen, hbytes, commandLength_of_commandWords hwf hlen rest⟩

theorem decodeWords_of_unassignedOp {h : Word} (hop : formatOf (opField h) = none) (ws : List Word) :
    decodeWords (h :: ws) = .illegal .unassignedOp h ws := by
  cases decodingSays_decodeWords h ws with
  | unassignedOp _ hd => exact hd
  | headerReserved hne _ _ => exact absurd hop hne
  | legalHeader hl _ =>
    obtain ⟨f, hf, -⟩ := hl
    cases hop.symm.trans hf

theorem decodeWords_of_headerReserved {h : Word} (hop : formatOf (opField h) ≠ none) (hill : ¬ LegalHeader h)
    (ws : List Word) : decodeWords (h :: ws) = .illegal .headerReserved h ws := by
  cases decodingSays_decodeWords h ws with
  | unassignedOp hnone _ => exact absurd hnone hop
  | headerReserved _ _ hd => exact hd
  | legalHeader hl _ => exact absurd hl hill

theorem LegalHeader.formatOf_ne_none {h : Word} (hl : LegalHeader h) : formatOf (opField h) ≠ none := by
  obtain ⟨f, hf, -⟩ := hl
  rw [hf]
  exact Option.some_ne_none f

/-- A legal header is its opcode with the fields its format uses (R103). -/
theorem LegalHeader.eq_headerWord {h : Word} {op : Byte} {usesImm usesC : Bool} (hl : LegalHeader h)
    (hop : opField h = op) (hformat : formatOf op = some ⟨usesImm, usesC⟩) :
    h = headerWord op (if usesImm then immField h else 0) (usesC && colourField h) := by
  obtain ⟨f, hf, hh⟩ := hl
  rw [hop, hformat] at hf
  cases hf
  exact hop ▸ hh

/-- The illegal encodings are exactly those of R120. -/
theorem decodeWords_eq_illegal_iff {ws : List Word} {cause : IllCause} {w : Word} {rest : List Word} :
    decodeWords ws = .illegal cause w rest ↔ IllegalWords ws cause w rest := by
  constructor
  · intro hd
    cases ws with
    | nil => cases hd
    | cons h ws =>
      have hsays := decodingSays_decodeWords h ws
      rw [hd] at hsays
      cases hsays with
      | unassignedOp hop he => cases he; exact .unassignedOp hop
      | headerReserved hop hill he => cases he; exact .headerReserved hop hill
      | legalHeader _ hargs => exact hargs.2
  · intro hill
    cases hill with
    | unassignedOp hop => exact decodeWords_of_unassignedOp hop _
    | headerReserved hop hill => exact decodeWords_of_headerReserved hop hill _
    | firstArg hl hop ha =>
      obtain hop | hop := hop <;> rw [hl.eq_headerWord hop rfl]
      · simp [decodeWords, withFC_headerWord, withLowArg_cons_bad ha]
      · simp [decodeWords, withF0_headerWord, withLowArg_cons_bad ha]
    | secondArg hl hop ha =>
      obtain hop | hop | hop := hop <;> rw [hl.eq_headerWord hop rfl] <;>
        simp [decodeWords, withFC_headerWord, withLowArg_cons_bad ha]

/-! ## Words that follow (R101) -/

theorem CommandWords.append {ws : List Word} {i : Instr} {rest : List Word} (h : CommandWords ws i rest)
    (more : List Word) : CommandWords (ws ++ more) i (rest ++ more) := by
  obtain ⟨hwf, pay, rfl, hpay⟩ := h
  exact ⟨hwf, pay, List.append_assoc .., hpay⟩

theorem IllegalWords.append {ws : List Word} {cause : IllCause} {w : Word} {rest : List Word}
    (h : IllegalWords ws cause w rest) (more : List Word) : IllegalWords (ws ++ more) cause w (rest ++ more) := by
  cases h with
  | unassignedOp hop => exact .unassignedOp hop
  | headerReserved hop hill => exact .headerReserved hop hill
  | firstArg hl hop ha => exact .firstArg hl hop ha
  | secondArg hl hop ha => exact .secondArg hl hop ha

/-- Settles O8: what a complete or an illegal decoding says of its words is kept when more words follow, and it is
all that the decoding depends on. -/
theorem laterWordsDoNotChangeTheDecoding : Obligations.LaterWordsDoNotChangeTheDecoding := fun _ more =>
  ⟨fun _ _ hd => decodeWords_eq_complete_iff.2 ((decodeWords_eq_complete_iff.1 hd).append more),
    fun _ _ _ hd => decodeWords_eq_illegal_iff.2 ((decodeWords_eq_illegal_iff.1 hd).append more)⟩

/-! ## Illegal encodings (R114, R120) -/

theorem IllegalWords.argReserved_of_legalHeader {h : Word} {ws : List Word} {cause : IllCause} {w : Word}
    {rest : List Word} (hill : IllegalWords (h :: ws) cause w rest) (hl : LegalHeader h) : cause = .argReserved := by
  cases hill with
  | unassignedOp hop => exact absurd hop hl.formatOf_ne_none
  | headerReserved _ hnot => exact absurd hl hnot
  | firstArg | secondArg => rfl

/-- Settles O9: the two cases are a legal header and one that is not. -/
theorem headerMatchesOneRowOrIsIllegal : Obligations.HeaderMatchesOneRowOrIsIllegal := by
  intro h ws
  by_cases hl : LegalHeader h
  · exact .inl ⟨length_filter_matchesRow hl, fun cause hcause w rest hd =>
      hcause ((decodeWords_eq_illegal_iff.1 hd).argReserved_of_legalHeader hl)⟩
  · refine .inr ⟨(filter_matchesRow_eq_nil_iff h).2 hl, ?_⟩
    by_cases hop : formatOf (opField h) = none
    · exact ⟨.unassignedOp, nofun, decodeWords_of_unassignedOp hop ws⟩
    · exact ⟨.headerReserved, nofun, decodeWords_of_headerReserved hop hl ws⟩

theorem unassignedOp_eq_false_iff (h : Word) : unassignedOp h = false ↔ formatOf (opField h) ≠ none := by
  rw [← Bool.not_eq_true, unassignedOp_iff]

/-- Settles O10: `IllegalWords` lists R120's checks, and `decodeWords_eq_illegal_iff` says that they are what the decoder
makes. -/
theorem illegalEncodingsAndTheirCauses : Obligations.IllegalEncodingsAndTheirCauses := by
  unfold Obligations.IllegalEncodingsAndTheirCauses
  simp only [ne_eq, filter_matchesRow_eq_nil_iff, unassignedOp_iff, unassignedOp_eq_false_iff, not_not,
    decodeWords_eq_illegal_iff]
  refine ⟨⟨rfl, rfl, rfl⟩, fun h ws => .unassignedOp, fun h ws => .headerReserved,
    fun h a ws hl ha => ⟨fun hop => .firstArg hl hop ha, fun p hop => .secondArg hl hop ha⟩,
    fun ws cause w rest hill => ?_, fun s cause w rest hconfig hrunning hfetch =>
      ⟨_, step_illegal hconfig hrunning hfetch, rfl⟩⟩
  cases hill with
  | unassignedOp hop =>
    exact .inl ⟨_, rfl, rfl, fun hl => hl.formatOf_ne_none hop, iff_of_true rfl hop,
      iff_of_false nofun (not_not.2 hop)⟩
  | headerReserved hop hill => exact .inl ⟨_, rfl, rfl, hill, iff_of_false nofun hop, iff_of_true rfl hop⟩
  | firstArg hl hop ha => exact .inr ⟨rfl, ha, _, hl, .inl ⟨rfl, hop⟩⟩
  | secondArg hl hop ha => exact .inr ⟨rfl, ha, _, hl, .inr ⟨_, rfl, hop⟩⟩

/-! ## The port holds a partial command (R101) -/

theorem waitForWords_of_port_ne_nil {s : State} (h : s.port ≠ []) : waitForWords s = .next (holdWords s) := by
  unfold waitForWords
  split
  · rfl
  next hnil => exact absurd hnil h

/-- With words arriving, a step sees only the held and the arriving words together, not how they are divided. -/
theorem step_congr_of_portWords {s t : State} (htake : ∀ rest, takeCommand rest s = takeCommand rest t)
    (hwords : portWords s = portWords t) (hs : s.port ≠ []) (ht : t.port ≠ []) : step s = step t := by
  have hconfig : s.config = t.config := by simpa using congrArg State.config (htake [])
  have hill : s.ill = t.ill := by simpa using congrArg State.ill (htake [])
  have hhold : holdWords s = holdWords t :=
    congrArg₂ (fun (u : State) ws => { u with asm := ws }) (htake []) hwords
  simp only [step, fetch, hconfig, hill, hwords, htake, waitForWords_of_port_ne_nil hs, waitForWords_of_port_ne_nil ht,
    hhold]

theorem hostWrite_running {s : State} (h : s.ill = false) (ws : List Word) :
    hostWrite ws s = { s with port := s.port ++ ws } := by
  rw [hostWrite, h]
  rfl

/-- Words that come after others were held give the step they would have given at once (R101). -/
theorem step_hostWrite_holdWords {s : State} (hrunning : s.ill = false) {more : List Word} (hmore : more ≠ []) :
    step (hostWrite more (holdWords s)) = step (hostWrite more s) := by
  rw [hostWrite_running hrunning, hostWrite_running (s := holdWords s) hrunning]
  exact step_congr_of_portWords (fun _ => rfl) (List.append_assoc ..) hmore (List.append_ne_nil_of_right_ne_nil _ hmore)

/-- Settles O15: the three outcomes of `waitForWords`, and `step_hostWrite_holdWords`. -/
theorem partialCommandHoldsThePort : Obligations.PartialCommandHoldsThePort := by
  intro s hconfig hrunning hd
  rw [step_incomplete hconfig hrunning hd]
  refine ⟨fun hport => ⟨waitForWords_of_port_ne_nil hport, fun _ => step_hostWrite_holdWords hrunning⟩,
    fun hport hasm => ?_, fun hport hasm => ?_⟩
  · simp [waitForWords, hport, hasm]
  · simp [waitForWords, hport, hasm]

/-- Settles O11: each example is decoded. -/
theorem specExampleWordsDecode : Obligations.SpecExampleWordsDecode := by
  unfold Obligations.SpecExampleWordsDecode
  decide

end Sys2Proof.Machine
end

section
/-! PROOFS. The walks of the rasterizer (R150, R160): each is the walk of a next-point function up to a last point, and
what the statements say of a walk follows from an invariant of its points and a measure that falls from point to
point. -/

namespace Sys2Proof.Machine

/-! ## A walk up to a last point -/

/-- The points `p, next p, next (next p), ...` up to the first one that is `last`, at most `n` of them. -/
def walkUntil {α : Type} (next : α → α) (last : α → Prop) [DecidablePred last] : Nat → α → List α
  | 0, _ => []
  | n + 1, p => p :: if last p then [] else walkUntil next last n (next p)

/-- `inv` holds along the walk and `measure` falls, so the walk from a point `p` has at most `measure p + 1` points. -/
structure Descent {α : Type} (next : α → α) (last inv : α → Prop) (measure : α → Nat) : Prop where
  keeps : ∀ p, inv p → ¬ last p → inv (next p)
  falls : ∀ p, inv p → ¬ last p → measure (next p) < measure p

/-- A descent by single steps that ends at 0, so the walk from `p` has exactly `measure p + 1` points. -/
structure Countdown {α : Type} (next : α → α) (last inv : α → Prop) (measure : α → Nat) : Prop where
  keeps : ∀ p, inv p → ¬ last p → inv (next p)
  counts : ∀ p, inv p → ¬ last p → measure (next p) + 1 = measure p
  ends : ∀ p, inv p → last p → measure p = 0

theorem Countdown.descent {α : Type} {next : α → α} {last inv : α → Prop} {measure : α → Nat}
    (h : Countdown next last inv measure) : Descent next last inv measure where
  keeps := h.keeps
  falls p hp hlast := Nat.lt_of_succ_le (h.counts p hp hlast).le

section Walk

variable {α : Type} {next : α → α} {last inv : α → Prop} [DecidablePred last] {measure : α → Nat}

theorem walkUntil_head? (n : Nat) (p : α) : (walkUntil next last (n + 1) p).head? = some p := rfl

theorem walkUntil_succ_of_last {p : α} (hp : last p) (n : Nat) : walkUntil next last (n + 1) p = [p] := by
  rw [walkUntil, if_pos hp]

theorem walkUntil_succ_of_not_last {p : α} (hp : ¬ last p) (n : Nat) :
    walkUntil next last (n + 1) p = p :: walkUntil next last n (next p) := by
  rw [walkUntil, if_neg hp]

namespace Descent

variable (h : Descent next last inv measure)

include h

/-- A bound above the measure is never reached, so any two such bounds give the same walk. -/
theorem walkUntil_congr {m n : Nat} {p : α} (hp : inv p) (hm : measure p < m) (hn : measure p < n) :
    walkUntil next last m p = walkUntil next last n p := by
  induction m generalizing n p with
  | zero => exact absurd hm (Nat.not_lt_zero _)
  | succ m ih =>
    obtain ⟨n, rfl⟩ := Nat.exists_eq_succ_of_ne_zero (Nat.ne_zero_of_lt hn)
    by_cases hlast : last p
    · rw [walkUntil_succ_of_last hlast, walkUntil_succ_of_last hlast]
    · have hfall := h.falls p hp hlast
      rw [walkUntil_succ_of_not_last hlast, walkUntil_succ_of_not_last hlast,
        ih (n := n) (h.keeps p hp hlast) (by omega) (by omega)]

theorem forall_mem_walkUntil (n : Nat) {p : α} (hp : inv p) : ∀ q ∈ walkUntil next last n p, inv q := by
  induction n generalizing p with
  | zero => exact nofun
  | succ n ih =>
    by_cases hlast : last p
    · rw [walkUntil_succ_of_last hlast]
      exact List.forall_mem_singleton.2 hp
    · rw [walkUntil_succ_of_not_last hlast]
      exact List.forall_mem_cons.2 ⟨hp, ih (h.keeps p hp hlast)⟩

/-- Each point of a walk is followed by its next point, and only the points that are not `last` are followed. -/
theorem isChain_walkUntil (n : Nat) {p : α} (hp : inv p) :
    (walkUntil next last n p).IsChain fun p q => inv p ∧ ¬ last p ∧ q = next p := by
  induction n generalizing p with
  | zero => exact .nil
  | succ n ih =>
    by_cases hlast : last p
    · rw [walkUntil_succ_of_last hlast]
      exact .singleton p
    · rw [walkUntil_succ_of_not_last hlast]
      refine List.isChain_cons.2 ⟨fun q hq => ?_, ih (h.keeps p hp hlast)⟩
      cases n with
      | zero => cases hq
      | succ n => cases hq; exact ⟨hp, hlast, rfl⟩

theorem exists_getLast?_walkUntil {n : Nat} {p : α} (hp : inv p) (hn : measure p < n) :
    ∃ q, (walkUntil next last n p).getLast? = some q ∧ last q := by
  induction n generalizing p with
  | zero => exact absurd hn (Nat.not_lt_zero _)
  | succ n ih =>
    by_cases hlast : last p
    · exact ⟨p, by rw [walkUntil_succ_of_last hlast]; rfl, hlast⟩
    · have hfall := h.falls p hp hlast
      obtain ⟨q, hq, hlastq⟩ := ih (h.keeps p hp hlast) (by omega)
      exact ⟨q, by rw [walkUntil_succ_of_not_last hlast, List.getLast?_cons, hq]; rfl, hlastq⟩

/-- The measure falls along the walk, so no point comes twice. -/
theorem nodup_walkUntil (n : Nat) {p : α} (hp : inv p) : (walkUntil next last n p).Nodup := by
  have hfalls : (walkUntil next last n p).IsChain fun p q => measure q < measure p :=
    (h.isChain_walkUntil n hp).imp fun p q ⟨hinv, hlast, hq⟩ => hq ▸ h.falls p hinv hlast
  have hsorted := List.isChain_iff_pairwise.1 ((List.isChain_map (R := (· > ·)) measure).2 hfalls)
  exact .of_map measure (hsorted.imp Nat.ne_of_gt)

end Descent

namespace Countdown

variable (h : Countdown next last inv measure)

include h

theorem length_walkUntil {n : Nat} {p : α} (hp : inv p) (hn : measure p < n) :
    (walkUntil next last n p).length = measure p + 1 := by
  induction n generalizing p with
  | zero => exact absurd hn (Nat.not_lt_zero _)
  | succ n ih =>
    by_cases hlast : last p
    · rw [walkUntil_succ_of_last hlast, h.ends p hp hlast]; rfl
    · have hcount := h.counts p hp hlast
      rw [walkUntil_succ_of_not_last hlast, List.length_cons, ih (h.keeps p hp hlast) (by omega), hcount]

/-- The walk skips no value of the measure. -/
theorem exists_mem_walkUntil {n : Nat} {p : α} (hp : inv p) (hn : measure p < n) {k : Nat} (hk : k ≤ measure p) :
    ∃ q ∈ walkUntil next last n p, measure q = k := by
  induction n generalizing p with
  | zero => exact absurd hn (Nat.not_lt_zero _)
  | succ n ih =>
    by_cases hlast : last p
    · have hend := h.ends p hp hlast
      exact ⟨p, by simp [walkUntil_succ_of_last hlast], by omega⟩
    · rw [walkUntil_succ_of_not_last hlast]
      have hcount := h.counts p hp hlast
      obtain rfl | hlt := hk.eq_or_lt
      · exact ⟨p, List.mem_cons_self, rfl⟩
      · obtain ⟨q, hq, hqk⟩ := ih (h.keeps p hp hlast) (by omega) (by omega)
        exact ⟨q, List.mem_cons_of_mem _ hq, hqk⟩

end Countdown

end Walk

/-! ## The line in its octant: from the origin to `(a, b)` with `a` and `b` not negative (R150) -/

/-- The loop's `err` at the point `p` of the line from the origin to `(a, b)`. -/
def octantErr (a b : Int) (p : Int × Int) : Int := a * (1 + p.2) - b * (1 + p.1)

/-- The loop's step from `p`. -/
def octantNext (a b : Int) (p : Int × Int) : Int × Int :=
  (if 2 * octantErr a b p ≥ -b then p.1 + 1 else p.1, if 2 * octantErr a b p ≤ a then p.2 + 1 else p.2)

/-- The line from the origin to `(a, b)`, at most `n` points. -/
def octantWalk (a b : Int) (n : Nat) : List (Int × Int) := walkUntil (octantNext a b) (· = (a, b)) n (0, 0)

/-- What holds at the points of a line that is at most as high as it is wide; the bounds of `err` make every step move
the first coordinate. -/
structure ShallowPoint (a b : Int) (p : Int × Int) : Prop where
  shallow : 0 ≤ b ∧ b ≤ a
  below : 0 ≤ p.2 ∧ p.2 ≤ p.1 ∧ p.1 ≤ a
  err_lower : -b ≤ 2 * octantErr a b p
  err_upper : 2 * octantErr a b p ≤ 3 * a - 2 * b

/-- A point of the line, whichever of its two extents is the greater. -/
def OctantPoint (a b : Int) (p : Int × Int) : Prop := ShallowPoint a b p ∨ ShallowPoint b a p.swap

/-- How many points come after `p`. -/
def octantLeft (a b : Int) (p : Int × Int) : Nat := (max a b - max p.1 p.2).toNat

theorem octantErr_swap (a b : Int) (p : Int × Int) : octantErr b a p.swap = -octantErr a b p := by
  simp only [octantErr, Prod.fst_swap, Prod.snd_swap]; ring

theorem octantNext_swap (a b : Int) (p : Int × Int) : octantNext b a p.swap = (octantNext a b p).swap := by
  have hfirst : 2 * -octantErr a b p ≥ -a ↔ 2 * octantErr a b p ≤ a := by omega
  have hsecond : 2 * -octantErr a b p ≤ b ↔ 2 * octantErr a b p ≥ -b := by omega
  simp only [octantNext, octantErr_swap, hfirst, hsecond, Prod.fst_swap, Prod.snd_swap, Prod.swap_prod_mk]

namespace ShallowPoint

variable {a b : Int} {p : Int × Int}

/-- The second coordinate does not pass the end: `err` would be too great. -/
theorem second_le (h : ShallowPoint a b p) : p.2 ≤ b := by
  obtain ⟨⟨hb, hba⟩, ⟨hy, hyx, hxa⟩, -, hupper⟩ := h
  unfold octantErr at hupper
  by_contra hlt
  have hhigh : a * (b + 1) ≤ a * p.2 := mul_le_mul_of_nonneg_left (by omega) (by omega)
  have hwide : b * p.1 ≤ b * a := mul_le_mul_of_nonneg_left hxa hb
  linarith

/-- In the last column the line is at its end: `err` would be too small. -/
theorem eq_end (h : ShallowPoint a b p) (hx : p.1 = a) : p = (a, b) := by
  have hle := h.second_le
  obtain ⟨⟨hb, hba⟩, ⟨hy, hyx, hxa⟩, hlower, -⟩ := h
  refine Prod.ext hx ?_
  rw [octantErr, hx] at hlower
  by_contra hne
  have hlt : p.2 < b := lt_of_le_of_ne hle hne
  have hlow : a * (1 + p.2) ≤ a * b := mul_le_mul_of_nonneg_left (by omega) (by omega)
  linarith

theorem next_fst (h : ShallowPoint a b p) : (octantNext a b p).1 = p.1 + 1 := if_pos h.err_lower

/-- The walk's step keeps the bounds of `err`: both branches of the second coordinate. -/
theorem next (h : ShallowPoint a b p) (hne : p ≠ (a, b)) : ShallowPoint a b (octantNext a b p) := by
  have hx : p.1 ≠ a := fun hx => hne (h.eq_end hx)
  have hfst := h.next_fst
  obtain ⟨hshallow, ⟨hy, hyx, hxa⟩, hlower, hupper⟩ := h
  by_cases herr : 2 * octantErr a b p ≤ a
  · have hsnd : (octantNext a b p).2 = p.2 + 1 := if_pos herr
    have hstep : octantErr a b (octantNext a b p) = octantErr a b p + a - b := by
      rw [octantErr, hfst, hsnd, octantErr]; ring
    exact ⟨hshallow, by omega, by omega, by omega⟩
  · have hsnd : (octantNext a b p).2 = p.2 := if_neg herr
    have hstep : octantErr a b (octantNext a b p) = octantErr a b p - b := by
      rw [octantErr, hfst, hsnd, octantErr]; ring
    exact ⟨hshallow, by omega, by omega, by omega⟩

theorem octantLeft_eq (h : ShallowPoint a b p) : octantLeft a b p = (a - p.1).toNat := by
  have := h.shallow
  have := h.below
  unfold octantLeft
  omega

theorem octantLeft_next (h : ShallowPoint a b p) (hne : p ≠ (a, b)) :
    octantLeft a b (octantNext a b p) + 1 = octantLeft a b p := by
  have hx : p.1 ≠ a := fun hx => hne (h.eq_end hx)
  have hbelow := h.below
  rw [h.octantLeft_eq, (h.next hne).octantLeft_eq, h.next_fst]
  omega

end ShallowPoint

theorem octantLeft_swap (a b : Int) (p : Int × Int) : octantLeft b a p.swap = octantLeft a b p := by
  rw [octantLeft, octantLeft, max_comm b, max_comm p.swap.1]; rfl

theorem swap_ne_end {a b : Int} {p : Int × Int} (h : p ≠ (a, b)) : p.swap ≠ (b, a) :=
  fun hswap => h (Prod.swap_injective hswap)

/-- The line's walk counts down to its end. -/
theorem octant_countdown (a b : Int) :
    Countdown (octantNext a b) (· = (a, b)) (OctantPoint a b) (octantLeft a b) where
  keeps p hp hne := by
    refine hp.imp (·.next hne) fun h => ?_
    rw [← octantNext_swap]
    exact h.next (swap_ne_end hne)
  counts p hp hne := by
    obtain h | h := hp
    · exact h.octantLeft_next hne
    · have := h.octantLeft_next (swap_ne_end hne)
      rwa [octantNext_swap, octantLeft_swap, octantLeft_swap] at this
  ends p _ hp := by
    rw [hp, octantLeft, sub_self]; rfl

theorem shallowPoint_origin {a b : Int} (hb : 0 ≤ b) (hba : b ≤ a) : ShallowPoint a b (0, 0) := by
  refine ⟨⟨hb, hba⟩, ⟨le_rfl, le_rfl, hb.trans hba⟩, ?_, ?_⟩ <;> simp only [octantErr] <;> omega

theorem octantPoint_origin {a b : Int} (ha : 0 ≤ a) (hb : 0 ≤ b) : OctantPoint a b (0, 0) :=
  (le_total b a).imp (shallowPoint_origin hb) (shallowPoint_origin ha)

theorem octantLeft_origin (a b : Int) : octantLeft a b (0, 0) = (max a b).toNat := by
  unfold octantLeft; simp

/-- The line stays in the box of its ends. -/
theorem OctantPoint.inBox {a b : Int} {p : Int × Int} (h : OctantPoint a b p) :
    (0 ≤ p.1 ∧ p.1 ≤ a) ∧ 0 ≤ p.2 ∧ p.2 ≤ b := by
  obtain h | h := h
  · have := h.below
    exact ⟨by omega, by omega, h.second_le⟩
  · have := h.below
    have hle := h.second_le
    simp only [Prod.fst_swap, Prod.snd_swap] at this hle
    omega

section Octant

variable {a b : Int} (ha : 0 ≤ a) (hb : 0 ≤ b) {n : Nat} (hn : (max a b).toNat + 1 ≤ n)

include ha hb

theorem isChain_octantWalk (n : Nat) :
    (octantWalk a b n).IsChain fun p q => OctantPoint a b p ∧ p ≠ (a, b) ∧ q = octantNext a b p :=
  (octant_countdown a b).descent.isChain_walkUntil n (octantPoint_origin ha hb)

theorem nodup_octantWalk (n : Nat) : (octantWalk a b n).Nodup :=
  (octant_countdown a b).descent.nodup_walkUntil n (octantPoint_origin ha hb)

theorem inBox_of_mem_octantWalk {p : Int × Int} (hp : p ∈ octantWalk a b n) :
    (0 ≤ p.1 ∧ p.1 ≤ a) ∧ 0 ≤ p.2 ∧ p.2 ≤ b :=
  ((octant_countdown a b).descent.forall_mem_walkUntil n (octantPoint_origin ha hb) p hp).inBox

include hn

theorem octantWalk_eq : octantWalk a b n = octantWalk a b ((max a b).toNat + 1) := by
  have hleft := octantLeft_origin a b
  exact (octant_countdown a b).descent.walkUntil_congr (octantPoint_origin ha hb) (by omega) (by omega)

theorem getLast?_octantWalk : (octantWalk a b n).getLast? = some (a, b) := by
  have hleft := octantLeft_origin a b
  obtain ⟨q, hq, rfl⟩ :=
    (octant_countdown a b).descent.exists_getLast?_walkUntil (n := n) (octantPoint_origin ha hb) (by omega)
  exact hq

theorem length_octantWalk : (octantWalk a b n).length = (max a b).toNat + 1 := by
  have hleft := octantLeft_origin a b
  rw [octantWalk, (octant_countdown a b).length_walkUntil (octantPoint_origin ha hb) (by omega), hleft]

/-- A line with no extent in one coordinate is every point of its box: it stays in the box and takes each step of the
other coordinate. -/
theorem mem_octantWalk_of_flat (hflat : a = 0 ∨ b = 0) {p : Int × Int} :
    p ∈ octantWalk a b n ↔ (0 ≤ p.1 ∧ p.1 ≤ a) ∧ 0 ≤ p.2 ∧ p.2 ≤ b := by
  refine ⟨inBox_of_mem_octantWalk ha hb, fun hbox => ?_⟩
  have hleft := octantLeft_origin a b
  obtain ⟨q, hq, hqp⟩ := (octant_countdown a b).exists_mem_walkUntil (n := n) (k := octantLeft a b p)
    (octantPoint_origin ha hb) (by omega) (by unfold octantLeft; simp only; omega)
  have hqbox := inBox_of_mem_octantWalk ha hb hq
  unfold octantLeft at hqp
  rwa [show p = q from Prod.ext (by omega) (by omega)]

end Octant

/-! ## The line between any two points (R150, R151) -/

/-- The loop's `sx` or `sy`: the direction from one coordinate to another. -/
def lineDir (u v : Int) : Int := if u < v then 1 else -1

theorem lineDir_eq (u v : Int) : lineDir u v = 1 ∨ lineDir u v = -1 := by
  unfold lineDir; split <;> simp

theorem add_lineDir_mul_abs (u v : Int) : u + lineDir u v * |v - u| = v := by
  unfold lineDir
  split
  · rw [abs_of_nonneg (by omega)]; omega
  · rw [abs_of_nonpos (by omega)]; omega

/-- The point of the line from `(x0, y0)` to `(x1, y1)` that stands for the point `p` of its octant. -/
def linePlace (x0 y0 x1 y1 : Int) (p : Int × Int) : Int × Int :=
  (x0 + lineDir x0 x1 * p.1, y0 + lineDir y0 y1 * p.2)

theorem linePlace_origin (x0 y0 x1 y1 : Int) : linePlace x0 y0 x1 y1 (0, 0) = (x0, y0) := by
  simp [linePlace]

theorem linePlace_end (x0 y0 x1 y1 : Int) : linePlace x0 y0 x1 y1 (|x1 - x0|, |y1 - y0|) = (x1, y1) := by
  simp only [linePlace, add_lineDir_mul_abs]

theorem linePlace_injective (x0 y0 x1 y1 : Int) : Function.Injective (linePlace x0 y0 x1 y1) := by
  intro p q h
  obtain ⟨hx, hy⟩ := Prod.mk.inj h
  obtain hsx | hsx := lineDir_eq x0 x1 <;> obtain hsy | hsy := lineDir_eq y0 y1 <;> rw [hsx] at hx <;>
    rw [hsy] at hy <;> exact Prod.ext (by omega) (by omega)

theorem linePlace_eq_end_iff {x0 y0 x1 y1 : Int} {p : Int × Int} :
    linePlace x0 y0 x1 y1 p = (x1, y1) ↔ p = (|x1 - x0|, |y1 - y0|) := by
  rw [← (linePlace_injective x0 y0 x1 y1).eq_iff (a := p), linePlace_end]

theorem linePlace_octantNext (x0 y0 x1 y1 a b : Int) (p : Int × Int) :
    linePlace x0 y0 x1 y1 (octantNext a b p) =
      (if 2 * octantErr a b p ≥ -b then (linePlace x0 y0 x1 y1 p).1 + lineDir x0 x1 else (linePlace x0 y0 x1 y1 p).1,
       if 2 * octantErr a b p ≤ a then (linePlace x0 y0 x1 y1 p).2 + lineDir y0 y1
         else (linePlace x0 y0 x1 y1 p).2) := by
  simp only [linePlace, octantNext]
  congr 1 <;> split <;> ring

theorem octantErr_octantNext (a b : Int) (p : Int × Int) :
    octantErr a b (octantNext a b p) =
      octantErr a b p + (if 2 * octantErr a b p ≥ -b then -b else 0) + (if 2 * octantErr a b p ≤ a then a else 0) := by
  rw [octantErr, octantNext]
  split <;> split <;> rw [octantErr] <;> ring

/-- The loop of `PlotLine` from any of its points is the walk in the octant, put in its place: its `err` is
`octantErr`. -/
theorem lineWalk_eq_map (x0 y0 x1 y1 : Int) (n : Nat) (p : Int × Int) :
    lineWalk x1 y1 |x1 - x0| (-|y1 - y0|) (lineDir x0 x1) (lineDir y0 y1) n (linePlace x0 y0 x1 y1 p).1
        (linePlace x0 y0 x1 y1 p).2 (octantErr |x1 - x0| |y1 - y0| p) =
      (walkUntil (octantNext |x1 - x0| |y1 - y0|) (· = (|x1 - x0|, |y1 - y0|)) n p).map
        (linePlace x0 y0 x1 y1) := by
  induction n generalizing p with
  | zero => rfl
  | succ n ih =>
    have hend : ((linePlace x0 y0 x1 y1 p).1 = x1 ∧ (linePlace x0 y0 x1 y1 p).2 = y1) ↔
        p = (|x1 - x0|, |y1 - y0|) := by rw [← linePlace_eq_end_iff, Prod.ext_iff]
    have hnext := ih (octantNext |x1 - x0| |y1 - y0| p)
    rw [octantErr_octantNext, linePlace_octantNext] at hnext
    rw [lineWalk, walkUntil, List.map_cons, apply_ite (List.map _), ← hnext]
    simp only [hend, List.map_nil]

/-- The line's points, with any bound of the loop (R150). -/
theorem lineWalk_eq_map_octantWalk (x0 y0 x1 y1 : Int) (n : Nat) :
    lineWalk x1 y1 |x1 - x0| (-|y1 - y0|) (lineDir x0 x1) (lineDir y0 y1) n x0 y0 (|x1 - x0| + -|y1 - y0|) =
      (octantWalk |x1 - x0| |y1 - y0| n).map (linePlace x0 y0 x1 y1) := by
  have h := lineWalk_eq_map x0 y0 x1 y1 n (0, 0)
  rwa [linePlace_origin, octantErr, add_zero, mul_one, mul_one, sub_eq_add_neg] at h

theorem linePoints_eq_map_octantWalk (x0 y0 x1 y1 : Int) :
    linePoints x0 y0 x1 y1 =
      (octantWalk |x1 - x0| |y1 - y0| ((max |x1 - x0| |y1 - y0|).toNat + 1)).map (linePlace x0 y0 x1 y1) := by
  rw [← lineWalk_eq_map_octantWalk, linePoints, neg_neg]
  rfl

theorem head?_linePoints (x0 y0 x1 y1 : Int) : (linePoints x0 y0 x1 y1).head? = some (x0, y0) := by
  rw [linePoints_eq_map_octantWalk, List.head?_map, octantWalk, walkUntil_head?, Option.map_some, linePlace_origin]

theorem getLast?_linePoints (x0 y0 x1 y1 : Int) : (linePoints x0 y0 x1 y1).getLast? = some (x1, y1) := by
  rw [linePoints_eq_map_octantWalk, List.getLast?_map, getLast?_octantWalk (abs_nonneg _) (abs_nonneg _) le_rfl,
    Option.map_some, linePlace_end]

theorem length_linePoints (x0 y0 x1 y1 : Int) :
    (linePoints x0 y0 x1 y1).length = (max |x1 - x0| |y1 - y0|).toNat + 1 := by
  rw [linePoints_eq_map_octantWalk, List.length_map, length_octantWalk (abs_nonneg _) (abs_nonneg _) le_rfl]

theorem nodup_linePoints (x0 y0 x1 y1 : Int) : (linePoints x0 y0 x1 y1).Nodup := by
  rw [linePoints_eq_map_octantWalk]
  exact (nodup_octantWalk (abs_nonneg _) (abs_nonneg _) _).map (linePlace_injective x0 y0 x1 y1)

/-- The distance from the start is the coordinate in the octant. -/
theorem abs_lineDir_mul {u v k : Int} (hk : 0 ≤ k) : |u + lineDir u v * k - u| = k := by
  obtain h | h := lineDir_eq u v <;> simp [h, abs_of_nonneg hk]

/-- Each point but the end is followed by the loop's next point, `err` written as what it is there (R150). -/
theorem isChain_linePoints (x0 y0 x1 y1 : Int) :
    (linePoints x0 y0 x1 y1).IsChain fun p q =>
      let err := |x1 - x0| * (1 + |p.2 - y0|) - |y1 - y0| * (1 + |p.1 - x0|)
      p ≠ (x1, y1) ∧
        q.1 = (if 2 * err ≥ -|y1 - y0| then p.1 + (if x0 < x1 then 1 else -1) else p.1) ∧
        q.2 = (if 2 * err ≤ |x1 - x0| then p.2 + (if y0 < y1 then 1 else -1) else p.2) := by
  rw [linePoints_eq_map_octantWalk, List.isChain_map]
  refine (isChain_octantWalk (abs_nonneg _) (abs_nonneg _) _).imp fun p q ⟨hp, hne, hq⟩ => ?_
  obtain ⟨⟨hx, -⟩, hy, -⟩ := hp.inBox
  have hnext := linePlace_octantNext x0 y0 x1 y1 |x1 - x0| |y1 - y0| p
  rw [← hq] at hnext
  refine ⟨fun h => hne (linePlace_eq_end_iff.1 h), ?_⟩
  rw [hnext, linePlace, abs_lineDir_mul hx, abs_lineDir_mul hy]
  exact ⟨rfl, rfl⟩

theorem between_iff_lineDir_between (u v k : Int) :
    (0 ≤ k ∧ k ≤ |v - u|) ↔ min u v ≤ u + lineDir u v * k ∧ u + lineDir u v * k ≤ max u v := by
  unfold lineDir
  split
  · rw [abs_of_nonneg (by omega)]; omega
  · rw [abs_of_nonpos (by omega)]; omega

theorem linePlace_inBox {x0 y0 x1 y1 : Int} {p : Int × Int} :
    ((0 ≤ p.1 ∧ p.1 ≤ |x1 - x0|) ∧ 0 ≤ p.2 ∧ p.2 ≤ |y1 - y0|) ↔
      (min x0 x1 ≤ (linePlace x0 y0 x1 y1 p).1 ∧ (linePlace x0 y0 x1 y1 p).1 ≤ max x0 x1) ∧
        min y0 y1 ≤ (linePlace x0 y0 x1 y1 p).2 ∧ (linePlace x0 y0 x1 y1 p).2 ≤ max y0 y1 :=
  and_congr (between_iff_lineDir_between ..) (between_iff_lineDir_between ..)

theorem linePlace_surjective (x0 y0 x1 y1 : Int) : Function.Surjective (linePlace x0 y0 x1 y1) := by
  intro p
  refine ⟨(lineDir x0 x1 * (p.1 - x0), lineDir y0 y1 * (p.2 - y0)), ?_⟩
  obtain hsx | hsx := lineDir_eq x0 x1 <;> obtain hsy | hsy := lineDir_eq y0 y1 <;> simp [linePlace, hsx, hsy]

/-- A horizontal or vertical line is every point of the box of its ends (R151). -/
theorem mem_linePoints_of_flat {x0 y0 x1 y1 : Int} (hflat : x0 = x1 ∨ y0 = y1) {p : Int × Int} :
    p ∈ linePoints x0 y0 x1 y1 ↔ (min x0 x1 ≤ p.1 ∧ p.1 ≤ max x0 x1) ∧ min y0 y1 ≤ p.2 ∧ p.2 ≤ max y0 y1 := by
  obtain ⟨q, rfl⟩ := linePlace_surjective x0 y0 x1 y1 p
  have hflat' : |x1 - x0| = 0 ∨ |y1 - y0| = 0 := by
    rw [abs_eq_zero, abs_eq_zero]; omega
  rw [linePoints_eq_map_octantWalk, List.mem_map_of_injective (linePlace_injective x0 y0 x1 y1),
    mem_octantWalk_of_flat (abs_nonneg _) (abs_nonneg _) le_rfl hflat', linePlace_inBox]

theorem mem_linePoints_horizontal {x0 x1 y : Int} {p : Int × Int} :
    p ∈ linePoints x0 y x1 y ↔ p.2 = y ∧ min x0 x1 ≤ p.1 ∧ p.1 ≤ max x0 x1 := by
  rw [mem_linePoints_of_flat (.inr rfl)]; omega

theorem mem_linePoints_vertical {x y0 y1 : Int} {p : Int × Int} :
    p ∈ linePoints x y0 x y1 ↔ p.1 = x ∧ min y0 y1 ≤ p.2 ∧ p.2 ≤ max y0 y1 := by
  rw [mem_linePoints_of_flat (.inl rfl)]; omega

/-- A step of the loop moves each coordinate by one or not at all. -/
theorem abs_ite_add_sub_le (c u : Prop) [Decidable c] [Decidable u] (x : Int) :
    |(if c then x + (if u then 1 else -1) else x) - x| ≤ 1 := by
  split
  · split <;> simp
  · simp

/-- Settles O31: the walk in the octant counts down to its end; its points are `linePlace`d one to one. -/
theorem lineWalkLaws : Obligations.LineWalkLaws := by
  intro x0 y0 x1 y1
  refine ⟨head?_linePoints .., getLast?_linePoints .., (isChain_linePoints ..).imp ?_,
    length_linePoints .., nodup_linePoints .., ?_, ?_⟩
  · rintro p q ⟨-, hx, hy⟩
    rw [hx, hy]
    exact ⟨abs_ite_add_sub_le .., abs_ite_add_sub_le ..⟩
  · rintro rfl x y
    exact mem_linePoints_horizontal
  · rintro rfl x y
    exact mem_linePoints_vertical

/-! ## The circle (R160) -/

/-- The loop's `d` at the point `p`. -/
def circleD (r : Int) (p : Int × Int) : Int := p.1 ^ 2 - p.1 + (p.2 + 1) ^ 2 - r ^ 2

/-- The loop's step from `p`. -/
def circleNext (r : Int) (p : Int × Int) : Int × Int := (if circleD r p < 0 then p.1 else p.1 - 1, p.2 + 1)

/-- The loop ends after `p`: its next point lies above the diagonal. -/
abbrev circleLast (r : Int) (p : Int × Int) : Prop := (circleNext r p).1 < (circleNext r p).2

/-- What holds at the points of the walk: they lie in the octant. -/
def CirclePoint (r : Int) (p : Int × Int) : Prop := 0 ≤ p.2 ∧ p.2 ≤ p.1 ∧ p.1 ≤ r

theorem circleNext_fst_le (r : Int) (p : Int × Int) : (circleNext r p).1 ≤ p.1 := by
  unfold circleNext; split <;> simp

/-- Each step brings the two coordinates closer. -/
theorem circle_descent (r : Int) :
    Descent (circleNext r) (circleLast r) (CirclePoint r) (fun p => (p.1 - p.2).toNat) where
  keeps p hp hlast := by
    obtain ⟨hy, -, hxr⟩ := hp
    have hx := circleNext_fst_le r p
    have hsnd : (circleNext r p).2 = p.2 + 1 := rfl
    exact ⟨by omega, not_lt.1 hlast, by omega⟩
  falls p hp hlast := by
    have hx := circleNext_fst_le r p
    have hsnd : (circleNext r p).2 = p.2 + 1 := rfl
    have hle : (circleNext r p).2 ≤ (circleNext r p).1 := not_lt.1 hlast
    omega

theorem circleD_circleNext (r : Int) (p : Int × Int) :
    circleD r (circleNext r p) =
      if circleD r p < 0 then circleD r p + 2 * (p.2 + 1) + 1
      else circleD r p + 2 * ((p.2 + 1) - (p.1 - 1)) + 1 := by
  rw [circleD, circleNext]
  split <;> rw [circleD] <;> ring

theorem circleWalk_of_lt {x y : Int} (h : x < y) (n : Nat) (d : Int) : circleWalk n x y d = [] := by
  cases n with
  | zero => rfl
  | succ n => rw [circleWalk, if_neg (not_le.2 h)]

/-- The loop of `CircleSteps` from any point of the octant is the walk of `circleNext`: its `d` is `circleD`. -/
theorem circleWalk_eq_walkUntil (r : Int) (n : Nat) {p : Int × Int} (hp : p.2 ≤ p.1) :
    circleWalk n p.1 p.2 (circleD r p) = walkUntil (circleNext r) (circleLast r) n p := by
  induction n generalizing p with
  | zero => rfl
  | succ n ih =>
    have hnext : (if circleD r p < 0 then circleWalk n p.1 (p.2 + 1) (circleD r p + 2 * (p.2 + 1) + 1)
        else circleWalk n (p.1 - 1) (p.2 + 1) (circleD r p + 2 * ((p.2 + 1) - (p.1 - 1)) + 1)) =
        circleWalk n (circleNext r p).1 (circleNext r p).2 (circleD r (circleNext r p)) := by
      rw [circleD_circleNext, circleNext]
      split <;> rfl
    rw [circleWalk, if_pos hp, hnext]
    by_cases hlast : circleLast r p
    · rw [walkUntil_succ_of_last hlast, circleWalk_of_lt hlast]
    · rw [walkUntil_succ_of_not_last hlast, ih (not_lt.1 hlast)]

theorem circleWalk_start (r : Int) (n : Nat) (hr : 0 ≤ r) :
    circleWalk n r 0 (1 - r) = walkUntil (circleNext r) (circleLast r) n (r, 0) := by
  rw [← circleWalk_eq_walkUntil r n (p := (r, 0)) hr, circleD]
  congr 1
  ring

theorem circleSteps_of_neg {r : Int} (hr : r < 0) : circleSteps r = [] := if_pos hr

theorem circleSteps_eq_walkUntil {r : Int} (hr : 0 ≤ r) :
    circleSteps r = walkUntil (circleNext r) (circleLast r) (r.toNat + 1) (r, 0) := by
  rw [circleSteps, if_neg (not_lt.2 hr), circleWalk_start r _ hr]

theorem circlePoint_start {r : Int} (hr : 0 ≤ r) : CirclePoint r (r, 0) := ⟨le_rfl, hr, le_rfl⟩

/-- The walk's points lie in the octant. -/
theorem circlePoint_of_mem {r : Int} {p : Int × Int} (hp : p ∈ circleSteps r) : CirclePoint r p := by
  obtain hr | hr := lt_or_ge r 0
  · rw [circleSteps_of_neg hr] at hp
    cases hp
  · rw [circleSteps_eq_walkUntil hr] at hp
    exact (circle_descent r).forall_mem_walkUntil _ (circlePoint_start hr) p hp

/-- The walk starts on the axis. -/
theorem head?_circleSteps {r : Int} (hr : 0 ≤ r) : (circleSteps r).head? = some (r, 0) := by
  rw [circleSteps_eq_walkUntil hr, walkUntil_head?]

/-- Settles O32: the octant's measure at the first point is below either bound, for the line and for the circle. -/
theorem walkBoundsNeverCutShort : Obligations.WalkBoundsNeverCutShort := by
  refine ⟨fun x0 y0 x1 y1 n hn => ?_, fun r n hr hn => ?_⟩
  · rw [linePoints_eq_map_octantWalk, ← octantWalk_eq (abs_nonneg _) (abs_nonneg _) hn]
    exact lineWalk_eq_map_octantWalk x0 y0 x1 y1 n
  · rw [circleWalk_start r n hr, circleSteps_eq_walkUntil hr]
    exact (circle_descent r).walkUntil_congr (circlePoint_start hr) (by simpa using hn) (by simp)

/-- Settles O33: both loops are walks of a next-point function, with `err` and `d` as functions of the point. -/
theorem walksTakeTheLoopsSteps : Obligations.WalksTakeTheLoopsSteps := by
  refine ⟨fun x0 y0 x1 y1 => ⟨head?_linePoints .., isChain_linePoints .., getLast?_linePoints ..⟩,
    fun r => circleSteps_of_neg, fun r hr => ⟨head?_circleSteps hr, ?_, fun p hp => ?_, fun p hp => ?_⟩⟩
  · rw [circleSteps_eq_walkUntil hr]
    exact ((circle_descent r).isChain_walkUntil _ (circlePoint_start hr)).imp fun p q ⟨_, _, hq⟩ => hq
  · obtain ⟨-, hyx, -⟩ := circlePoint_of_mem hp
    exact hyx
  · obtain ⟨q, hq, hlast⟩ := (circle_descent r).exists_getLast?_walkUntil (n := r.toNat + 1) (circlePoint_start hr)
      (by simp)
    rw [circleSteps_eq_walkUntil hr, hq] at hp
    cases hp
    exact hlast

end Sys2Proof.Machine
end

section
/-! PROOFS. The framebuffer and drawing commands (R140-R171): each is a fill, a byte written or a plotted list of points,
so its statement is the law of that operation and which points the list has. -/

namespace Sys2Proof.Machine

/-! ## Bytes (R143-R146) -/

/-- Settles O28: the fill's law `memRead_fillAll`, below BUFSZ and not. -/
theorem fillSetsEveryByte : Obligations.FillSetsEveryByte := by
  refine fun c s => ⟨decodeWords_encode (i := .fill c) rfl, decodeWords_encode (i := .clear) rfl, _, rfl, rfl,
    fun o ho => ?_, fun o ho => ?_, rfl⟩
  · rw [memRead_fillAll, if_pos ho]
  · rw [memRead_fillAll, if_neg (not_lt.2 ho)]

/-- Settles O29: the two branches of RDFB. -/
theorem rdfbReadsOneByte : Obligations.RdfbReadsOneByte := by
  refine fun ofs s => ⟨decodeWords_encode (i := .rdfb ofs) rfl, fun h => ?_, fun h => ?_⟩
  · rw [exec, execRdfb, if_pos h]
    rfl
  · rw [exec, execRdfb, if_neg (not_lt.2 h)]
    rfl

theorem exec_wrfb_of_lt {v : Byte} {ofs : Word} {s : State} (h : ofs.toNat < BUFSZ s.config) :
    exec (.wrfb v ofs) s = .next (memWrite ofs.toNat v s) := by
  rw [exec, execWrfb, if_pos h]

theorem exec_wrfb_of_le {v : Byte} {ofs : Word} {s : State} (h : BUFSZ s.config ≤ ofs.toNat) :
    exec (.wrfb v ofs) s = .next s := by
  rw [exec, execWrfb, if_neg (not_lt.2 h)]

/-- Settles O30: an offset in the framebuffer by `memRead_memWrite`, one past it by the state that is left. -/
theorem wrfbWritesOneByte : Obligations.WrfbWritesOneByte := by
  refine fun v ofs s => ⟨decodeWords_encode (i := .wrfb v ofs) rfl, ?_⟩
  obtain h | h := lt_or_ge ofs.toNat (BUFSZ s.config)
  · refine ⟨_, exec_wrfb_of_lt h, rfl, fun o => ?_, fun hle => absurd h (not_lt.2 hle)⟩
    simp only [memRead_memWrite, h, and_true]
  · refine ⟨s, exec_wrfb_of_le h, rfl, fun o => ?_, fun _ => rfl⟩
    rw [if_neg fun hlt => not_lt.2 h hlt.2]

/-! ## Plotting (R140) -/

/-- The pixels after plotting, for a list whose points are those with the property `drawn`. -/
theorem pixel_plot_of_mem_iff {c : Bool} {pts : List (Int × Int)} {s : State} {drawn : Prop} {x y : Nat}
    (hx : x < s.config.W) (hy : y < s.config.H) (h : ((x : Int), (y : Int)) ∈ pts ↔ drawn) :
    (drawn → pixel (plot c pts s) x y = c) ∧ (¬ drawn → pixel (plot c pts s) x y = pixel s x y) := by
  rw [pixel_plot c pts s hx hy]
  exact ⟨fun hd => if_pos (h.2 hd), fun hd => if_neg (mt h.1 hd)⟩

/-- Settles O27: one point plotted. -/
theorem pixelSetsOnePixel : Obligations.PixelSetsOnePixel := by
  refine fun c x y s => ⟨decodeWords_encode (i := .pixel c x y) rfl, _, rfl, plot_eq_setFb .., fun px py hx hy => ?_,
    fun o ho => memRead_setPixel_other fun hp => not_and.1 ho hp, fun hp => setPixel_offPanel hp⟩
  simp only [pixel_plot c _ s hx hy, List.mem_singleton, Prod.mk.injEq]

/-! ## Lines and rectangles (R150-R157) -/

/-- Settles O34: the walk's points are plotted. -/
theorem linePlotsItsWalk : Obligations.LinePlotsItsWalk := fun c x0 y0 x1 y1 s =>
  ⟨decodeWords_encode (i := .line c x0 y0 x1 y1) rfl, by decide, by decide, _, rfl, plot_eq_setFb ..,
    fun _ _ hx hy => pixel_plot c _ s hx hy, fun _ => memRead_plot_other⟩

/-- RECT's points are the outline of the box of its corners (R155). -/
theorem mem_rectPoints_iff_outline {x1 y1 x2 y2 : Int} {p : Int × Int} :
    p ∈ rectPoints x1 y1 x2 y2 ↔
      (min x1 x2 ≤ p.1 ∧ p.1 ≤ max x1 x2) ∧ (min y1 y2 ≤ p.2 ∧ p.2 ≤ max y1 y2) ∧
        (p.1 = x1 ∨ p.1 = x2 ∨ p.2 = y1 ∨ p.2 = y2) := by
  simp only [mem_rectPoints, mem_linePoints_horizontal, mem_linePoints_vertical]
  omega

/-- FILLRECT's points are the box of its corners (R156). -/
theorem mem_fillRectPoints_iff_box {x1 y1 x2 y2 : Int} {p : Int × Int} :
    p ∈ fillRectPoints x1 y1 x2 y2 ↔
      (min x1 x2 ≤ p.1 ∧ p.1 ≤ max x1 x2) ∧ (min y1 y2 ≤ p.2 ∧ p.2 ≤ max y1 y2) := by
  simp only [mem_fillRectPoints, mem_linePoints_horizontal]
  constructor
  · rintro ⟨y, hy, rfl, hx⟩
    omega
  · rintro ⟨hx, hy⟩
    exact ⟨p.2, hy, rfl, by omega⟩

/-- Settles O35: the four lines are the outline. -/
theorem rectPlotsTheBoxOutline : Obligations.RectPlotsTheBoxOutline := by
  refine fun c x1 y1 x2 y2 s => ⟨decodeWords_encode (i := .rect c x1 y1 x2 y2) rfl, _, rfl, plot_eq_setFb ..,
    fun px py hx hy => ?_, fun _ => memRead_plot_other⟩
  simp only [pixel_plot c _ s hx hy, mem_rectPoints_iff_outline]

/-- Settles O36: the rows are the box. -/
theorem fillrectFillsTheBox : Obligations.FillrectFillsTheBox := by
  refine fun c x1 y1 x2 y2 s => ⟨decodeWords_encode (i := .fillrect c x1 y1 x2 y2) rfl, _, rfl, plot_eq_setFb ..,
    fun px py hx hy => ?_, fun _ => memRead_plot_other⟩
  simp only [pixel_plot c _ s hx hy, mem_fillRectPoints_iff_box]

/-- Settles O37: the outline is part of the box, and all of a box with no inside. -/
theorem rectangleEquivalence : Obligations.RectangleEquivalence := by
  intro x1 y1 x2 y2
  simp only [mem_rectPoints_iff_outline, mem_fillRectPoints_iff_box, abs_le]
  exact ⟨fun p ⟨hx, hy, _⟩ => ⟨hx, hy⟩, fun hthin p ⟨hx, hy⟩ => ⟨hx, hy, by omega⟩⟩

/-! ## Circles (R160-R163) -/

theorem abs_sub_eq_iff {x c k : Int} (hk : 0 ≤ k) : |x - c| = k ↔ x = c + k ∨ x = c - k := by
  rw [abs_eq hk]; omega

theorem abs_sub_le_iff_between {y c k : Int} : |y - c| ≤ k ↔ c - k ≤ y ∧ y ≤ c + k := by
  rw [abs_le]; omega

/-- CIRCLE's points are the symmetric images of the walk's (R161). -/
theorem mem_circlePoints {cx cy r : Int} {p : Int × Int} :
    p ∈ circlePoints cx cy r ↔
      ∃ q ∈ circleSteps r, (|p.1 - cx| = q.1 ∧ |p.2 - cy| = q.2) ∨ (|p.1 - cx| = q.2 ∧ |p.2 - cy| = q.1) := by
  simp only [circlePoints, List.mem_flatMap]
  refine exists_congr fun q => and_congr_right fun hq => ?_
  obtain ⟨hy, hyx, -⟩ := circlePoint_of_mem hq
  simp only [circleOctants, List.mem_cons, List.not_mem_nil, or_false, Prod.ext_iff, abs_sub_eq_iff hy,
    abs_sub_eq_iff (hy.trans hyx)]
  tauto

/-- FILLCIRCLE's points are the vertical spans of the walk (R162). -/
theorem mem_fillCirclePoints {cx cy r : Int} {p : Int × Int} :
    p ∈ fillCirclePoints cx cy r ↔
      ∃ q ∈ circleSteps r, (|p.1 - cx| = q.1 ∧ |p.2 - cy| ≤ q.2) ∨ (|p.1 - cx| = q.2 ∧ |p.2 - cy| ≤ q.1) := by
  simp only [fillCirclePoints, List.mem_flatMap]
  refine exists_congr fun q => and_congr_right fun hq => ?_
  obtain ⟨hy, hyx, -⟩ := circlePoint_of_mem hq
  simp only [circleSpans, List.mem_append, mem_vspan, abs_sub_le_iff_between, abs_sub_eq_iff hy,
    abs_sub_eq_iff (hy.trans hyx)]
  tauto

/-- Each outline point is an end of a span (R162). -/
theorem mem_fillCirclePoints_of_mem_circlePoints {cx cy r : Int} {p : Int × Int} (hp : p ∈ circlePoints cx cy r) :
    p ∈ fillCirclePoints cx cy r := by
  obtain ⟨q, hq, himage⟩ := mem_circlePoints.1 hp
  exact mem_fillCirclePoints.2 ⟨q, hq, himage.imp (.imp_right le_of_eq) (.imp_right le_of_eq)⟩

theorem circlePoints_of_neg {cx cy r : Int} (hr : r < 0) : circlePoints cx cy r = [] := by
  rw [circlePoints, circleSteps_of_neg hr]; rfl

theorem fillCirclePoints_of_neg {cx cy r : Int} (hr : r < 0) : fillCirclePoints cx cy r = [] := by
  rw [fillCirclePoints, circleSteps_of_neg hr]; rfl

/-- With radius 0 the eight images of the one step are all the centre. -/
theorem circlePoints_zero (cx cy : Int) : circlePoints cx cy 0 = List.replicate 8 (cx, cy) := by
  have hsteps : circleSteps 0 = [(0, 0)] := by decide
  simp [circlePoints, hsteps, circleOctants, List.replicate]

theorem memSet_memSet_same (a : Nat) (v w : Byte) (m : Memory) : memSet a w (memSet a v m) = memSet a w m := by
  induction m with
  | nil => simp [memSet]
  | cons cell m ih =>
    obtain ⟨k, u⟩ := cell
    obtain hlt | rfl | hgt := lt_trichotomy a k
    · simp [memSet, hlt]
    · simp [memSet]
    · simp [memSet, not_lt.2 hgt.le, hgt.ne', ih]

theorem paint_paint (c : Bool) (mask b : Byte) : paint c mask (paint c mask b) = paint c mask b := by
  unfold paint
  cases c
  · exact (BitVec.and_assoc ..).trans (congrArg _ BitVec.and_self)
  · exact (BitVec.or_assoc ..).trans (congrArg _ BitVec.or_self)

/-- Setting a pixel again changes nothing, whatever the store. -/
theorem setPixel_setPixel (c : Bool) (s : State) (p : Int × Int) :
    setPixel c (setPixel c s p) p = setPixel c s p := by
  by_cases hp : onPanel s.config p.1 p.2 = true
  · simp only [setPixel, hp, if_true, memWrite_config, memRead_memWrite, paint_paint]
    rw [memWrite, memWrite, setFb_fb, memSet_memSet_same]
    rfl
  · have hoff : onPanel s.config p.1 p.2 = false := by simpa using hp
    simp only [setPixel_offPanel hoff]

theorem plot_replicate_succ (c : Bool) (n : Nat) (p : Int × Int) (s : State) :
    plot c (List.replicate (n + 1) p) s = setPixel c s p := by
  induction n with
  | zero => rfl
  | succ n ih =>
    rw [List.replicate_succ', plot_append, ih]
    exact setPixel_setPixel c s p

/-- Settles O38: the walk's symmetric images are plotted; with radius 0 the centre, eight times over. -/
theorem circlePlotsSymmetricImages : Obligations.CirclePlotsSymmetricImages := by
  refine fun c cx cy r s => ⟨decodeWords_encode (i := .circle c cx cy r) rfl, _, rfl, plot_eq_setFb ..,
    fun px py hx hy => pixel_plot_of_mem_iff hx hy mem_circlePoints, fun _ => memRead_plot_other,
    fun hr => ?_, fun hr => ?_⟩
  · rw [circlePoints_of_neg hr, plot_nil]
  · refine congrArg Host.Outcome.next ?_
    rw [hr, circlePoints_zero]
    exact plot_replicate_succ c 7 _ s

/-- Settles O39: the walk's spans are plotted. -/
theorem fillcircleFillsTheSpans : Obligations.FillcircleFillsTheSpans := by
  refine fun c cx cy r s => ⟨decodeWords_encode (i := .fillcircle c cx cy r) rfl, _, rfl, plot_eq_setFb ..,
    fun px py hx hy => pixel_plot_of_mem_iff hx hy mem_fillCirclePoints, fun _ => memRead_plot_other,
    fun hr => ?_, fun _ => mem_fillCirclePoints_of_mem_circlePoints⟩
  rw [fillCirclePoints_of_neg hr, plot_nil]

/-- A point at the distances of an outline point, in either order, is an outline point (R163). -/
theorem mem_circlePoints_of_abs {cx cy r : Int} {p q : Int × Int} (hp : p ∈ circlePoints cx cy r)
    (h : (|q.1 - cx| = |p.1 - cx| ∧ |q.2 - cy| = |p.2 - cy|) ∨ (|q.1 - cx| = |p.2 - cy| ∧ |q.2 - cy| = |p.1 - cx|)) :
    q ∈ circlePoints cx cy r := by
  obtain ⟨step, hstep, himage⟩ := mem_circlePoints.1 hp
  refine mem_circlePoints.2 ⟨step, hstep, ?_⟩
  obtain ⟨hx, hy⟩ | ⟨hx, hy⟩ := h <;> rw [hx, hy]
  · exact himage
  · exact himage.symm.imp And.symm And.symm

/-- No outline point is further than `r` from the centre in a coordinate (R163). -/
theorem abs_le_of_mem_circlePoints {cx cy r : Int} {p : Int × Int} (hp : p ∈ circlePoints cx cy r) :
    |p.1 - cx| ≤ r ∧ |p.2 - cy| ≤ r := by
  obtain ⟨step, hstep, himage⟩ := mem_circlePoints.1 hp
  obtain ⟨-, hyx, hxr⟩ := circlePoint_of_mem hstep
  omega

/-- The images of the first step, `(r, 0)`, are the extreme points (R163). -/
theorem mem_circlePoints_of_extreme {cx cy r : Int} (hr : 0 ≤ r) {p : Int × Int}
    (h : (|p.1 - cx| = r ∧ |p.2 - cy| = 0) ∨ (|p.1 - cx| = 0 ∧ |p.2 - cy| = r)) : p ∈ circlePoints cx cy r :=
  mem_circlePoints.2 ⟨(r, 0), List.mem_of_head? (head?_circleSteps hr), h⟩

/-- A point moved by the centre. -/
def fromCentre (cx cy : Int) (p : Int × Int) : Int × Int := (cx + p.1, cy + p.2)

theorem fromCentre_injective (cx cy : Int) : Function.Injective (fromCentre cx cy) := fun _ _ h =>
  Prod.ext (add_left_cancel (congrArg Prod.fst h)) (add_left_cancel (congrArg Prod.snd h))

theorem circlePoints_eq_map (cx cy r : Int) : circlePoints cx cy r = (circlePoints 0 0 r).map (fromCentre cx cy) := by
  rw [circlePoints, circlePoints, List.map_flatMap]
  refine List.flatMap_congr fun p _ => ?_
  simp [circleOctants, fromCentre, sub_eq_add_neg]

theorem intRange_add (u a b : Int) : intRange (u + a) (u + b) = (intRange a b).map (u + ·) := by
  simp [intRange, add_assoc]

theorem map_fromCentre_vspan (cx cy x ya yb : Int) :
    (vspan x ya yb).map (fromCentre cx cy) = vspan (cx + x) (cy + ya) (cy + yb) := by
  simp [vspan, intRange_add, fromCentre]

theorem fillCirclePoints_eq_map (cx cy r : Int) :
    fillCirclePoints cx cy r = (fillCirclePoints 0 0 r).map (fromCentre cx cy) := by
  rw [fillCirclePoints, fillCirclePoints, List.map_flatMap]
  refine List.flatMap_congr fun p _ => ?_
  simp [circleSpans, map_fromCentre_vspan, sub_eq_add_neg]

/-- The number of distinct points does not depend on the centre. -/
theorem length_dedup_circlePoints (cx cy r : Int) :
    (circlePoints cx cy r).dedup.length = (circlePoints 0 0 r).dedup.length := by
  rw [circlePoints_eq_map, List.dedup_map_of_injective (fromCentre_injective cx cy), List.length_map]

theorem length_dedup_fillCirclePoints (cx cy r : Int) :
    (fillCirclePoints cx cy r).dedup.length = (fillCirclePoints 0 0 r).dedup.length := by
  rw [fillCirclePoints_eq_map, List.dedup_map_of_injective (fromCentre_injective cx cy), List.length_map]

theorem circlePoints_counts :
    [0, 1, 2, 3, 4, 5].map (fun r => (circlePoints 0 0 r).dedup.length) = [1, 4, 12, 16, 24, 28] := by
  decide

theorem fillCirclePoints_counts :
    [0, 1, 2, 3, 4, 5].map (fun r => (fillCirclePoints 0 0 r).dedup.length) = [1, 5, 21, 37, 61, 97] := by
  decide +kernel

/-- Settles O40: the symmetries from `mem_circlePoints`, the counts at the origin. -/
theorem circleLaws : Obligations.CircleLaws := by
  refine ⟨by decide, fun cx cy r x y hp => ?_, fun cx cy r hr => ?_, fun cx cy => ?_⟩
  · exact ⟨mem_circlePoints_of_abs hp (.inl ⟨by rw [← abs_neg]; ring_nf, rfl⟩),
      mem_circlePoints_of_abs hp (.inl ⟨rfl, by rw [← abs_neg]; ring_nf⟩),
      mem_circlePoints_of_abs hp (.inr ⟨by simp, by simp⟩), abs_le_of_mem_circlePoints hp⟩
  · refine ⟨mem_circlePoints_of_extreme hr (.inl ?_), mem_circlePoints_of_extreme hr (.inl ?_),
      mem_circlePoints_of_extreme hr (.inr ?_), mem_circlePoints_of_extreme hr (.inr ?_)⟩ <;> simp [abs_of_nonneg hr]
  · simp only [length_dedup_circlePoints, length_dedup_fillCirclePoints]
    exact ⟨circlePoints_counts, fillCirclePoints_counts⟩

/-! ## Bitmaps (R170, R171) -/

theorem bitmapPoints_of_empty {w h : Half} (hempty : w = 0 ∨ h = 0) (x y : Int) (d : List Byte) :
    bitmapPoints x y w h d = [] := by
  obtain rfl | rfl := hempty <;> simp [bitmapPoints, uint16]

theorem mem_bitmapPoints_iff_bit {x y px py : Int} {w h : Half} {d : List Byte} :
    (px, py) ∈ bitmapPoints x y w h d ↔
      ∃ i j : Nat, i < w.toNat ∧ j < h.toNat ∧ px = x + i ∧ py = y + j ∧
        (d.getD (j * ((w.toNat + 7) / 8) + i / 8) 0).getLsbD (7 - i % 8) = true := by
  rw [mem_bitmapPoints]
  refine exists_congr fun i => exists_congr fun j => and_congr_right fun _ => and_congr_right fun _ => ?_
  rw [Prod.mk.injEq, and_comm, and_assoc]
  rfl

/-- Settles O41: the points of the set source bits are plotted. -/
theorem bitmapDrawsSetBitsOnly : Obligations.BitmapDrawsSetBitsOnly := by
  refine fun c x y w h d s => ⟨fun hlen => decodeWords_encode (i := .bitmap c x y w h d) (decide_eq_true hlen), _, rfl,
    plot_eq_setFb .., fun px py hx hy => pixel_plot_of_mem_iff hx hy mem_bitmapPoints_iff_bit,
    fun _ => memRead_plot_other, fun hempty => ?_⟩
  rw [bitmapPoints_of_empty hempty, plot_nil]

end Sys2Proof.Machine
end

section
/-! PROOFS. The text commands (R180-R197): what the string loops do with valid codes and at an invalid one, and that
the cursor column and the width STRWIDTH returns are the same sum of advances. -/

namespace Sys2Proof.Machine

/-! ## The cursor (R190, R191) -/

/-- Settles O42: the upper and lower halves of the word GETCURSOR returns, by the append it is. -/
theorem cursorCommands : Obligations.CursorCommands := fun x y _ =>
  ⟨decodeWords_encode (i := .setcursor x y) rfl, decodeWords_encode (i := .getcursor) rfl, rfl, _, rfl, rfl,
    BitVec.extractLsb'_append_eq_right, BitVec.extractLsb'_append_eq_left⟩

/-! ## Characters and the font (R180, R181) -/

theorem validChar_iff {ch : Byte} : validChar ch = true ↔ 32 ≤ ch.toNat ∧ ch.toNat ≤ 126 := by
  simp [validChar]

theorem validChar_eq_false_iff {ch : Byte} : validChar ch = false ↔ ch.toNat < 32 ∨ 126 < ch.toNat := by
  rw [← Bool.not_eq_true, validChar_iff]
  omega

/-- A well-formed font has the glyph of each valid code (R180). -/
theorem charGlyph_mem {f : Font} {ch : Byte} (hf : fontWf f = true) (hch : validChar ch = true) :
    charGlyph f ch ∈ f.glyphs := by
  obtain ⟨-, -, -, hlen, -⟩ := (fontWf_iff f).1 hf
  have hindex : ch.toNat - 32 < f.glyphs.length := by
    have := validChar_iff.1 hch
    omega
  rw [charGlyph, fontGlyph, List.getD_eq_getElem _ _ hindex]
  exact List.getElem_mem hindex

theorem charAdvance_le {f : Font} {ch : Byte} (hf : fontWf f = true) (hch : validChar ch = true) :
    charAdvance f ch ≤ 16 + 255 := by
  obtain ⟨-, -, hSP, -, hglyphs⟩ := (fontWf_iff f).1 hf
  exact Nat.add_le_add (hglyphs _ (charGlyph_mem hf hch)).1 hSP

theorem fontWf_of_configWf {c : Config} (h : configWf c = true) : fontWf c.FONT = true := by
  obtain ⟨-, -, -, -, hfont⟩ := (configWf_iff c).1 h
  exact hfont

/-! ## One character (R187, R188, R192) -/

theorem exec_wrchar_of_valid {ch : Byte} (h : validChar ch = true) (c : Bool) (s : State) :
    exec (.wrchar c ch) s = .next (setResult 1 (putChar c ch s)) := by
  rw [exec, execWrchar, if_pos h]

theorem exec_wrchar_of_invalid {ch : Byte} (h : validChar ch = false) (c : Bool) (s : State) :
    exec (.wrchar c ch) s = .next (setResult 0 s) := by
  rw [exec, execWrchar, if_neg (Bool.eq_false_iff.1 h)]

@[simp] theorem putChar_config (c : Bool) (ch : Byte) (s : State) : (putChar c ch s).config = s.config := by
  rw [putChar_eq]

@[simp] theorem putChar_curx (c : Bool) (ch : Byte) (s : State) :
    (putChar c ch s).curx = wrap16 (sint16 s.curx + charAdvance s.config.FONT ch) := by
  rw [putChar_eq]

@[simp] theorem putChar_cury (c : Bool) (ch : Byte) (s : State) : (putChar c ch s).cury = s.cury := by
  rw [putChar_eq]

theorem pixel_putChar (c : Bool) (ch : Byte) {s : State} {x y : Nat} (hx : x < s.config.W) (hy : y < s.config.H) :
    pixel (putChar c ch s) x y =
      if ((x : Int), (y : Int)) ∈
          glyphPoints s.config.FONT.FH (charGlyph s.config.FONT ch) (sint16 s.curx) (uint16 s.cury)
      then c else pixel s x y :=
  pixel_plot c _ s hx hy

theorem mem_glyphPoints_iff_bit {fh : Nat} {g : Glyph} {x y px py : Int} :
    (px, py) ∈ glyphPoints fh g x y ↔
      ∃ i r : Nat, i < g.GW ∧ r < fh ∧ (g.ROW.getD r 0).getLsbD (15 - i) = true ∧
        px = x + i ∧ py = y + g.YOFF.toInt + r := by
  simp only [mem_glyphPoints, Prod.mk.injEq, glyphBit]

/-- Settles O43: an invalid code by its branch; for a valid one the glyph's points are plotted. -/
theorem wrcharDrawsAndAdvances : Obligations.WrcharDrawsAndAdvances := by
  refine fun c ch s => ⟨decodeWords_encode (i := .wrchar c ch) rfl,
    fun hinvalid => exec_wrchar_of_invalid (validChar_eq_false_iff.2 hinvalid) c s, fun hlo hhi =>
      ⟨_, exec_wrchar_of_valid (validChar_iff.2 ⟨hlo, hhi⟩) c s, ?_,
        fun px py hx hy => pixel_plot_of_mem_iff hx hy mem_glyphPoints_iff_bit, fun g' hg => ?_,
        fun _ => memRead_plot_other⟩⟩
  · rw [add_assoc, ← Nat.cast_add, putChar_eq]
    rfl
  · rw [fontGlyph, List.getD_eq_getElem?_getD, hg]
    rfl

/-! ## A string's loops (R193, R196) -/

theorem putString_cons_of_valid {ch : Byte} (h : validChar ch = true) (c : Bool) (rest : List Byte) (s : State) :
    putString c (ch :: rest) s = putString c rest (putChar c ch s) := by
  rw [putString, if_pos h]

theorem validCount_cons_of_valid {ch : Byte} (h : validChar ch = true) (rest : List Byte) :
    validCount (ch :: rest) = validCount rest + 1 := by
  rw [validCount, if_pos h]

theorem widthSum_cons_of_valid {ch : Byte} (h : validChar ch = true) (f : Font) (rest : List Byte) :
    widthSum f (ch :: rest) = charAdvance f ch + widthSum f rest := by
  rw [widthSum, if_pos h]

/-- The three loops stop at once on the empty string and on an invalid code. -/
theorem loops_stop_at_once {str : List Byte} (h : ∀ ch, str.head? = some ch → validChar ch = false) :
    (∀ c s, putString c str s = s) ∧ validCount str = 0 ∧ ∀ f, widthSum f str = 0 := by
  cases str with
  | nil => exact ⟨fun _ _ => rfl, rfl, fun _ => rfl⟩
  | cons ch rest => simp [putString, validCount, widthSum, h ch rfl]

theorem validCount_append {pre : List Byte} (h : ∀ ch ∈ pre, validChar ch = true) (post : List Byte) :
    validCount (pre ++ post) = pre.length + validCount post := by
  induction pre with
  | nil => simp
  | cons ch pre ih =>
    obtain ⟨hch, hpre⟩ := List.forall_mem_cons.1 h
    rw [List.cons_append, validCount_cons_of_valid hch, ih hpre, List.length_cons]
    omega

theorem widthSum_append {pre : List Byte} (h : ∀ ch ∈ pre, validChar ch = true) (f : Font) (post : List Byte) :
    widthSum f (pre ++ post) = (pre.map (charAdvance f)).sum + widthSum f post := by
  induction pre with
  | nil => simp
  | cons ch pre ih =>
    obtain ⟨hch, hpre⟩ := List.forall_mem_cons.1 h
    rw [List.cons_append, widthSum_cons_of_valid hch, ih hpre, List.map_cons, List.sum_cons, add_assoc]

theorem SP_le_widthSum {str : List Byte} (h : validCount str ≠ 0) (f : Font) : f.SP ≤ widthSum f str := by
  cases str with
  | nil => exact absurd rfl h
  | cons ch rest =>
    have hch : validChar ch = true := by
      by_contra hch
      exact h (if_neg hch)
    rw [widthSum_cons_of_valid hch, charAdvance]
    omega

theorem widthSum_le {f : Font} (hf : fontWf f = true) (str : List Byte) :
    widthSum f str ≤ validCount str * (16 + 255) := by
  induction str with
  | nil => exact le_rfl
  | cons ch rest ih =>
    by_cases hch : validChar ch = true
    · have := charAdvance_le hf hch
      rw [widthSum_cons_of_valid hch, validCount_cons_of_valid hch]
      omega
    · rw [widthSum, if_neg hch]
      exact Nat.zero_le _

theorem validCount_le_length (str : List Byte) : validCount str ≤ str.length := by
  induction str with
  | nil => exact le_rfl
  | cons ch rest ih =>
    by_cases hch : validChar ch = true
    · rw [validCount_cons_of_valid hch]
      exact Nat.succ_le_succ ih
    · rw [validCount, if_neg hch]
      exact Nat.zero_le _

/-! ## WRSTR (R193, R194) -/

theorem unread_setResult (w : Word) : Unread (setResult w) := by
  constructor <;> intros <;> rfl

/-- The WRCHARs of valid codes draw what the loop of WRSTR draws. -/
theorem execAll_wrchars {pre : List Byte} (h : ∀ ch ∈ pre, validChar ch = true) (c : Bool) (s : State) :
    ∃ w, execAll (pre.map (Instr.wrchar c)) s = .next (setResult w (putString c pre s)) := by
  induction pre generalizing s with
  | nil => exact ⟨s.result, rfl⟩
  | cons ch pre ih =>
    obtain ⟨hch, hpre⟩ := List.forall_mem_cons.1 h
    obtain ⟨w, hw⟩ := ih hpre (setResult 1 (putChar c ch s))
    refine ⟨w, ?_⟩
    rw [List.map_cons, execAll_cons_of_next (exec_wrchar_of_valid hch c s), hw,
      putString_unread (unread_setResult 1), putString_cons_of_valid hch]
    rfl

/-- Settles O44: WRSTR stops where `pre` ends, and its WRCHARs are `execAll_wrchars`. -/
theorem wrstrIsWrcharsUpToTheFirstInvalid : Obligations.WrstrIsWrcharsUpToTheFirstInvalid := by
  intro c pre post s hpre hpost
  refine ⟨fun hlen => decodeWords_encode (i := .wrstr c (pre ++ post)) (decide_eq_true hlen), ?_⟩
  have hvalid : ∀ ch ∈ pre, validChar ch = true := fun ch hch => validChar_iff.2 (hpre ch hch)
  obtain ⟨hput, hcount, -⟩ := loops_stop_at_once fun ch hch => validChar_eq_false_iff.2 (hpost ch hch)
  obtain ⟨w, hw⟩ := execAll_wrchars hvalid c s
  refine ⟨_, hw, ?_⟩
  rw [exec, execWrstr, putString_append post s hvalid, hput, validCount_append hvalid, hcount]
  rfl

/-- Settles O45: both sides are WRSTR's loop from the cursor set, and the loop leaves the cursor's row. -/
theorem wrstratIsSetcursorThenWrstr : Obligations.WrstratIsSetcursorThenWrstr := by
  refine fun c x y str s => ⟨fun hlen => decodeWords_encode (i := .wrstrat c x y str) (decide_eq_true hlen), rfl, _, rfl,
    ?_, ?_⟩ <;> rw [putString_eq] <;> rfl

/-! ## STRWIDTH (R196) -/

/-- STRWIDTH's result and one spacing are the sum of the advances: the result is in range. -/
theorem toNat_word32_stringWidth {f : Font} {str : List Byte} (hf : fontWf f = true) (hcount : validCount str ≠ 0)
    (hle : validCount str ≤ 65535) : (word32 (stringWidth f str)).toNat + f.SP = widthSum f str := by
  have hSP := SP_le_widthSum hcount f
  have hsum := widthSum_le hf str
  rw [stringWidth, if_neg hcount, word32, BitVec.toNat_ofNat, Nat.mod_eq_of_lt (by omega)]
  omega

/-- In a monospace font every valid character advances the cursor by the same (R196). -/
theorem sum_charAdvance_of_monospace {f : Font} {w : Nat} (hf : fontWf f = true) (hw : ∀ g ∈ f.glyphs, g.GW = w)
    {pre : List Byte} (h : ∀ ch ∈ pre, validChar ch = true) :
    (pre.map (charAdvance f)).sum = pre.length * (w + f.SP) := by
  have hadvance : ∀ ch ∈ pre, charAdvance f ch = w + f.SP := fun ch hch =>
    congrArg (· + f.SP) (hw _ (charGlyph_mem hf (h ch hch)))
  rw [List.map_congr_left hadvance, List.map_const', List.sum_replicate, smul_eq_mul]

/-- Settles O46: the result is `toNat_word32_stringWidth`, and the sum is over `pre`. -/
theorem strwidthMeasuresThePrefix : Obligations.StrwidthMeasuresThePrefix := by
  intro pre post s hpre hpost
  have hvalid : ∀ ch ∈ pre, validChar ch = true := fun ch hch => validChar_iff.2 (hpre ch hch)
  obtain ⟨-, hpostCount, hpostWidth⟩ := loops_stop_at_once fun ch hch => validChar_eq_false_iff.2 (hpost ch hch)
  have hcount : validCount (pre ++ post) = pre.length := by rw [validCount_append hvalid, hpostCount, add_zero]
  have hwidth (hne : pre ≠ []) (hconfig : configWf s.config = true) (hlen : pre.length ≤ 65535) :
      (word32 (stringWidth s.config.FONT (pre ++ post))).toNat + s.config.FONT.SP =
        (pre.map (charAdvance s.config.FONT)).sum := by
    rw [toNat_word32_stringWidth (fontWf_of_configWf hconfig) (hcount ▸ mt List.eq_nil_of_length_eq_zero hne)
      (hcount ▸ hlen), widthSum_append hvalid, hpostWidth, add_zero]
  refine ⟨fun hlen => decodeWords_encode (i := .strwidth (pre ++ post)) (decide_eq_true hlen), _, rfl, rfl,
    fun hnil => ?_, hwidth, fun w hw hSP hconfig hne hlen => ?_⟩
  · rw [setResult_result, stringWidth, if_pos (by rw [hcount, hnil]; rfl)]
    rfl
  · have hmono := hwidth hne hconfig hlen
    rw [sum_charAdvance_of_monospace (fontWf_of_configWf hconfig) hw hvalid, hSP] at hmono
    exact Nat.eq_sub_of_add_eq hmono

/-! ## The cursor column after a string (R188, R197) -/

/-- Two advances with a wrap each are one advance with a wrap. -/
theorem wrap16_sint16_wrap16_add (u v : Int) : wrap16 (sint16 (wrap16 u) + v) = wrap16 (u + v) := by
  rw [wrap16, BitVec.ofInt_add, sint16, BitVec.ofInt_toInt, wrap16, ← BitVec.ofInt_add, wrap16]

theorem wrap16_sint16 (h : Half) : wrap16 (sint16 h) = h := BitVec.ofInt_toInt

theorem putString_curx (c : Bool) (str : List Byte) (s : State) :
    (putString c str s).curx = wrap16 (sint16 s.curx + widthSum s.config.FONT str) := by
  induction str generalizing s with
  | nil => simp [widthSum, putString, wrap16_sint16]
  | cons ch rest ih =>
    by_cases hch : validChar ch = true
    · rw [putString_cons_of_valid hch, ih, putChar_curx, putChar_config, wrap16_sint16_wrap16_add,
        widthSum_cons_of_valid hch, Nat.cast_add, add_assoc]
    · simp [putString, widthSum, hch, wrap16_sint16]

/-- The cursor column from `s` after the advances over `chs`. -/
def columnAfter (s : State) (chs : List Byte) : Half :=
  wrap16 (sint16 s.curx + (chs.map fun ch => ((charGlyph s.config.FONT ch).GW + s.config.FONT.SP : Int)).sum)

theorem columnAfter_nil (s : State) : columnAfter s [] = s.curx := by
  simp [columnAfter, wrap16_sint16]

theorem columnAfter_cons (c : Bool) (ch : Byte) (s : State) (chs : List Byte) :
    columnAfter s (ch :: chs) = columnAfter (putChar c ch s) chs := by
  rw [columnAfter, columnAfter, putChar_curx, putChar_config, wrap16_sint16_wrap16_add, List.map_cons, List.sum_cons,
    charAdvance, Nat.cast_add, add_assoc (sint16 s.curx)]

/-- A pixel that the loop of WRSTR changes is foreground of a glyph it draws (R197). -/
theorem mem_glyphPoints_of_pixel_putString_ne {c : Bool} {str : List Byte} {s : State} {x y : Nat}
    (hx : x < s.config.W) (hy : y < s.config.H) (hne : pixel (putString c str s) x y ≠ pixel s x y) :
    ∃ k < validCount str, ∃ ch, str[k]? = some ch ∧
      ((x : Int), (y : Int)) ∈ glyphPoints s.config.FONT.FH (charGlyph s.config.FONT ch)
        (sint16 (columnAfter s (str.take k))) (uint16 s.cury) := by
  induction str generalizing s with
  | nil => exact absurd rfl hne
  | cons ch rest ih =>
    by_cases hch : validChar ch = true
    · rw [putString_cons_of_valid hch] at hne
      rw [validCount_cons_of_valid hch]
      by_cases hfirst : pixel (putChar c ch s) x y = pixel s x y
      · obtain ⟨k, hk, a, ha, hmem⟩ := ih (s := putChar c ch s) (by simpa using hx) (by simpa using hy) (hfirst ▸ hne)
        refine ⟨k + 1, Nat.succ_lt_succ hk, a, ha, ?_⟩
        rw [List.take_succ_cons, columnAfter_cons c]
        simpa using hmem
      · refine ⟨0, Nat.succ_pos _, ch, rfl, ?_⟩
        rw [List.take_zero, columnAfter_nil]
        by_contra hmem
        exact hfirst ((pixel_putChar c ch hx hy).trans (if_neg hmem))
    · exact absurd (congrArg (pixel · x y) (if_neg hch)) hne

/-- Settles O47: the column has moved by the sum of advances, which is the width and one spacing. -/
theorem textAdvanceMatchesWidth : Obligations.TextAdvanceMatchesWidth := by
  intro c str s hconfig hlen
  have hle : validCount str ≤ 65535 := (validCount_le_length str).trans hlen
  have hcount : (word32 (validCount str)).toNat = validCount str := by
    rw [word32, BitVec.toNat_ofNat, Nat.mod_eq_of_lt (by omega)]
  refine ⟨_, _, rfl, rfl, ?_, ?_, ?_⟩ <;> simp only [setResult_result, setResult_curx, hcount]
  · intro hpos
    rw [putString_curx, ← toNat_word32_stringWidth (fontWf_of_configWf hconfig) hpos.ne' hle, Nat.cast_add, ← add_assoc]
    rfl
  · intro hzero
    have hwidth : widthSum s.config.FONT str = 0 := by simpa [hzero] using widthSum_le (fontWf_of_configWf hconfig) str
    rw [putString_curx, hwidth, Nat.cast_zero, add_zero, wrap16_sint16]
  · intro px py hx hy hne
    exact mem_glyphPoints_of_pixel_putString_ne hx hy hne

end Sys2Proof.Machine
end

section
/-! PROOFS. Display control (R210-R226): the transactions each bus-class command issues, what the command reports of
their answers, and the moves of the display state. -/

namespace Sys2Proof.Machine

/-! ## The default sequences (R218, R219, R241) -/

/-- A byte with its two nibbles given by `|`. -/
theorem toNat_nibbles {high low : Nat} (hhigh : high < 16) (hlow : low < 16) :
    (BitVec.ofNat 8 (2 ^ 4 * high) ||| BitVec.ofNat 8 low).toNat = 2 ^ 4 * high + low := by
  rw [BitVec.toNat_or, BitVec.toNat_ofNat, BitVec.toNat_ofNat, Nat.mod_eq_of_lt (by omega), Nat.mod_eq_of_lt (by omega),
    Nat.two_pow_add_eq_or_of_lt hlow]

theorem addrSeqDefault_bytes {p ca : Nat} (hp : p ≤ 15) (hca : ca ≤ 255) :
    ∃ page low high : Byte, addrSeqDefault p ca = some [page, low, high] ∧
      page.toNat = 0xB0 + p ∧ low.toNat = ca % 16 ∧ high.toNat = 0x10 + ca / 16 :=
  ⟨_, _, _, if_pos ⟨hp, hca⟩, toNat_nibbles (high := 11) (by omega) (by omega),
    (toNat_nibbles (high := 0) (by omega) (by omega)).trans (Nat.zero_add _),
    toNat_nibbles (high := 1) (by omega) (by omega)⟩

/-- The value of a table is that of a row. -/
theorem mem_of_tableAddrSeq {p ca : Nat} {bs : List Byte} {rows : List (Nat × Nat × List Byte)}
    (h : tableAddrSeq p ca rows = some bs) : (p, ca, bs) ∈ rows := by
  induction rows with
  | nil => cases h
  | cons row rows ih =>
    obtain ⟨p', ca', bs'⟩ := row
    rw [tableAddrSeq] at h
    split at h
    · rename_i hrow
      obtain ⟨rfl, rfl⟩ := hrow
      cases h
      exact List.mem_cons_self
    · exact List.mem_cons_of_mem _ (ih h)

theorem tableAddrSeq_eq_none_iff {p ca : Nat} {rows : List (Nat × Nat × List Byte)} :
    tableAddrSeq p ca rows = none ↔ ∀ bs, (p, ca, bs) ∉ rows := by
  induction rows with
  | nil => simp [tableAddrSeq]
  | cons row rows ih =>
    obtain ⟨p', ca', bs'⟩ := row
    by_cases hrow : p' = p ∧ ca' = ca
    · obtain ⟨rfl, rfl⟩ := hrow
      exact iff_of_false (by simp [tableAddrSeq]) fun h => h bs' List.mem_cons_self
    · have hne : ∀ bs, (p, ca, bs) ≠ (p', ca', bs') := fun bs h => hrow (by cases h; exact ⟨rfl, rfl⟩)
      simp [tableAddrSeq, hrow, ih, List.mem_cons, hne]

/-- Settles O48: the default bytes by their nibbles, a table by the rows it has for the pair, INITSEQ by reading it. -/
theorem defaultSequencesAreTheSpecsBytes : Obligations.DefaultSequencesAreTheSpecsBytes := by
  refine ⟨fun c p ca hmode => ?_, fun c rows p ca hmode => ?_, ?_, ?_⟩
  · rw [addrSeq?, hmode]
    exact ⟨addrSeqDefault_bytes, fun h => if_neg (by omega)⟩
  · rw [addrSeq?, hmode]
    refine ⟨fun bs hbs hunique => ?_, tableAddrSeq_eq_none_iff.2⟩
    obtain ⟨bs', hbs'⟩ := Option.ne_none_iff_exists'.1 fun hnone => tableAddrSeq_eq_none_iff.1 hnone bs hbs
    exact hbs'.trans (congrArg some (hunique bs' (mem_of_tableAddrSeq hbs')))
  · exact fun w xoff pow maxpow font => ⟨rfl, rfl, rfl, rfl, rfl, rfl, rfl⟩
  · exact fun h mirrorH mirrorV invert contrast hpos hle =>
      ⟨rfl, ⟨_, rfl, Nat.mod_eq_of_lt (by omega)⟩, rfl, rfl, rfl, rfl, rfl⟩

/-! ## The transactions of INIT (R220) -/

/-- The transactions INIT issues when none fails: `INITSEQ`, then the whole of the cleared framebuffer. -/
def initTxs (s : State) : List BusTx :=
  s.config.INITSEQ.map BusTx.cmd ++ rangeTxs (fillAll 0x00 s) (BUFSZ s.config) 0 (BUFSZ s.config)

/-- The flush starts from the answers and the trace that `INITSEQ` has left, and from a cleared framebuffer. -/
theorem clearAndSend_afterBus (recs : List BusRecord) (s : State) :
    let sent := issue (answerAt s) recs.length (rangeTxs (fillAll 0x00 s) (BUFSZ s.config) 0 (BUFSZ s.config))
    clearAndSend (afterBus recs s) = (allOk sent, fillAll 0x00 (afterBus (recs ++ sent) s)) := by
  have hans : answerAt (fillAll 0x00 (afterBus recs s)) = fun k => answerAt s (recs.length + k) :=
    funext (answerAt_afterBus recs s)
  have htxs := rangeTxs_congr (s := fillAll 0x00 s) (t := fillAll 0x00 (afterBus recs s)) rfl (fun _ => rfl)
    (BUFSZ s.config) 0 (BUFSZ s.config)
  dsimp only
  rw [clearAndSend, sendRange_eq, hans, issue_shift, afterBus_append]
  exact congrArg (fun ts => (allOk (issue _ _ ts), fillAll 0x00 (afterBus (issue _ _ ts) (afterBus recs s)))) htxs

theorem allOk_append (r r' : List BusRecord) : allOk (r ++ r') = (allOk r && allOk r') := List.all_append

theorem length_issue_of_allOk {ans : Nat → Bool} {k : Nat} {ts : List BusTx} (h : allOk (issue ans k ts) = true) :
    (issue ans k ts).length = ts.length := by
  rw [← List.length_map (f := fun r => r.tx), issue_allOk h]

theorem length_issue_le (ans : Nat → Bool) (k : Nat) (ts : List BusTx) : (issue ans k ts).length ≤ ts.length := by
  rw [← List.length_map (f := fun r => r.tx)]
  exact (issue_prefix ans k ts).length_le

theorem length_pos_of_allOk_eq_false {recs : List BusRecord} (h : allOk recs = false) : 0 < recs.length :=
  List.length_pos_of_ne_nil fun hnil => by cases hnil; cases h

/-- Everything INIT's transfer does: the framebuffer is cleared unless it fails within `INITSEQ` (R220). -/
theorem initTransfer_eq (s : State) :
    let recs := issue (answerAt s) 0 (initTxs s)
    initTransfer s = (allOk recs, { afterBus recs s with
      fb := if allOk recs = false ∧ recs.length ≤ s.config.INITSEQ.length then s.fb
        else memFill (BUFSZ s.config) 0x00 s.fb }) := by
  dsimp only
  rw [initTransfer, busSeq_eq, initTxs, issue_append]
  cases hseq : allOk (issue (answerAt s) 0 (s.config.INITSEQ.map BusTx.cmd))
  · have hlen := length_issue_le (answerAt s) 0 (s.config.INITSEQ.map BusTx.cmd)
    rw [List.length_map] at hlen
    simp only [Bool.false_eq_true, if_false, hseq, hlen, and_self, if_true]
    rfl
  · have hlen := length_issue_of_allOk hseq
    simp only [if_true, clearAndSend_afterBus, allOk_append, hseq, Bool.true_and, hlen, Nat.zero_add]
    rw [if_neg]
    · rfl
    · rintro ⟨hfail, hle⟩
      have hsent := length_pos_of_allOk_eq_false hfail
      simp only [List.length_append, hlen, List.length_map] at hle hsent
      omega

/-- The whole framebuffer is sent page by page (R242, R249). -/
theorem rangeTxs_pages {s : State} (hW : 1 ≤ s.config.W) (n p : Nat) :
    rangeTxs s ((p + n) * s.config.W - p * s.config.W) (p * s.config.W) ((p + n) * s.config.W) =
      (List.range' p n).flatMap fun q => pageSegment s q 0 ((q + 1) * s.config.W) := by
  induction n generalizing p with
  | zero => exact rangeTxs_empty s le_rfl
  | succ n ih =>
    have hlt : p * s.config.W < (p + (n + 1)) * s.config.W := Nat.mul_lt_mul_of_pos_right (by omega) hW
    have hdiv : p * s.config.W / s.config.W = p := Nat.mul_div_cancel p hW
    have hend : segmentEnd s.config (p * s.config.W) ((p + (n + 1)) * s.config.W) = (p + 1) * s.config.W := by
      rw [segmentEnd, hdiv]
      exact Nat.min_eq_right (Nat.mul_le_mul_right _ (by omega))
    rw [rangeTxs_unfold hW hlt, segmentTxs, hend, hdiv, Nat.mul_mod_left, List.range'_succ, List.flatMap_cons,
      ← ih (p + 1), Nat.add_right_comm p 1 n]
    rfl

/-- A full flush sends all pages (R249). -/
theorem rangeTxs_eq_allPages {s : State} (hW : 1 ≤ s.config.W) :
    rangeTxs s (BUFSZ s.config) 0 (BUFSZ s.config) = allPages s := by
  have h := rangeTxs_pages hW (PAGES s.config) 0
  rw [Nat.zero_add, Nat.zero_mul, Nat.sub_zero, Nat.mul_comm] at h
  rw [allPages, List.range_eq_range']
  exact h

/-- Settles O49: `initTransfer_eq`, with the flush of the cleared framebuffer page by page. -/
theorem initProgramsClearsAndFlushes : Obligations.InitProgramsClearsAndFlushes := by
  intro s hconfig
  obtain ⟨⟨hW, -⟩, -⟩ := (configWf_iff s.config).1 hconfig
  have htxs : initTxs s = s.config.INITSEQ.map BusTx.cmd ++ allPages (fillAll 0x00 s) :=
    congrArg (_ ++ ·) (rangeTxs_eq_allPages (s := fillAll 0x00 s) hW)
  refine ⟨decodeWords_encode (i := .init) rfl, ?_⟩
  intro cleared recs after
  have htransfer : initTransfer s = (allOk recs, { after with
      fb := if allOk recs = false ∧ recs.length ≤ s.config.INITSEQ.length then s.fb else cleared.fb }) := by
    rw [initTransfer_eq, htxs]
    rfl
  refine ⟨fun hok => ?_, fun hfail => ?_, fun o ho => ?_⟩
  · rw [exec, execInit, htransfer, hok]
    rfl
  · simp only [exec, execInit, htransfer, hfail, true_and]
    rfl
  · exact (memRead_fillAll o 0x00 s).trans (if_pos ho)

/-! ## Display on, off, inverse and brightness (R222-R225) -/

theorem displayState_eq (old d : DState) : displayState old d = if old ≠ .uninit then d else old := by
  cases old <;> rfl

/-- What DISPON and DISPOFF leave, for either answer (R222, R223). -/
theorem endBusCommand_displayState (ok : Bool) (d : DState) (recs : List BusRecord) (s : State) :
    endBusCommand ok (okResult ok)
        (if ok then setDstate (displayState s.dstate d) (afterBus recs s) else afterBus recs s) =
      { afterBus recs s with
        dstate := if ok = true ∧ s.dstate ≠ .uninit then d else s.dstate
        result := if ok then 1 else 0
        lastfail := !ok } := by
  cases ok
  · rfl
  · simp only [displayState_eq, true_and]
    rfl

/-- Settles O50: one transaction by `busTx_eq`, then `endBusCommand_displayState`. -/
theorem displayOnAndOff : Obligations.DisplayOnAndOff := by
  refine fun s => ⟨decodeWords_encode (i := .dispon) rfl, decodeWords_encode (i := .dispoff) rfl, ?_, ?_⟩
  · rw [exec, execDispon, busTx_eq]
    exact congrArg _ (endBusCommand_displayState ..)
  · rw [exec, execDispoff, busTx_eq]
    exact congrArg _ (endBusCommand_displayState ..)

/-- Settles O51: one transaction by `busTx_eq`, and the two answers. -/
theorem toginvTogglesOnSuccess : Obligations.ToginvTogglesOnSuccess := by
  refine fun s => ⟨decodeWords_encode (i := .toginv) rfl, ?_⟩
  have hbyte : (if !s.inv then s.config.CMD_INVERSE else s.config.CMD_NORMAL) =
      if s.inv then s.config.CMD_NORMAL else s.config.CMD_INVERSE := by cases s.inv <;> rfl
  rw [exec, execToginv, hbyte, busTx_eq]
  cases answerAt s 0
  · simp only [Bool.xor_false]
    rfl
  · simp only [Bool.xor_true]
    rfl

/-- Settles O52: the pair is a `BusSeq`, so `busSeq_eq` gives it for each of the answers. -/
theorem setbrightSendsAPair : Obligations.SetbrightSendsAPair := by
  refine fun v s => ⟨decodeWords_encode (i := .setbright v) rfl, fun h => ?_, fun h h' => ?_, fun h h' => ?_⟩
  · simp only [exec, execSetbright, busSeq_eq, issue, h]
    rfl
  · simp only [exec, execSetbright, busSeq_eq, issue, h, h']
    rfl
  · simp only [exec, execSetbright, busSeq_eq, issue, h, h']
    rfl

/-! ## The moves of the display state (R226) -/

theorem exec_init_dstate {s t : State} (h : exec .init s = .next t) :
    t.dstate = if t.lastfail then .uninit else .active := by
  cases h
  cases (initTransfer s).1 <;> rfl

/-- What DISPON and DISPOFF can do to DSTATE, with `displayOnAndOff` for the state they leave. -/
theorem display_dstate_cases {s t : State} {ok : Bool} {d : DState}
    (hd : t.dstate = if ok = true ∧ s.dstate ≠ .uninit then d else s.dstate) (hf : t.lastfail = !ok) :
    t.dstate = s.dstate ∨ (s.dstate ≠ .uninit ∧ t.lastfail = false ∧ t.dstate = d) := by
  split at hd
  · rename_i hmove
    exact .inr ⟨hmove.2, by rw [hf, hmove.1]; rfl, hd⟩
  · exact .inl hd

/-- Everything a command can do to DSTATE (R226). -/
theorem exec_dstate_cases {i : Instr} {s t : State} (h : exec i s = .next t) :
    (i = .init ∧ t.dstate = if t.lastfail then .uninit else .active) ∨
      (i ≠ .init ∧ t.dstate = s.dstate) ∨
      (s.dstate ≠ .uninit ∧ t.lastfail = false ∧
        (i = .dispon ∧ t.dstate = .active ∨ i = .dispoff ∧ t.dstate = .off)) := by
  obtain ⟨-, -, hon, hoff⟩ := displayOnAndOff s
  cases i with
  | init => exact .inl ⟨rfl, exec_init_dstate h⟩
  | dispon =>
    cases hon.symm.trans h
    exact .inr ((display_dstate_cases rfl rfl).imp (⟨nofun, ·⟩) fun ⟨hs, hf, hd⟩ => ⟨hs, hf, .inl ⟨rfl, hd⟩⟩)
  | dispoff =>
    cases hoff.symm.trans h
    exact .inr ((display_dstate_cases rfl rfl).imp (⟨nofun, ·⟩) fun ⟨hs, hf, hd⟩ => ⟨hs, hf, .inr ⟨rfl, hd⟩⟩)
  | _ => exact .inr (.inl ⟨nofun, exec_dstate (by simp) (by simp) (by simp) h⟩)

/-- Settles O23: the four things a command can do to DSTATE. -/
theorem displayStateMoves : Obligations.DisplayStateMoves := by
  intro i s t h
  obtain ⟨rfl, hd⟩ | ⟨hinit, hd⟩ | ⟨hs, hf, ⟨rfl, hd⟩ | ⟨rfl, hd⟩⟩ := exec_dstate_cases h
  · cases hf : t.lastfail <;> simp [hd, hf]
  · rw [hd]
    cases s.dstate <;> simp [hinit]
  · simp [hd, hs, hf]
  · simp [hd, hs, hf]

/-! ## What a bus-class command issues and reports (R210-R213) -/

/-- The transactions of UPDCHUNK's chunk `k` (R256). -/
def chunkTxs (k : Nat) (s : State) : List BusTx :=
  if k * BPO s.config ≥ BUFSZ s.config then []
  else
    let e := min (k * BPO s.config + BPO s.config) (BUFSZ s.config)
    rangeTxs s (e - k * BPO s.config) (k * BPO s.config) e

theorem sendChunk_eq_busSeq (k : Nat) (s : State) : sendChunk k s = busSeq (chunkTxs k s) s := by
  unfold sendChunk chunkTxs
  split <;> rfl

theorem busTx_eq_busSeq (t : BusTx) (s : State) : busTx t s = busSeq [t] s := by
  rw [busSeq]
  cases h : (busTx t s).1 <;> exact Prod.ext h rfl

/-- The transactions a command issues when none fails (R210). -/
def commandTxs (i : Instr) (s : State) : List BusTx :=
  match i with
  | .init => initTxs s
  | .update => rangeTxs s (BUFSZ s.config) 0 (BUFSZ s.config)
  | .updchunk k => chunkTxs k.toNat s
  | .tick => rangeTxs s (tickEnd s - s.ucur.toNat) s.ucur.toNat (tickEnd s)
  | .dispon => [.cmd s.config.CMD_ON]
  | .dispoff => [.cmd s.config.CMD_OFF]
  | .toginv => [.cmd (if !s.inv then s.config.CMD_INVERSE else s.config.CMD_NORMAL)]
  | .setbright v => [.cmd s.config.CMD_CONTRAST, .cmd v]
  | .fill _ | .clear | .getchunks | .getucur | .pixel _ _ _ | .line _ _ _ _ _ | .rect _ _ _ _ _
  | .fillrect _ _ _ _ _ | .circle _ _ _ _ | .fillcircle _ _ _ _ | .bitmap _ _ _ _ _ _ | .setcursor _ _
  | .getcursor | .wrchar _ _ | .wrstr _ _ | .wrstrat _ _ _ _ | .strwidth _ | .rdfb _ | .wrfb _ _ => []

/-- What a command executed in `s` has issued of its transactions: those up to the first failure. -/
def commandRecords (i : Instr) (s : State) : List BusRecord := issue (answerAt s) 0 (commandTxs i s)

/-- `r` is the outcome of a command's transactions: whether all succeeded, and a state whose trace has them. -/
structure Transfer (recs : List BusRecord) (s : State) (r : Bool × State) : Prop where
  ok : r.1 = allOk recs
  busTrace : r.2.busTrace = s.busTrace ++ recs

theorem transfer_busSeq (ts : List BusTx) (s : State) :
    Transfer (issue (answerAt s) 0 ts) s (busSeq ts s) := by
  rw [busSeq_eq]
  exact ⟨rfl, rfl⟩

theorem transfer_initTransfer (s : State) : Transfer (commandRecords .init s) s (initTransfer s) := by
  rw [initTransfer_eq]
  exact ⟨rfl, rfl⟩

/-- `t` has the transactions `recs` in its trace and reports whether one failed (R213). -/
structure Reports (recs : List BusRecord) (s t : State) : Prop where
  busTrace : t.busTrace = s.busTrace ++ recs
  lastfail : t.lastfail = !allOk recs
  result : t.result.getLsbD 0 = allOk recs

theorem okResult_bit (ok : Bool) : (okResult ok).getLsbD 0 = ok := by cases ok <;> rfl

theorem pairResult_bit (b1 b0 : Bool) : (pairResult b1 b0).getLsbD 0 = b0 := by
  simp only [pairResult, BitVec.getLsbD_append]
  simp

/-- The epilogue of a bus-class command reports its transfer, whatever registers were written in between (R213). -/
theorem Transfer.reports {recs : List BusRecord} {s t : State} {r : Bool × State} {res : Word} (h : Transfer recs s r)
    (hres : res.getLsbD 0 = r.1) (ht : t.busTrace = r.2.busTrace) : Reports recs s (endBusCommand r.1 res t) where
  busTrace := ht.trans h.busTrace
  lastfail := congrArg (!·) h.ok
  result := hres.trans h.ok

theorem busTrace_ite {ok : Bool} {t u v : State} (ht : t.busTrace = v.busTrace) (hu : u.busTrace = v.busTrace) :
    (if ok then t else u).busTrace = v.busTrace := by
  cases ok
  · exact hu
  · exact ht

/-- Every bus-class command issues its transactions up to the first failure and reports it (R210, R212, R213). -/
theorem exec_reports {i : Instr} {s t : State} (hb : busClass i = true) (h : exec i s = .next t) :
    Reports (commandRecords i s) s t := by
  cases i with
  | init =>
    cases h
    exact (transfer_initTransfer s).reports (okResult_bit _) (busTrace_ite rfl rfl)
  | updchunk k =>
    cases h
    rw [sendChunk_eq_busSeq]
    exact (transfer_busSeq _ s).reports (pairResult_bit _ _) rfl
  | tick =>
    cases h
    exact (transfer_busSeq _ s).reports (pairResult_bit _ _) (busTrace_ite rfl rfl)
  | dispon | dispoff | toginv =>
    cases h
    rw [busTx_eq_busSeq]
    exact (transfer_busSeq _ s).reports (okResult_bit _) (busTrace_ite rfl rfl)
  | update | setbright =>
    cases h
    exact (transfer_busSeq _ s).reports (okResult_bit _) (busTrace_ite rfl rfl)
  | _ => cases hb

/-- Settles O22: `exec_reports`, and only the last transaction issued can have failed. -/
theorem failureStopsAndIsReported : Obligations.FailureStopsAndIsReported := by
  intro i s hb
  obtain ⟨t, h⟩ := exec_completes i s
  obtain ⟨htrace, hlastfail, hresult⟩ := exec_reports hb h
  exact ⟨t, _, h, htrace, issue_dropLast_ok _ _ _, hlastfail, hresult, (exec_sameFrame h).ill⟩

/-! ## Where the answers come from (R14), and that no `Data` is empty (R243) -/

/-- A bus-class command takes one answer for each transaction (R14). -/
theorem exec_takes_answers {i : Instr} {s t : State} (hb : busClass i = true) (h : exec i s = .next t) :
    t.answers = s.answers.drop (commandRecords i s).length ∧
      t.draws = s.draws + ((commandRecords i s).length - s.answers.length) := by
  obtain ⟨recs, ht⟩ := exec_busFrame hb h
  have htrace : s.busTrace ++ recs = s.busTrace ++ commandRecords i s := by
    rw [← (exec_reports hb h).busTrace, ht]
    rfl
  cases List.append_cancel_left htrace
  rw [ht]
  exact ⟨rfl, rfl⟩

theorem data_nil_notMem_cmds (bs : List Byte) : BusTx.data [] ∉ bs.map BusTx.cmd := by
  simp

/-- A segment has at least one byte (R243). -/
theorem data_nil_notMem_segmentTxs {s : State} (hW : 1 ≤ s.config.W) {a e : Nat} (h : a < e) :
    BusTx.data [] ∉ segmentTxs s a e := by
  have hlen : (readRange s a (segmentEnd s.config a e)).length ≠ 0 := by
    have := lt_segmentEnd (c := s.config) hW h
    rw [readRange_length]
    omega
  rw [segmentTxs, List.mem_append, List.mem_singleton, BusTx.data.injEq, not_or]
  exact ⟨data_nil_notMem_cmds _, fun hnil => hlen (congrArg List.length hnil.symm)⟩

theorem data_nil_notMem_rangeTxs {s : State} (hW : 1 ≤ s.config.W) (n a e : Nat) :
    BusTx.data [] ∉ rangeTxs s n a e := by
  induction n generalizing a with
  | zero => exact List.not_mem_nil
  | succ n ih =>
    rw [rangeTxs]
    split
    · exact fun hmem => (List.mem_append.1 hmem).elim (data_nil_notMem_segmentTxs hW ‹_›) (ih _)
    · exact List.not_mem_nil

theorem data_nil_notMem_commandTxs {s : State} (hW : 1 ≤ s.config.W) (i : Instr) :
    BusTx.data [] ∉ commandTxs i s := by
  cases i with
  | init =>
    rw [commandTxs, initTxs, List.mem_append, not_or]
    exact ⟨data_nil_notMem_cmds _, data_nil_notMem_rangeTxs (s := fillAll 0x00 s) hW _ _ _⟩
  | update | tick =>
    rw [commandTxs]
    exact data_nil_notMem_rangeTxs hW _ _ _
  | updchunk k =>
    rw [commandTxs, chunkTxs]
    split
    · exact List.not_mem_nil
    · exact data_nil_notMem_rangeTxs hW _ _ _
  | dispon | dispoff | toginv | setbright => simp [commandTxs]
  | _ => simp [commandTxs]

theorem tx_mem_of_mem_issue {ans : Nat → Bool} {k : Nat} {ts : List BusTx} {r : BusRecord}
    (hr : r ∈ issue ans k ts) : r.tx ∈ ts :=
  (issue_prefix ans k ts).subset (List.mem_map_of_mem hr)

/-- A step that runs no command issues nothing. -/
theorem step_busTrace_of_no_command {s t : State} (h : step s = .next t)
    (hno : ∀ i rest, fetch s ≠ .complete i rest) : t.busTrace = s.busTrace := by
  obtain ⟨-, -, ⟨i, rest, hfetch, -⟩ | ⟨cause, word, rest, -, rfl⟩ | ⟨-, -, rfl⟩⟩ := step_next_cases h
  · exact absurd hfetch (hno i rest)
  · rfl
  · rfl

/-- Settles O21: a bus-class command by `exec_reports` and `exec_takes_answers`, any other by what it writes. -/
theorem onlyBusCommandsIssueTransactions : Obligations.OnlyBusCommandsIssueTransactions := by
  refine ⟨fun i s t h => ?_, fun s t h hno => step_busTrace_of_no_command h hno, fun s => rfl⟩
  cases hb : busClass i
  · rw [exec_eq_of_not_busClass hb h]
    exact ⟨[], by simp⟩
  · obtain ⟨hanswers, hdraws⟩ := exec_takes_answers hb h
    refine ⟨commandRecords i s, (exec_reports hb h).busTrace, ?_, hanswers, hdraws, nofun, fun hconfig r hr hdata => ?_⟩
    · rw [commandRecords, issue_ok_eq]
      simp only [Nat.zero_add]
    · obtain ⟨⟨hW, -⟩, -⟩ := (configWf_iff s.config).1 hconfig
      exact data_nil_notMem_commandTxs hW i (hdata ▸ tx_mem_of_mem_issue hr)

end Sys2Proof.Machine
end

section
/-! PROOFS. Streaming (R240-R259): a range is sent page by page, and what UPDATE, TICK, UPDCHUNK and the two queries do
with it. -/

namespace Sys2Proof.Machine

/-! ## The segments of a range (R242, R243) -/

theorem segmentTxs_eq_pageSegment (s : State) (a e : Nat) :
    segmentTxs s a e = pageSegment s (a / s.config.W) (a % s.config.W) (segmentEnd s.config a e) := by
  rw [segmentTxs, pageSegment, Nat.div_add_mod']

/-- After its first segment a range goes on at the next page, if it goes on at all. -/
theorem rangeTxs_segmentEnd (s : State) (a e : Nat) :
    rangeTxs s (e - segmentEnd s.config a e) (segmentEnd s.config a e) e =
      rangeTxs s (e - (a / s.config.W + 1) * s.config.W) ((a / s.config.W + 1) * s.config.W) e := by
  rcases Nat.le_total e ((a / s.config.W + 1) * s.config.W) with hlast | hmore
  · rw [segmentEnd, Nat.min_eq_left hlast, rangeTxs_empty s le_rfl, rangeTxs_empty s hlast]
  · rw [segmentEnd, Nat.min_eq_right hmore]

/-- A range is its first page's segment, then the range from the next page on. -/
theorem rangeTxs_eq_pageSegment_append {s : State} (hW : 1 ≤ s.config.W) {a e : Nat} (h : a < e) :
    rangeTxs s (e - a) a e =
      pageSegment s (a / s.config.W) (a % s.config.W) (segmentEnd s.config a e) ++
        rangeTxs s (e - (a / s.config.W + 1) * s.config.W) ((a / s.config.W + 1) * s.config.W) e := by
  rw [rangeTxs_unfold hW h, segmentTxs_eq_pageSegment, rangeTxs_segmentEnd]

/-- A range that starts at page `p` and has its last byte `n - 1` pages on, page by page. -/
theorem rangeTxs_from_page {s : State} (hW : 1 ≤ s.config.W) {e n p : Nat} (he : 1 ≤ e)
    (hn : (e - 1) / s.config.W + 1 = p + n) :
    rangeTxs s (e - p * s.config.W) (p * s.config.W) e =
      ((List.range n).map fun j => pageSegment s (p + j) 0 (min e ((p + j + 1) * s.config.W))).flatten := by
  induction n generalizing p with
  | zero =>
    have hend : e - 1 < p * s.config.W := (Nat.div_lt_iff_lt_mul hW).1 (by omega)
    exact rangeTxs_empty s (by omega)
  | succ n ih =>
    have hstart : p * s.config.W ≤ e - 1 := (Nat.le_div_iff_mul_le hW).1 (by omega)
    have hnext := ih (p := p + 1) (by omega)
    simp only [Nat.add_right_comm p 1] at hnext
    rw [rangeTxs_eq_pageSegment_append hW (by omega), segmentEnd, Nat.mul_div_cancel p hW, Nat.mul_mod_left, hnext,
      List.range_succ_eq_map, List.map_cons, List.flatten_cons, List.map_map]
    rfl

/-- A range, page by page: the first segment starts at the range's start, every other at its page's. -/
theorem rangeTxs_eq_segments {s : State} (hW : 1 ≤ s.config.W) {a e : Nat} (h : a < e) :
    rangeTxs s (e - a) a e =
      ((List.range ((e - 1) / s.config.W - a / s.config.W + 1)).map fun j =>
        pageSegment s (a / s.config.W + j) (if j = 0 then a % s.config.W else 0)
          (min e ((a / s.config.W + j + 1) * s.config.W))).flatten := by
  have hpages : a / s.config.W ≤ (e - 1) / s.config.W := Nat.div_le_div_right (by omega)
  have hrest := rangeTxs_from_page hW (e := e) (n := (e - 1) / s.config.W - a / s.config.W)
    (p := a / s.config.W + 1) (by omega) (by omega)
  simp only [Nat.add_right_comm _ 1] at hrest
  rw [rangeTxs_eq_pageSegment_append hW h, hrest, List.range_succ_eq_map, List.map_cons, List.flatten_cons,
    List.map_map]
  rfl

/-- A segment starts where its page or the range does and has 1 to W bytes (R243). -/
theorem segment_bounds {W a e j : Nat} (hW : 1 ≤ W) (h : a < e) (hj : j < (e - 1) / W - a / W + 1) :
    let start := if j = 0 then a else (a / W + j) * W
    let stop := min e ((a / W + j + 1) * W)
    (a / W + j) * W + (if j = 0 then a % W else 0) = start ∧ 1 ≤ stop - start ∧ stop - start ≤ W := by
  have hpage : (a / W + j + 1) * W = (a / W + j) * W + W := Nat.succ_mul _ _
  obtain rfl | hpos := Nat.eq_zero_or_pos j
  · have hstart := Nat.div_add_mod' a W
    have hcol := Nat.mod_lt a hW
    simp only [Nat.add_zero, if_true] at hpage ⊢
    omega
  · have hlast : (a / W + j) * W ≤ e - 1 := (Nat.le_div_iff_mul_le hW).1 (by omega)
    simp only [Nat.ne_of_gt hpos, if_false]
    omega

theorem getElem?_readRange (s : State) {a e k : Nat} (h : k < e - a) :
    (readRange s a e)[k]? = some (memRead s (a + k)) := by
  simp [readRange, h]

/-- Settles O53: `rangeTxs_eq_segments` for what is issued, `segment_bounds` for each segment. -/
theorem sendRangeSegments : Obligations.SendRangeSegments := by
  intro s a e hW hae _ W start stop segs
  have hsegs : segs.flatten = rangeTxs s (e - a) a e := (rangeTxs_eq_segments hW hae).symm
  rw [hsegs]
  exact ⟨sendRange_eq a e s, dataBytes_rangeTxs hW a e, ⟨readRange_length s a e, fun k => getElem?_readRange s⟩,
    fun j => segment_bounds hW hae⟩

/-! ## UPDATE (R249) -/

/-- The payloads of a full flush are the framebuffer. -/
theorem dataBytes_allPages {s : State} (hW : 1 ≤ s.config.W) :
    dataBytes (allPages s) = readRange s 0 (BUFSZ s.config) := by
  rw [← rangeTxs_eq_allPages hW]
  exact dataBytes_rangeTxs hW 0 (BUFSZ s.config)

/-- Settles O54: the flush is the range of the whole framebuffer, which is all its pages. -/
theorem updateFlushesEveryPage : Obligations.UpdateFlushesEveryPage := by
  intro s hconfig
  obtain ⟨⟨hW, -⟩, -⟩ := (configWf_iff s.config).1 hconfig
  have hpages : rangeTxs s (BUFSZ s.config - 0) 0 (BUFSZ s.config) = allPages s := rangeTxs_eq_allPages hW
  refine ⟨decodeWords_encode (i := .update) rfl, ?_, dataBytes_allPages hW⟩
  rw [exec, execUpdate, sendRange_eq, hpages]
  cases allOk (issue (answerAt s) 0 (allPages s)) <;> rfl

/-! ## TICK (R252) -/

/-- `{30 zero bits, b1, b0}` as a number. -/
theorem pairResult_eq (b1 b0 : Bool) :
    pairResult b1 b0 = BitVec.ofNat 32 ((if b1 then 2 else 0) + (if b0 then 1 else 0)) := by
  cases b1 <;> cases b0 <;> rfl

/-- What TICK does, for either outcome of its chunk and wherever the chunk ends (R252). -/
theorem exec_tick (s : State) :
    let r := sendRange s.ucur.toNat (tickEnd s) s
    exec .tick s = .next { r.2 with
      ucur := if r.1 then (if tickEnd s = BUFSZ s.config then 0 else BitVec.ofNat 32 (tickEnd s)) else s.ucur
      result := BitVec.ofNat 32
        ((if r.1 = true ∧ tickEnd s = BUFSZ s.config then 2 else 0) + (if r.1 then 1 else 0))
      lastfail := !r.1 } := by
  simp only [exec, execTick, sendRange_eq, pairResult_eq]
  cases allOk (issue (answerAt s) 0 (rangeTxs s (tickEnd s - s.ucur.toNat) s.ucur.toNat (tickEnd s)))
  · rfl
  · by_cases hlast : tickEnd s = BUFSZ s.config
    · simp only [hlast, and_self, if_true, Bool.true_and, decide_true]
      rfl
    · simp only [hlast, and_false, if_false, Bool.true_and, decide_false, Bool.false_eq_true]
      rfl

/-- Settles O55: `exec_tick`, and UCUR below BUFSZ for the chunk's bounds. -/
theorem tickSendsTheNextChunk : Obligations.TickSendsTheNextChunk := by
  intro s hs
  have hB := BPO_pos s.config
  have hrange := hs.ucurInRange
  refine ⟨decodeWords_encode (i := .tick) rfl, ?_⟩
  intro a e r
  exact ⟨exec_tick s, by omega, by omega, fun hfail => ⟨_, exec_tick s, if_neg (Bool.eq_false_iff.1 hfail)⟩⟩

/-! ## A cycle of ticks (R253) -/

/-- A tick whose chunk succeeds sends the bytes from UCUR to the chunk's end (R252). -/
theorem tick_ok {s t : State} (hW : 1 ≤ s.config.W) (h : exec .tick s = .next t)
    (hok : allOk (commandRecords .tick s) = true) :
    dataBytes ((commandRecords .tick s).map fun r => r.tx) = readRange s s.ucur.toNat (tickEnd s) ∧
      t.ucur = (if tickEnd s = BUFSZ s.config then 0 else BitVec.ofNat 32 (tickEnd s)) ∧
      t.result = if tickEnd s = BUFSZ s.config then 3 else 1 := by
  have hr : (sendRange s.ucur.toNat (tickEnd s) s).1 = true := (congrArg Prod.fst (sendRange_eq _ _ s)).trans hok
  have htick := exec_tick s
  simp only [hr, h, true_and, if_true] at htick
  cases htick
  refine ⟨?_, rfl, ?_⟩
  · rw [commandRecords, issue_allOk hok]
    exact dataBytes_rangeTxs hW _ _
  · dsimp only
    split <;> rfl

/-- TICK writes no framebuffer byte. -/
theorem memRead_tick {s t : State} (h : exec .tick s = .next t) (o : Nat) : memRead t o = memRead s o := by
  rw [memRead, memRead, exec_fb_of_not_writesFb rfl h, (exec_sameFrame h).resets]

theorem execAll_append_of_next {is js : List Instr} {s t : State} (h : execAll is s = .next t) :
    execAll (is ++ js) s = execAll js t := by
  induction is generalizing s with
  | nil => cases h; rfl
  | cons i is ih =>
    obtain ⟨u, hu⟩ := exec_completes i s
    rw [execAll_cons_of_next hu] at h
    rw [List.cons_append, execAll_cons_of_next hu, ih h]

/-- The offset at which the first `n` chunks of the framebuffer end (R252). -/
def chunksEnd (c : Config) (n : Nat) : Nat := min (n * BPO c) (BUFSZ c)

theorem chunksEnd_of_lt {c : Config} {n : Nat} (h : n < TOTAL c) :
    chunksEnd c n = n * BPO c ∧ chunksEnd c n < BUFSZ c := by
  have hlt : n * BPO c < BUFSZ c := Nat.lt_of_not_le (mt (TOTAL_le_iff c n).2 (Nat.not_le.2 h))
  rw [chunksEnd, Nat.min_eq_left hlt.le]
  exact ⟨rfl, hlt⟩

theorem TOTAL_pos {c : Config} (h : configWf c = true) : 0 < TOTAL c := by
  obtain ⟨-, hpos, -⟩ := BUFSZ_bounds h
  have hnone := TOTAL_le_iff c 0
  omega

theorem chunksEnd_TOTAL (c : Config) : chunksEnd c (TOTAL c) = BUFSZ c :=
  Nat.min_eq_right ((TOTAL_le_iff c _).1 le_rfl)

/-- With UCUR where `n` chunks end, TICK's chunk ends where `n + 1` do (R252). -/
theorem tickEnd_of_ucur {s : State} {n : Nat} (hn : n < TOTAL s.config) (h : s.ucur.toNat = chunksEnd s.config n) :
    tickEnd s = chunksEnd s.config (n + 1) := by
  obtain ⟨hend, hlt⟩ := chunksEnd_of_lt hn
  rw [tickEnd, h]
  unfold chunksEnd at hend hlt ⊢
  rw [Nat.succ_mul]
  omega

/-- `n` ticks have led from `s` to `t` with the transactions `recs`: the framebuffer is the same, and if all of `recs`
succeeded, they sent the first `n` chunks. -/
structure TicksTo (n : Nat) (s t : State) (recs : List BusRecord) : Prop where
  run : execAll (List.replicate n .tick) s = .next t
  busTrace : t.busTrace = s.busTrace ++ recs
  config : t.config = s.config
  bytes : ∀ o, memRead t o = memRead s o
  sent : allOk recs = true →
    dataBytes (recs.map fun r => r.tx) = readRange s 0 (chunksEnd s.config n) ∧
      t.ucur = (if chunksEnd s.config n = BUFSZ s.config then 0 else BitVec.ofNat 32 (chunksEnd s.config n)) ∧
      (0 < n → t.result = if chunksEnd s.config n = BUFSZ s.config then 3 else 1)

namespace TicksTo

variable {n : Nat} {s t u : State} {recs : List BusRecord}

/-- Before a cycle's last chunk UCUR stands where the chunks sent end. -/
theorem ucur (hc : configWf s.config = true) (h : TicksTo n s t recs) (hn : n < TOTAL s.config)
    (hok : allOk recs = true) : t.ucur.toNat = chunksEnd s.config n := by
  obtain ⟨-, -, hfits⟩ := BUFSZ_bounds hc
  obtain ⟨-, hucur, -⟩ := h.sent hok
  obtain ⟨-, hlt⟩ := chunksEnd_of_lt hn
  rw [hucur, if_neg hlt.ne, BitVec.toNat_ofNat, Nat.mod_eq_of_lt (hlt.trans hfits)]

theorem zero (hc : configWf s.config = true) (h : s.ucur = 0) : TicksTo 0 s s [] where
  run := rfl
  busTrace := (List.append_nil _).symm
  config := rfl
  bytes := fun _ => rfl
  sent := fun _ => by
    obtain ⟨-, hpos, -⟩ := BUFSZ_bounds hc
    have hend : chunksEnd s.config 0 = 0 := by rw [chunksEnd, Nat.zero_mul, Nat.zero_min]
    rw [hend, if_neg (by omega), h]
    exact ⟨rfl, rfl, nofun⟩

/-- One more tick sends the next chunk. -/
theorem succ (hc : configWf s.config = true) (h : TicksTo n s t recs) (hn : n < TOTAL s.config)
    (hu : exec .tick t = .next u) : TicksTo (n + 1) s u (recs ++ commandRecords .tick t) where
  run := by
    rw [List.replicate_succ', execAll_append_of_next h.run, execAll_cons_of_next hu]
    rfl
  busTrace := by rw [(exec_reports rfl hu).busTrace, h.busTrace, List.append_assoc]
  config := (exec_sameFrame hu).config.trans h.config
  bytes := fun o => (memRead_tick hu o).trans (h.bytes o)
  sent := fun hok => by
    rw [allOk_append, Bool.and_eq_true] at hok
    obtain ⟨hrecs, hchunk⟩ := hok
    obtain ⟨⟨hW, -⟩, -⟩ := (configWf_iff s.config).1 hc
    obtain ⟨hsent, -, -⟩ := h.sent hrecs
    have hucur := h.ucur hc hn hrecs
    have hconfig := h.config
    have hnext : tickEnd t = chunksEnd s.config (n + 1) :=
      hconfig ▸ tickEnd_of_ucur (hconfig ▸ hn) (hconfig ▸ hucur)
    have hle : chunksEnd s.config n ≤ chunksEnd s.config (n + 1) :=
      min_le_min_right _ (Nat.mul_le_mul_right _ n.le_succ)
    obtain ⟨hdata, hucur', hresult⟩ := tick_ok (hconfig ▸ hW) hu hchunk
    rw [hnext, hconfig] at hucur' hresult
    refine ⟨?_, hucur', fun _ => hresult⟩
    rw [List.map_append, dataBytes_append, hsent, hdata, readRange_congr h.bytes, hucur, hnext]
    exact readRange_append s (Nat.zero_le _) hle

/-- From UCUR 0 any number of ticks within one cycle. -/
theorem of_le_TOTAL (hc : configWf s.config = true) (h : s.ucur = 0) (hn : n ≤ TOTAL s.config) :
    ∃ t recs, TicksTo n s t recs := by
  induction n with
  | zero => exact ⟨s, [], zero hc h⟩
  | succ n ih =>
    obtain ⟨t, recs, ht⟩ := ih (Nat.le_of_succ_le hn)
    obtain ⟨u, hu⟩ := exec_completes .tick t
    exact ⟨u, _, ht.succ hc hn hu⟩

end TicksTo

/-- Settles O56: `TicksTo.of_le_TOTAL`, with the end of the chunks at BUFSZ after TOTAL ticks and below it before. -/
theorem tickCycleSendsTheWholeBuffer : Obligations.TickCycleSendsTheWholeBuffer := by
  intro s hs hucur
  have hc := hs.config
  obtain ⟨⟨hW, -⟩, -⟩ := (configWf_iff s.config).1 hc
  refine ⟨?_, fun n hn => ?_⟩
  · obtain ⟨t, recs, ht⟩ := TicksTo.of_le_TOTAL hc hucur le_rfl
    refine ⟨t, recs, ht.run, ht.busTrace, fun hok => ?_⟩
    obtain ⟨hdata, hend, hresult⟩ := ht.sent hok
    rw [chunksEnd_TOTAL] at hdata hend hresult
    exact ⟨hdata, hend.trans (if_pos rfl), (hresult (TOTAL_pos hc)).trans (if_pos rfl),
      (dataBytes_allPages hW).trans hdata.symm⟩
  · obtain ⟨t, recs, ht⟩ := TicksTo.of_le_TOTAL hc hucur hn.le
    obtain ⟨hend, hlt⟩ := chunksEnd_of_lt hn
    refine ⟨t, recs, ht.run, ht.busTrace, fun hok => ⟨(ht.ucur hc hn hok).trans hend, fun hpos => ?_⟩⟩
    obtain ⟨-, -, hresult⟩ := ht.sent hok
    exact (hresult hpos).trans (if_neg hlt.ne)

/-! ## UPDCHUNK (R256) -/

/-- What UPDCHUNK does with the outcome of its chunk (R256). -/
theorem exec_updchunk {k : Word} {s : State} {r : Bool × State} (h : sendChunk k.toNat s = r) :
    exec (.updchunk k) s = .next { r.2 with
      result := BitVec.ofNat 32 ((if k.toNat + 1 < TOTAL s.config then 2 else 0) + (if r.1 then 1 else 0))
      lastfail := !r.1 } := by
  simp only [exec, execUpdchunk, h, pairResult_eq, decide_eq_true_eq]
  rfl

/-- Settles O57: the chunk past the end and the chunk within, and `TOTAL_le_iff` for which of them `k` is. -/
theorem updchunkSendsTheNamedChunk : Obligations.UpdchunkSendsTheNamedChunk := fun k s =>
  ⟨decodeWords_encode (i := .updchunk k) rfl, fun hpast => exec_updchunk (if_pos hpast),
    fun hin => exec_updchunk (if_neg (Nat.not_le.2 hin)), fun _ => (TOTAL_le_iff s.config k.toNat).symm⟩

/-! ## GETUCUR and GETCHUNKS (R258, R259) -/

/-- There are no more chunks than bytes. -/
theorem TOTAL_le_BUFSZ (c : Config) : TOTAL c ≤ BUFSZ c :=
  (TOTAL_le_iff c _).2 (Nat.le_mul_of_pos_right _ (BPO_pos c))

/-- Settles O59: each is one write of RESULT, and TOTAL fits the register. -/
theorem chunkCountAndCursorQueries : Obligations.ChunkCountAndCursorQueries := by
  intro s
  refine ⟨decodeWords_encode (i := .getchunks) rfl, decodeWords_encode (i := .getucur) rfl, rfl, _, rfl, rfl,
    fun hc => ?_⟩
  obtain ⟨-, -, hfits⟩ := BUFSZ_bounds hc
  exact Nat.mod_eq_of_lt ((TOTAL_le_BUFSZ s.config).trans_lt hfits)

end Sys2Proof.Machine
end

/-! # Exceptions and the halt (spec/60_exceptions.md) -/

namespace Sys2Proof.Machine

/-- A halted FBC executes nothing (R281). -/
theorem step_halted {s : State} (hc : configWf s.config = true) (hhalted : s.ill = true) :
    step s = .fault .halted := by
  rw [step, if_pos hc, if_pos hhalted]

/-- A halted FBC accepts no words (R101, R281). -/
theorem hostWrite_halted {s : State} (hhalted : s.ill = true) (ws : List Word) : hostWrite ws s = s :=
  if_pos hhalted

/-- Settles O14: `step_halted` and `hostWrite_halted`, and the reset values of ILL and ILLCAUSE. -/
theorem haltedExecutesNothing : Obligations.HaltedExecutesNothing := fun s hc hhalted =>
  ⟨step_halted hc hhalted, hostWrite_halted hhalted, platformReset_ill s, platformReset_illcause s⟩

/-- Settles O16: `exec_completes`, and the exception state in the frame of every command. -/
theorem everyCommandCompletes : Obligations.EveryCommandCompletes := by
  intro i s
  obtain ⟨t, ht⟩ := exec_completes i s
  have hframe := exec_sameFrame ht
  exact ⟨t, ht, hframe.ill, hframe.illcause⟩

end Sys2Proof.Machine


/-! # Reset and hazards (spec/70_reset_and_hazards.md) -/

namespace Sys2Proof.Machine

/-! ## A flush within a cycle of ticks (R322) -/

@[simp] theorem initTransfer_ucur (s : State) : (initTransfer s).2.ucur = s.ucur := by
  rw [initTransfer_eq]
  rfl

/-- UPDATE and INIT clear UCUR exactly when they succeed, which LASTFAIL tells (R220, R249). -/
theorem flush_ucur {i : Instr} {s t : State} (hi : i = .update ∨ i = .init) (h : exec i s = .next t) :
    t.ucur = if t.lastfail then s.ucur else 0 := by
  obtain rfl | rfl := hi <;> cases h
  · cases hok : (sendRange 0 (BUFSZ s.config) s).1
    · exact sendRange_ucur ..
    · rfl
  · cases hok : (initTransfer s).1
    · exact initTransfer_ucur s
    · rfl

/-- With UCUR 0 the next tick's chunk is the first one (R252). -/
theorem tickEnd_of_ucur_zero {s : State} (h : s.ucur = 0) : tickEnd s = min (BPO s.config) (BUFSZ s.config) := by
  simp [tickEnd, h]

/-- After a successful flush the ticks start at byte 0, after a failed one where they stood (R322). -/
theorem flush_restarts_ticks {i : Instr} {s t : State} (hi : i = .update ∨ i = .init) (h : exec i s = .next t) :
    (t.lastfail = false → t.ucur = 0 ∧ tickEnd t = min (BPO s.config) (BUFSZ s.config)) ∧
      (t.lastfail = true → t.ucur = s.ucur) := by
  have hucur := flush_ucur hi h
  refine ⟨fun hok => ?_, fun hfail => by rw [hucur, if_pos hfail]⟩
  have hzero : t.ucur = 0 := by rw [hucur, if_neg (Bool.eq_false_iff.1 hok)]
  rw [← (exec_sameFrame h).config]
  exact ⟨hzero, tickEnd_of_ucur_zero hzero⟩

/-- Settles O60: `flush_restarts_ticks` for each of the two flushes; no clause of the invariant is needed. -/
theorem flushRestartsTheTickCycle : Obligations.FlushRestartsTheTickCycle := by
  intro s _
  obtain ⟨t, ht⟩ := exec_completes .update s
  obtain ⟨u, hu⟩ := exec_completes .init s
  obtain ⟨htok, htfail⟩ := flush_restarts_ticks (.inl rfl) ht
  obtain ⟨huok, hufail⟩ := flush_restarts_ticks (.inr rfl) hu
  exact ⟨t, u, ht, hu, htok, huok, htfail, hufail⟩

/-! ## UPDCHUNK and the update cursor (R323) -/

/-- No drawing and no transaction reads or writes UCUR (R34). -/
theorem unread_ucur (u : Word) : Unread fun s => { s with ucur := u } := by
  constructor <;> intros <;> rfl

/-- Settles O58: the chunk is sent alike for any UCUR, and the epilogue writes only RESULT and LASTFAIL. -/
theorem updchunkIgnoresTheUpdateCursor : Obligations.UpdchunkIgnoresTheUpdateCursor := by
  intro k u s t h
  rw [exec_updchunk rfl] at h
  cases h
  exact exec_updchunk (sendChunk_unread (unread_ucur u) k.toNat s)

/-! ## Reset asserted in any state (R310) -/

theorem status_platformReset (s : State) : status (platformReset s) = 0 := status_resetWith s.config

/-- Nothing stored before the reset is left, so every byte is a free one of the new draw (R310). -/
theorem memRead_platformReset (s : State) (o : Nat) :
    memRead (platformReset s) o = Config.resetByte (s.resets + 1) o := rfl

/-- Settles O2: the registers by their reset values, STATUS and the framebuffer by the two lemmas above. -/
theorem platformResetRestoresResetState : Obligations.PlatformResetRestoresResetState := fun s =>
  ⟨platformReset_curx s, platformReset_cury s, platformReset_ucur s, platformReset_dstate s, platformReset_inv s,
    platformReset_contrast s, platformReset_lastfail s, platformReset_ill s, platformReset_illcause s,
    platformReset_result s, platformReset_asm s, status_platformReset s, memRead_platformReset s,
    platformReset_busTrace s, platformReset_config s⟩

end Sys2Proof.Machine
